-- ==== Sys2Proof/Word.lean ====
section
/-! DEFINITION. The plain value types of the block: buffer words, register words, keys, values, entries (00_scope R11, R12, R19). -/

namespace Sys2Proof

/-- One byte of the host's byte view of the buffer memory (R65). -/
abbrev Byte := BitVec 8

/-- One 32-bit buffer word, the only size of a buffer access of the block (R66). -/
abbrev Word := BitVec 32

/-- One 64-bit register of the register window (10_state section 2). -/
abbrev Reg := BitVec 64

/-- A key, 64 bits (R12). -/
abbrev Key := BitVec 64

/-- A value, 48 bits. No `Value` is out of the encoder's range, so `Enc` has no meaning beyond 2^48 (R107). -/
abbrev Value := BitVec 48

/-- A bucket index, 16 bits: NBUCKETS = 2^16 is forced (R6). -/
abbrev BucketIx := BitVec 16

/-- The two sub-tables: the spec's t = 1 and t = 2 (00_scope section 4, NTABLES). -/
inductive Table
  | t1
  | t2
  deriving DecidableEq, Repr

/-- A packed entry (word0, word1, word2), 96 bits (R16, 30_encoding section 3). -/
structure Entry where
  w0 : Word
  w1 : Word
  w2 : Word
  deriving DecidableEq, Repr

/-- An association: one (key, value) pair (00_scope glossary). -/
structure Assoc where
  key : Key
  val : Value
  deriving DecidableEq, Repr, Inhabited

end Sys2Proof
end

