-- ==== Sys2Proof/Config.lean ====
section
/-! DEFINITION. The parameters of an instance of the block, its fixed numbers, and the free values the spec leaves open. -/

namespace Sys2Proof

/-- REMOVE_POLICY (R10, R141; D15). -/
inductive RemovePolicy
  | swapLastContinue
  | swapLastRestart
  | shiftDown
  deriving DecidableEq, Repr

/-- SPLIT_SCAN (R10, R149; D16). -/
inductive SplitScan
  | stopAtEmpty
  | allSlots
  deriving DecidableEq, Repr

/-- BUF_BYTE_ORDER, left OPEN by the spec (R65; D7). -/
inductive ByteOrder
  | little
  | big
  deriving DecidableEq, Repr

/-- The parameters a model takes as arguments (00_scope section 4), but for NCTX, which is the number of contexts of the context file.
They are hardwired: CFG reports them (R33) and no step changes them. -/
structure Params where
  addrW        : Nat
  maxRounds    : Nat
  removePolicy : RemovePolicy
  splitScan    : SplitScan
  byteOrder    : ByteOrder
  deriving DecidableEq, Repr

/-- The ranges the spec allows: 21 ≤ ADDR_W ≤ 64 (R9), 1 ≤ MAX_ROUNDS ≤ 255 (R7). -/
abbrev Params.legal (p : Params) : Prop :=
  21 ≤ p.addrW ∧ p.addrW ≤ 64 ∧ 1 ≤ p.maxRounds ∧ p.maxRounds ≤ 255

namespace Config

/-- The parameters `State.reset` is an instance of: the spec's defaults (MAX_ROUNDS 16 of R7, SWAP_LAST_CONTINUE and STOP_AT_EMPTY of R10) and,
for the two OPEN ones, ADDR_W 32 (the setting of 95_test_vectors) and LITTLE. DESIGN CHOICE, log 3: no claim about all states rests on it. -/
def defaults : Params :=
  { addrW := 32, maxRounds := 16, removePolicy := .swapLastContinue, splitScan := .stopAtEmpty, byteOrder := .little }

/-- NCTX of `State.reset` (R8: "It is 4 in this spec"). -/
def nctx : Nat := 4

/-- NSLOTS (00_scope section 4). -/
abbrev nSlots : Nat := 5

/-- NBUCKETS (00_scope section 4). -/
abbrev nBuckets : Nat := 65536

/-- BUCKET_WORDS (00_scope section 4). -/
abbrev bucketWords : Nat := 16

/-- TABLE_WORDS = 2^20 (00_scope section 4). -/
abbrev tableWords : Nat := 1048576

/-- BUF_WORDS = 2^21 (R61). -/
abbrev bufWords : Nat := 2097152

/-- FREE VALUE: what draw number `n` answers at index `i`, where the spec says a register value or a context field is unspecified
(R32, R35 (d), R158, R166, R180). It has no body, so no claim can rest on what it is (log 7). -/
opaque freeReg : Nat → Nat → Reg

/-- FREE VALUE: the byte that draw number `n` leaves at byte address `a` of a buffer whose contents are unspecified (R158, R166, R180; log 7). -/
opaque freeByte : Nat → Nat → Byte

/-- FREE VALUE: where draw number `n` puts the `i`-th element of a LOOKUP's results among those after it (R138; log 6). -/
opaque freePosition : Nat → Nat → Nat

end Config
end Sys2Proof
end

