-- ==== Sys2Proof/Syntax.lean ====
section
/-! DEFINITION. The syntax of the six commands, one constructor per row of spec/opcode_table.json (R87, R96). -/

namespace Sys2Proof

/-- A command with its context indices (R25, R90). KEY, VAL and BASE are not fields of the command word: they are latched registers (R86). -/
inductive Instr
  /-- `BIND c` (R120). -/
  | bind (c : Nat)
  /-- `UNBIND c` (R123). -/
  | unbind (c : Nat)
  /-- `INSERT c` (R125). -/
  | insert (c : Nat)
  /-- `LOOKUP c` (R135). -/
  | lookup (c : Nat)
  /-- `REMOVE c` (R140). -/
  | remove (c : Nat)
  /-- `SPLIT c, ca, cb` (R148). -/
  | split (c ca cb : Nat)
  deriving DecidableEq, Repr

end Sys2Proof
end

