-- ==== Sys2Proof/WellFormed.lean ====
section
/-! DEFINITION. Which command terms have a command word: every context index fits its 4-bit field (R86, R89). -/

namespace Sys2Proof

/-- A context field is 4 bits wide and may hold 0..15 (R89). -/
def fitsField (c : Nat) : Bool := decide (c < 16)

/-- Every context index fits its field. An index at or above NCTX is well-formed: it is an encodable word that raises E_BAD_CTX when it
runs (R89). -/
def Instr.wellFormed : Instr → Bool
  | .bind c => fitsField c
  | .unbind c => fitsField c
  | .insert c => fitsField c
  | .lookup c => fitsField c
  | .remove c => fitsField c
  | .split c ca cb => fitsField c && fitsField ca && fitsField cb

/-- `Instr.wellFormed` as a proposition. -/
abbrev Instr.WellFormed (i : Instr) : Prop := i.wellFormed = true

end Sys2Proof
end

