-- ==== Sys2Proof/Decode.lean ====
section
/-! DEFINITION. Decoding a 64-bit command word, total on all 2^64 values (R88), and the encoder (R89). -/

namespace Sys2Proof

/-- Why a command word is illegal (R91). Both reasons raise E_BAD_OP (R165). -/
inductive IllegalWord
  /-- OP is 0x0 or 0x7..0xF. -/
  | reservedOp
  /-- OP names a command and a must-be-0 field is not 0. -/
  | mustBeZero
  deriving DecidableEq, Repr

/-- What a command word decodes to. -/
inductive Decoded
  | command (i : Instr)
  | illegal (r : IllegalWord)
  deriving DecidableEq, Repr

/-- CMD.OP, bits [3:0] (R25). -/
def opField (w : Reg) : Nat := (w.extractLsb' 0 4).toNat

/-- CMD.C, bits [7:4] (R25). -/
def cField (w : Reg) : Nat := (w.extractLsb' 4 4).toNat

/-- CMD.CA, bits [11:8] (R25). -/
def caField (w : Reg) : Nat := (w.extractLsb' 8 4).toNat

/-- CMD.CB, bits [15:12] (R25). -/
def cbField (w : Reg) : Nat := (w.extractLsb' 12 4).toNat

/-- The mask of a C-form row of the opcode table (R88). -/
def cFormMask : Reg := 0xFFFFFFFFFFFFFF0F

/-- The mask of the S-form row of the opcode table (R88). -/
def sFormMask : Reg := 0xFFFFFFFFFFFF000F

/-- "A value selects a command iff (value AND mask) = match for that command's row" (R88). -/
def decode (w : Reg) : Decoded :=
  if w &&& cFormMask = 0x1 then .command (.bind (cField w))
  else if w &&& cFormMask = 0x2 then .command (.unbind (cField w))
  else if w &&& cFormMask = 0x3 then .command (.insert (cField w))
  else if w &&& cFormMask = 0x4 then .command (.lookup (cField w))
  else if w &&& cFormMask = 0x5 then .command (.remove (cField w))
  else if w &&& sFormMask = 0x6 then .command (.split (cField w) (caField w) (cbField w))
  else if 1 ≤ opField w ∧ opField w ≤ 6 then .illegal .mustBeZero
  else .illegal .reservedOp

/-- The opcode of a command (R87). -/
def Instr.op : Instr → Nat
  | .bind _ => 0x1
  | .unbind _ => 0x2
  | .insert _ => 0x3
  | .lookup _ => 0x4
  | .remove _ => 0x5
  | .split _ _ _ => 0x6

/-- The context indices C, CA and CB of a command, with CA = CB = 0 for the C-form (R89). -/
def Instr.fields : Instr → Nat × Nat × Nat
  | .bind c => (c, 0, 0)
  | .unbind c => (c, 0, 0)
  | .insert c => (c, 0, 0)
  | .lookup c => (c, 0, 0)
  | .remove c => (c, 0, 0)
  | .split c ca cb => (c, ca, cb)

/-- "A legal command word is encoded as OP + 16·C + 256·CA + 4096·CB" (R89). -/
def encode (i : Instr) : Reg :=
  BitVec.ofNat 64 (i.op + 16 * i.fields.1 + 256 * i.fields.2.1 + 4096 * i.fields.2.2)

/-- The instruction the decoder reads from a row's bits as spec/opcode_table.json numbers them: a command is one 64-bit word, so the bits
are the word itself, and every bit above `nbits` is 0. A number that needs more than 64 bits is no command word. -/
def decodeTableWord (nbits w : Nat) : Option Instr :=
  if w % 2 ^ nbits < 2 ^ 64 then
    match decode (BitVec.ofNat 64 (w % 2 ^ nbits)) with
    | .command i => some i
    | .illegal _ => none
  else none

end Sys2Proof
end

