-- ==== Sys2Proof/Machine/State.lean ====
section
/-! DEFINITION. All the state the spec gives the machine, as plain data (R20), and the state after reset (R180). -/

namespace Sys2Proof.Machine

/-- MODE of a table instance (R36). -/
inductive Mode
  | normal
  | full
  deriving DecidableEq, Repr

/-- One context of the context file, one table instance (R36). `base` is a word address of ADDR_W bits, the higher bits 0 (R37). -/
structure Ctx where
  valid  : Bool
  base   : BitVec 64
  mode   : Mode
  ovfKey : Key
  ovfVal : Value
  deriving DecidableEq, Repr

/-- A context after reset, and after UNBIND (R36, R123). -/
def Ctx.unbound : Ctx := { valid := false, base := 0, mode := .normal, ovfKey := 0, ovfVal := 0 }

/-- STATUS.RESULT (R30). -/
inductive Result
  | none
  | success
  | full
  | notFound
  | rejected
  | faulted
  deriving DecidableEq, Repr

/-- ERR.ERRCODE (R165); the codes 12..255 are never produced. -/
inductive ErrCode
  | none
  | busy
  | badOp
  | badCtx
  | unbound
  | badBase
  | insertFull
  | badValue
  | destState
  | overlap
  | splitEmpty
  | splitDestFull
  deriving DecidableEq, Repr

/-- One access of the host (R185). Registers are named by their offset from REG_BASE, with the width of the access in bytes (R23); the buffer
memory by a word address of the port, or by a byte address of the host's byte view (R60, R65; log 1). -/
inductive HostAccess
  | writeReg (offset size : Nat) (value : Reg)
  | readReg (offset size : Nat)
  | writeWord (wa : Nat) (value : Word)
  | readWord (wa : Nat)
  | writeByte (ba : Nat) (value : Byte)
  | readByte (ba : Nat)
  /-- A pulse of the reset input (R180; log 10). -/
  | reset
  deriving DecidableEq, Repr

/-- One move of one of the two agents (R17, R18). -/
inductive Move
  | host (a : HostAccess)
  | engine
  deriving DecidableEq, Repr

/-- The buffer memory: the bytes that differ from what an unlisted address reads as, by rising byte address (`Memory.wf`). -/
abbrev Memory := List Host.Cell

/-- The state of the machine. -/
structure State where
  /-- the hardwired parameters, reported by CFG (R33); NCTX is the length of `ctxs` -/
  params  : Params
  /-- CMD (R25) -/
  cmd     : Reg
  /-- KEY (R26) -/
  key     : Reg
  /-- VAL (R27) -/
  val     : Reg
  /-- BASE (R28) -/
  base    : Reg
  /-- STATUS.BUSY (R29) -/
  busy    : Bool
  /-- STATUS.FAULT (R29) -/
  fault   : Bool
  /-- STATUS.RESULT (R30) -/
  result  : Result
  /-- ERR.ERRCODE (R31) -/
  errCode : ErrCode
  /-- ERR.ERRINFO (R31) -/
  errInfo : BitVec 8
  /-- ERR.ERRCMD (R31) -/
  errCmd  : BitVec 32
  /-- RCOUNT and RES0..RES(RCOUNT-1) (R32): the values the last command returned; RCOUNT is their number (log 5) -/
  results : List Value
  /-- DIV_KEY (R34) -/
  divKey  : Key
  /-- DIV_VAL (R34) -/
  divVal  : Value
  /-- the context file (R36) -/
  ctxs    : List Ctx
  /-- LCMD, the latched command word (R41) -/
  lcmd    : Reg
  /-- LKEY (R41) -/
  lkey    : Reg
  /-- LVAL (R41) -/
  lval    : Reg
  /-- LBASE (R41) -/
  lbase   : Reg
  /-- the external buffer memory (R20 (d), R60) -/
  mem     : Memory
  /-- MODEL'S OWN: the moves still to come, the host's program and its interleaving with the engine (log 8) -/
  agenda  : List Move
  /-- MODEL'S OWN: what the host's last read returned (log 9) -/
  readData : Reg
  /-- MODEL'S OWN: how many free values have been drawn (log 7) -/
  draws   : Nat
  deriving DecidableEq, Repr

/-- Why the machine stops. The hardware's own faults are not here: they are next states with STATUS.FAULT = 1 (R163; log 19). -/
inductive Fault
  /-- RACE (R170): raised by a host access to a word of a buffer that the running command names. Safe: a fault where the hardware's behaviour
  is undefined. -/
  | race
  /-- Raised by a host access to buffer memory at an address outside the 2^ADDR_W words of the port (R60; log 14). Safe: it stops where the spec
  gives no memory. -/
  | noSuchAddress
  deriving DecidableEq, Repr

/-- What the model does not admit. -/
inductive Refusal
  /-- Raised by `exec` for a command without a meaning: none is left. Safe. -/
  | notModelled (mnemonic : String)
  /-- Raised by a host register access that is not one naturally aligned 64-bit access (R23, U19). Safe: the spec refuses such a program. -/
  | registerAccessShape
  deriving DecidableEq, Repr

/-- The machine right after reset (R180), with an empty agenda. The latched copy is unspecified after reset and is 0 here (DESIGN CHOICE,
log 4); the memory lists nothing (log 2); the parameters are an instance's (log 3). -/
def State.reset : State :=
  { params := Config.defaults
    cmd := 0, key := 0, val := 0, base := 0
    busy := false, fault := false, result := .none
    errCode := .none, errInfo := 0, errCmd := 0
    results := [], divKey := 0, divVal := 0
    ctxs := List.replicate Config.nctx Ctx.unbound
    lcmd := 0, lkey := 0, lval := 0, lbase := 0
    mem := [], agenda := [], readData := 0, draws := 0 }

end Sys2Proof.Machine
end

