-- ==== Sys2Proof/Machine/Codec.lean ====
section
/-! DEFINITION. The packed entry encoder and decoder (40_codec R105 to R114; formats 30_encoding R92, R93). Pure functions of their operands. -/

namespace Sys2Proof.Machine

/-- The table 3 - t of a displacement round (R126). -/
def otherTable : Table → Table
  | .t1 => .t2
  | .t2 => .t1

/-- `Index(t, k)` (R105). -/
def index (t : Table) (k : Key) : BucketIx :=
  match t with
  | .t1 => k.extractLsb' 0 16
  | .t2 => k.extractLsb' 16 16

/-- The key half that is not `Index(t, k)`: the `h` of `Enc` (R106). -/
def otherHalf (t : Table) (k : Key) : BucketIx :=
  match t with
  | .t1 => k.extractLsb' 16 16
  | .t2 => k.extractLsb' 0 16

/-- `Enc(t, k, v)` (R106). -/
def enc (t : Table) (p : Assoc) : Entry :=
  { w0 := p.key.extractLsb' 32 32
    w1 := otherHalf t p.key ++ p.val.extractLsb' 32 16
    w2 := p.val.extractLsb' 0 32 }

/-- `DecKey(t, b, w0, w1)` (R108). -/
def decKey (t : Table) (b : BucketIx) (e : Entry) : Key :=
  match t with
  | .t1 => e.w0 ++ e.w1.extractLsb' 16 16 ++ b
  | .t2 => e.w0 ++ b ++ e.w1.extractLsb' 16 16

/-- `DecVal(w1, w2)` (R109), before its zero extension to 64 bits. -/
def decVal (e : Entry) : Value := e.w1.extractLsb' 0 16 ++ e.w2

/-- The pair a slot of table t, bucket b encodes (R108, R109, R151). -/
def decodeSlot (t : Table) (b : BucketIx) (e : Entry) : Assoc := { key := decKey t b e, val := decVal e }

/-- `Z`, the all-zero entry (R16, R94). -/
def emptyEntry : Entry := { w0 := 0, w1 := 0, w2 := 0 }

/-- `IsEmpty(e)` (R110). -/
def isEmpty (e : Entry) : Bool := decide (e = emptyEntry)

end Sys2Proof.Machine
end

