-- ==== Sys2Proof/Machine/Ops.lean ====
section
/-! DEFINITION. The named operations over buffer memory, slots, contexts and registers; ending a command; raising a fault, and reset, the only
way out of it. -/

namespace Sys2Proof.Machine

namespace Memory

/-- What an unlisted address reads as: the model's choice for memory whose contents the spec leaves to the platform (R180; DESIGN CHOICE, log 2). -/
def unlisted (_a : Nat) : Byte := 0

/-- The canonical form: addresses strictly rising, and no cell equal to what an unlisted address reads as. -/
abbrev wf (m : Memory) : Prop :=
  m.Pairwise (fun x y => x.1 < y.1) ∧ ∀ c ∈ m, c.2 ≠ unlisted c.1

/-- The byte at an address. -/
def byteAt : Memory → Nat → Byte
  | [], a => unlisted a
  | c :: rest, a => if c.1 = a then c.2 else byteAt rest a

/-- Every cell but the one at `a`. -/
def without (m : Memory) (a : Nat) : Memory := m.filter (fun c => c.1 ≠ a)

/-- The cell `(a, b)` before the first cell of a higher address. -/
def insertCell (a : Nat) (b : Byte) : Memory → Memory
  | [] => [(a, b)]
  | c :: rest => if a < c.1 then (a, b) :: c :: rest else c :: insertCell a b rest

/-- Writing one byte. Writing what an unlisted address reads as removes the cell. -/
def put (m : Memory) (a : Nat) (b : Byte) : Memory :=
  if b = unlisted a then m.without a else insertCell a b (m.without a)

/-- The cells of the bytes `draw` gives at the `n` addresses from `lo`. -/
def drawnCells (lo n : Nat) (draw : Nat → Byte) : Memory :=
  (List.range n).filterMap fun i =>
    if draw (lo + i) = unlisted (lo + i) then none else some (lo + i, draw (lo + i))

/-- The memory with unspecified contents, the bytes of `draw`, at the `n` addresses from `lo`. -/
def havoc (m : Memory) (lo n : Nat) (draw : Nat → Byte) : Memory :=
  m.filter (fun c => c.1 < lo) ++ (drawnCells lo n draw ++ m.filter (fun c => lo + n ≤ c.1))

/-- Byte `j` of a word, j = 0 at the lowest byte address (R65). -/
def wordByte (o : ByteOrder) (w : Word) (j : Nat) : Byte :=
  match o with
  | .little => w.extractLsb' (8 * j) 8
  | .big => w.extractLsb' (8 * (3 - j)) 8

/-- The word whose bytes, by rising address, are the arguments (R65). -/
def wordOfBytes (o : ByteOrder) (b0 b1 b2 b3 : Byte) : Word :=
  match o with
  | .little => b3 ++ b2 ++ b1 ++ b0
  | .big => b0 ++ b1 ++ b2 ++ b3

/-- `MemRead(wa, 1)` (R13). Word `wa` is the bytes 4·wa .. 4·wa + 3 (log 1). -/
def readWord (o : ByteOrder) (m : Memory) (wa : Nat) : Word :=
  wordOfBytes o (m.byteAt (4 * wa)) (m.byteAt (4 * wa + 1)) (m.byteAt (4 * wa + 2)) (m.byteAt (4 * wa + 3))

/-- `MemWrite(wa, 1, w)` (R13). -/
def writeWord (o : ByteOrder) (m : Memory) (wa : Nat) (w : Word) : Memory :=
  (((m.put (4 * wa) (wordByte o w 0)).put (4 * wa + 1) (wordByte o w 1)).put (4 * wa + 2) (wordByte o w 2)).put
    (4 * wa + 3) (wordByte o w 3)

end Memory

/-- A buffer as the engine reaches it: its word address and the platform's byte order (R61, R65). -/
structure Buffer where
  order : ByteOrder
  base  : Nat
  deriving DecidableEq, Repr

/-- Where sub-table t starts in a buffer, (t-1)·2^20 (R62). -/
def tableOffset : Table → Nat
  | .t1 => 0
  | .t2 => Config.tableWords

/-- `SlotAddr` (R62), on unbounded numbers: BIND's range check keeps it below 2^ADDR_W (R121). -/
def slotAddr (g : Buffer) (t : Table) (b : BucketIx) (i j : Nat) : Nat :=
  g.base + tableOffset t + Config.bucketWords * b.toNat + 3 * i + j

/-- `ReadSlot` (R62). -/
def readSlot (g : Buffer) (m : Memory) (t : Table) (b : BucketIx) (i : Nat) : Entry :=
  { w0 := m.readWord g.order (slotAddr g t b i 0)
    w1 := m.readWord g.order (slotAddr g t b i 1)
    w2 := m.readWord g.order (slotAddr g t b i 2) }

/-- `WriteSlot` (R62). -/
def writeSlot (g : Buffer) (m : Memory) (t : Table) (b : BucketIx) (i : Nat) (e : Entry) : Memory :=
  Memory.writeWord g.order
    (Memory.writeWord g.order (Memory.writeWord g.order m (slotAddr g t b i 0) e.w0) (slotAddr g t b i 1) e.w1)
    (slotAddr g t b i 2) e.w2

/-- The byte `a` of a buffer belongs to the padding word, word 15, of a bucket (R62, R63). -/
def isPaddingByte (g : Buffer) (a : Nat) : Bool := decide ((a / 4 - g.base) % Config.bucketWords = 15)

/-- The five slots of a bucket, in slot order (R95). -/
def readBucket (g : Buffer) (m : Memory) (t : Table) (b : BucketIx) : List Entry :=
  (List.range Config.nSlots).map (readSlot g m t b)

namespace State

/-- NCTX, the number of contexts of the context file (R8, R36). -/
def nctx (s : State) : Nat := s.ctxs.length

/-- `CTX[c]` (R36), for c < NCTX. -/
def ctx (s : State) (c : Nat) : Ctx := s.ctxs.getD c Ctx.unbound

/-- `CTX[c] <- x`, for c < NCTX. -/
def setCtx (s : State) (c : Nat) (x : Ctx) : State := { s with ctxs := s.ctxs.set c x }

/-- The buffer of context c (R61). -/
def buffer (s : State) (c : Nat) : Buffer := { order := s.params.byteOrder, base := (s.ctx c).base.toNat }

/-- The buffer memory after a command's writes. -/
def setMem (s : State) (m : Memory) : State := { s with mem := m }

/-- DIV_KEY and DIV_VAL (R34). -/
def setDivider (s : State) (p : Assoc) : State := { s with divKey := p.key, divVal := p.val }

/-- The next draw of a free value is another one (log 7). -/
def nextDraw (s : State) : State := { s with draws := s.draws + 1 }

/-! ### Ending a command -/

/-- What every command end writes: RESULT, ERR, RCOUNT with the returned values, and BUSY ← 0 (R162, R163, R164). -/
def endCommand (s : State) (r : Result) (code : ErrCode) (info : BitVec 8) (word : Reg) (vals : List Value) : State :=
  { s with
    busy := false, result := r
    errCode := code, errInfo := info, errCmd := word.extractLsb' 0 32
    results := vals }

/-- `finish(result)` of a command that returns values (R162, R135). -/
def finishWith (s : State) (r : Result) (vals : List Value) : State := s.endCommand r .none 0 s.lcmd vals

/-- `finish(result)` (R162): RCOUNT = 0. -/
def finish (s : State) (r : Result) : State := s.finishWith r []

/-- `reject(code)` (R164): FAULT unchanged. -/
def reject (s : State) (code : ErrCode) : State := s.endCommand .rejected code 0 s.lcmd []

/-! ### Taking a fault, and the way out -/

/-- A fault of the command word `word` (R163, R171): ERR saves code, info and the word's low half, RESULT = FAULTED, RCOUNT = 0, BUSY = 0 and the
sticky FAULT. Nothing else changes: no vector, no mode, no stack. -/
def raiseFor (s : State) (code : ErrCode) (info : BitVec 8) (word : Reg) : State :=
  { s.endCommand .faulted code info word [] with fault := true }

/-- `raise Fault(code, info)` of the running command (R15, R163). -/
def raise (s : State) (code : ErrCode) (info : BitVec 8) : State := s.raiseFor code info s.lcmd

/-- The contexts a command word names (R61). -/
def namedBy : Instr → List Nat
  | .bind c => [c]
  | .unbind c => [c]
  | .insert c => [c]
  | .lookup c => [c]
  | .remove c => [c]
  | .split c ca cb => [c, ca, cb]

/-- The contexts the latched command names: an illegal word names none, and an index at or above NCTX names no context (log 11). -/
def namedCtxs (s : State) : List Nat :=
  match decode s.lcmd with
  | .command i => (namedBy i).filter (fun c => c < s.nctx)
  | .illegal _ => []

/-- Those of the contexts `cs` that are bound to a buffer. -/
def boundOf (s : State) (cs : List Nat) : List Nat := cs.filter (fun c => (s.ctx c).valid)

/-- The slot words of context c's buffer become free values; its padding words are never written by the block (R63). -/
def unspecifyBuffer (s : State) (m : Memory) (c : Nat) : Memory :=
  m.havoc (4 * (s.buffer c).base) (4 * Config.bufWords) fun a =>
    if isPaddingByte (s.buffer c) a then m.byteAt a else Config.freeByte s.draws a

/-- The slot words of the bound buffers of `cs` become free values (R158, R166, R180; log 12). -/
def unspecifyBuffers (s : State) (cs : List Nat) : State := s.setMem ((s.boundOf cs).foldl s.unspecifyBuffer s.mem)

/-- A word address of ADDR_W bits, the higher bits 0 (R37, R120). -/
def truncAddr (addrW : Nat) (x : Reg) : Reg := BitVec.ofNat 64 (x.toNat % 2 ^ addrW)

/-- A context whose fields are free values of their widths (R158, R166). -/
def freeCtx (addrW n c : Nat) : Ctx :=
  { valid := (Config.freeReg n (5 * c)).getLsbD 0
    base := truncAddr addrW (Config.freeReg n (5 * c + 1))
    mode := if (Config.freeReg n (5 * c + 2)).getLsbD 0 then .full else .normal
    ovfKey := Config.freeReg n (5 * c + 3)
    ovfVal := (Config.freeReg n (5 * c + 4)).setWidth 48 }

/-- The fields of the contexts `cs` become free values (R158, R166). -/
def unspecifyCtxs (s : State) (cs : List Nat) : State :=
  cs.foldl (fun u c => u.setCtx c (freeCtx s.params.addrW s.draws c)) s

/-- Buffers and contexts of `cs` become free values, by one draw. -/
def unspecify (s : State) (cs : List Nat) : State := ((s.unspecifyBuffers cs).unspecifyCtxs cs).nextDraw

/-- The reset input (R180, R182), the only way out of the fault state (R169): registers and contexts take their reset values, the latched copy
is unspecified, a running command is abandoned with its named buffers unspecified, and no other buffer word changes. -/
def hardReset (s : State) : State :=
  let u := if s.busy then s.unspecifyBuffers s.namedCtxs else s
  { u.nextDraw with
    cmd := 0, key := 0, val := 0, base := 0
    busy := false, fault := false, result := .none
    errCode := .none, errInfo := 0, errCmd := 0
    results := [], divKey := 0, divVal := 0
    ctxs := s.ctxs.map (fun _ => Ctx.unbound)
    lcmd := Config.freeReg s.draws 0, lkey := Config.freeReg s.draws 1
    lval := Config.freeReg s.draws 2, lbase := Config.freeReg s.draws 3 }

/-! ### Issue and abandonment -/

/-- E_BUSY (R166): the CMD write `word` while a command runs is stored and raises the fault; BUSY stays 1 until the engine has stopped. -/
def abandon (s : State) (word : Reg) : State := { s.raiseFor .busy 0 word with cmd := word, busy := true }

/-- The engine has stopped after E_BUSY (R166): BUSY ← 0, and what the abandoned command names is unspecified. -/
def stopEngine (s : State) : State := { s.unspecify s.namedCtxs with busy := false }

/-- The issue of a command by a CMD write while idle and not faulted (R85): the operands are latched (R41), BUSY ← 1, RESULT ← NONE. -/
def issue (s : State) (word : Reg) : State :=
  { s with
    cmd := word
    lcmd := word, lkey := s.key, lval := s.val, lbase := s.base
    busy := true, result := .none }

end State
end Sys2Proof.Machine
end

