-- ==== Sys2Proof/Machine/Operands.lean ====
section
/-! DEFINITION. The operand forms of the commands and the checks on them (R86, R90, R167). -/

namespace Sys2Proof.Machine

/-- The legal operand values of INSERT and REMOVE are 1 ≤ VAL ≤ 2^48 - 1 (R27, R125, R140). -/
def valueLegal (v : Reg) : Bool := decide (v ≠ 0 ∧ v.toNat < 2 ^ 48)

/-- `BaseInRange(base)`: base ≤ 2^ADDR_W - 2^21 on unbounded integers (R121). -/
def baseInRange (addrW : Nat) (b : Reg) : Bool := decide (b.toNat + Config.bufWords ≤ 2 ^ addrW)

/-- `Overlap(x, y)`: the distance of the two bases is below 2^21 (R148). -/
def overlap (x y : Buffer) : Bool := decide (x.base < y.base + Config.bufWords ∧ y.base < x.base + Config.bufWords)

namespace State

/-- The association of the latched operands KEY and VAL (R41, R90). `Enc` reads only v[47:0] (R106); the value check comes first. -/
def operand (s : State) : Assoc := { key := s.lkey, val := s.lval.setWidth 48 }

/-- The word of a named buffer of the running command at word address `wa`, the words a host must not touch while BUSY (R61, R76 (c)). -/
def namesWord (s : State) (wa : Nat) : Bool :=
  (s.boundOf s.namedCtxs).any fun c =>
    decide ((s.ctx c).base.toNat ≤ wa ∧ wa < (s.ctx c).base.toNat + Config.bufWords)

end State
end Sys2Proof.Machine
end

