-- ==== Sys2Proof/Machine/Flags.lean ====
section
/-! DEFINITION. The numeric codes of RESULT and ERRCODE and the 64-bit images of the read-only registers (R29 to R33, R37). -/

namespace Sys2Proof.Machine

/-- `STATUS.RESULT` (R30). -/
def Result.code : Result → BitVec 3
  | .none => 0
  | .success => 1
  | .full => 2
  | .notFound => 3
  | .rejected => 4
  | .faulted => 5

/-- `ERR.ERRCODE` (R165). -/
def ErrCode.code : ErrCode → BitVec 8
  | .none => 0
  | .busy => 1
  | .badOp => 2
  | .badCtx => 3
  | .unbound => 4
  | .badBase => 5
  | .insertFull => 6
  | .badValue => 7
  | .destState => 8
  | .overlap => 9
  | .splitEmpty => 10
  | .splitDestFull => 11

/-- REMOVE_POLICY in CFG[17:16] (R33). -/
def removePolicyCode : RemovePolicy → BitVec 2
  | .swapLastContinue => 0
  | .swapLastRestart => 1
  | .shiftDown => 2

/-- SPLIT_SCAN in CFG[18] (R33). -/
def splitScanCode : SplitScan → BitVec 1
  | .stopAtEmpty => 0
  | .allSlots => 1

namespace State

/-- STATUS: [0] BUSY, [1] FAULT, [6:4] RESULT, every other bit 0 (R29). -/
def statusImage (s : State) : Reg :=
  (0 : BitVec 57) ++ s.result.code ++ (0 : BitVec 2) ++ BitVec.ofBool s.fault ++ BitVec.ofBool s.busy

/-- What a read of STATUS returns while BUSY: BUSY = 1, FAULT = 0, RESULT = NONE (R35 (c); log 20). -/
def busyStatus : Reg := 1

/-- ERR: [7:0] ERRCODE, [15:8] ERRINFO, [31:16] 0, [63:32] ERRCMD (R31). -/
def errImage (s : State) : Reg := s.errCmd ++ (0 : BitVec 16) ++ s.errInfo ++ s.errCode.code

/-- RCOUNT: [3:0] the number of values, [63:4] 0 (R32). -/
def rcountImage (s : State) : Reg := (0 : BitVec 60) ++ BitVec.ofNat 4 s.results.length

/-- CFG (R33). -/
def cfgImage (s : State) : Reg :=
  (0 : BitVec 8) ++ (16 : BitVec 8) ++ (16 : BitVec 8) ++ (3 : BitVec 4) ++ (5 : BitVec 4) ++ BitVec.ofNat 8 s.params.addrW ++
    (0 : BitVec 5) ++ splitScanCode s.params.splitScan ++ removePolicyCode s.params.removePolicy ++
    BitVec.ofNat 8 s.params.maxRounds ++ BitVec.ofNat 8 s.nctx

end State

/-- CTXn_STATE: [0] VALID, [1] MODE, [63:2] 0 (R37). -/
def Ctx.stateImage (x : Ctx) : Reg := (0 : BitVec 62) ++ BitVec.ofBool (x.mode = .full) ++ BitVec.ofBool x.valid

end Sys2Proof.Machine
end

