-- ==== Sys2Proof/Machine/Context.lean ====
section
/-! DEFINITION. The context commands BIND and UNBIND (41_context). -/

namespace Sys2Proof.Machine

/-- BIND (R120): a new NORMAL instance over the buffer at BASE; no buffer word is read or written (R122). -/
def execBind (c : Nat) (s : State) : Host.Outcome State Fault Refusal :=
  .next <|
    if s.nctx ≤ c then s.raise .badCtx 0
    else if !baseInRange s.params.addrW s.lbase then s.raise .badBase 0
    else
      (s.setCtx c
        { valid := true, base := State.truncAddr s.params.addrW s.lbase, mode := .normal, ovfKey := 0, ovfVal := 0 }).finish .success

/-- UNBIND (R123): legal on a context that is not VALID too. -/
def execUnbind (c : Nat) (s : State) : Host.Outcome State Fault Refusal :=
  .next <|
    if s.nctx ≤ c then s.raise .badCtx 0
    else (s.setCtx c { valid := false, base := 0, mode := .normal, ovfKey := 0, ovfVal := 0 }).finish .success

end Sys2Proof.Machine
end

