-- ==== Sys2Proof/Machine/Insert.lean ====
section
/-! DEFINITION. INSERT, the insertion algorithm shared with SPLIT, and the displacement state machine (42_insert). -/

namespace Sys2Proof.Machine

/-- What `InsertCore` answers (R126): SUCCESS, or FULL with the association that is left over (R130), and the memory it leaves. -/
inductive Insertion
  | success (m : Memory)
  | full (m : Memory) (p : Assoc)
  deriving DecidableEq, Repr

/-- The first empty slot of a bucket, in slot order 0..4 (R127). -/
def freeSlot (g : Buffer) (m : Memory) (t : Table) (b : BucketIx) : Option Nat :=
  (List.range Config.nSlots).find? (fun i => isEmpty (readSlot g m t b i))

/-- Direct placement into one table (R127): the association's bucket takes it in its first empty slot, if it has one. -/
def placeIn (g : Buffer) (m : Memory) (t : Table) (p : Assoc) : Option Memory :=
  (freeSlot g m t (index t p.key)).map fun i => writeSlot g m t (index t p.key) i (enc t p)

/-- The displacement state machine DISPLACE(r, t, k, v) with `n` rounds left (R128): a round writes the carried association into slot 0 of its
bucket and, unless that slot was empty (R129), goes on with the displaced one in the other table; no round left is FULL (R130). -/
def displace (g : Buffer) : Nat → Memory → Table → Assoc → Insertion
  | 0, m, _, p => .full m p
  | n + 1, m, t, p =>
    let b := index t p.key
    let old := readSlot g m t b 0
    let m' := writeSlot g m t b 0 (enc t p)
    if isEmpty old then .success m' else displace g n m' (otherTable t) (decodeSlot t b old)

/-- `InsertCore(c, k, v)` on the buffer of c (R126): table 1, then table 2, then displacement from table 1 for `rounds` rounds. -/
def insertCore (g : Buffer) (rounds : Nat) (m : Memory) (p : Assoc) : Insertion :=
  match placeIn g m .t1 p with
  | some m' => .success m'
  | none =>
    match placeIn g m .t2 p with
    | some m' => .success m'
    | none => displace g rounds m .t1 p

/-- The context that INSERT leaves when it returns FULL (R130). -/
def markFull (x : Ctx) (p : Assoc) : Ctx := { x with mode := .full, ovfKey := p.key, ovfVal := p.val }

/-- INSERT (R125). -/
def execInsert (c : Nat) (s : State) : Host.Outcome State Fault Refusal :=
  .next <|
    if s.nctx ≤ c then s.raise .badCtx 0
    else if !(s.ctx c).valid then s.raise .unbound 0
    else if (s.ctx c).mode = .full then s.raise .insertFull 0
    else if !valueLegal s.lval then s.raise .badValue 0
    else
      match insertCore (s.buffer c) s.params.maxRounds s.mem s.operand with
      | .success m => (s.setMem m).finish .success
      | .full m p => ((s.setMem m).setCtx c (markFull (s.ctx c) p)).finish .full

end Sys2Proof.Machine
end

