-- ==== Sys2Proof/Machine/Lookup.lean ====
section
/-! DEFINITION. LOOKUP (43_lookup). -/

namespace Sys2Proof.Machine

/-- The value a slot contributes to a lookup of `k` in bucket `b` of table `t`: the slot decodes to the key and its value is not 0 (R135, R136). -/
def slotMatch (t : Table) (b : BucketIx) (k : Key) (e : Entry) : Option Value :=
  if decKey t b e = k ∧ decVal e ≠ 0 then some (decVal e) else none

/-- The values of the five slots of k's bucket in table t, without an early exit (R136). -/
def matchesIn (g : Buffer) (m : Memory) (t : Table) (k : Key) : List Value :=
  (readBucket g m t (index t k)).filterMap (slotMatch t (index t k) k)

/-- The multiset M of LOOKUP, listed in the order of the scan (R135). -/
def lookupMatches (g : Buffer) (m : Memory) (k : Key) : List Value := matchesIn g m .t1 k ++ matchesIn g m .t2 k

/-- The values in the order that draw number `n` chooses: each goes to a free position among those after it, so every order can be chosen
(R138; log 6). -/
def shuffle (n : Nat) : List Value → List Value
  | [] => []
  | [v] => [v]
  | v :: w :: rest => (shuffle n (w :: rest)).insertIdx (Config.freePosition n rest.length % (rest.length + 2)) v

/-- LOOKUP (R135): legal in NORMAL and FULL, the overflow association is not read (R137). -/
def execLookup (c : Nat) (s : State) : Host.Outcome State Fault Refusal :=
  .next <|
    if s.nctx ≤ c then s.raise .badCtx 0
    else if !(s.ctx c).valid then s.raise .unbound 0
    else
      let found := lookupMatches (s.buffer c) s.mem s.lkey
      (s.finishWith (if found = [] then .notFound else .success) (shuffle s.draws found)).nextDraw

end Sys2Proof.Machine
end

