-- ==== Sys2Proof/Machine/Remove.lean ====
section
/-! DEFINITION. REMOVE and its three scan policies (44_remove). -/

namespace Sys2Proof.Machine

/-- "The bucket's last slot" is slot 4, live or not (R141). -/
def lastSlot : Nat := 4

/-- Swap-with-last on slot i: the slot takes slot 4's contents and slot 4 becomes Z (R142, R143). -/
def swapLast (g : Buffer) (m : Memory) (t : Table) (b : BucketIx) (i : Nat) : Memory :=
  let m' := writeSlot g m t b i (readSlot g m t b lastSlot)
  writeSlot g m' t b lastSlot emptyEntry

/-- The scan of SWAP_LAST_CONTINUE over the slots still to visit (R142). -/
def scanContinue (g : Buffer) (t : Table) (b : BucketIx) (e : Entry) : List Nat → Memory × Bool → Memory × Bool
  | [], r => r
  | i :: rest, (m, found) =>
    scanContinue g t b e rest (if readSlot g m t b i = e then (swapLast g m t b i, true) else (m, found))

/-- `RemoveInBucket_SWAP_LAST_CONTINUE` (R142). -/
def removeContinue (g : Buffer) (m : Memory) (t : Table) (b : BucketIx) (e : Entry) : Memory × Bool :=
  scanContinue g t b e (List.range Config.nSlots) (m, false)

/-- The loop of SWAP_LAST_RESTART, for at most `n` passes (R143). -/
def scanRestart (g : Buffer) (t : Table) (b : BucketIx) (e : Entry) : Nat → Memory × Bool → Memory × Bool
  | 0, r => r
  | n + 1, (m, found) =>
    match (List.range Config.nSlots).find? (fun i => readSlot g m t b i = e) with
    | none => (m, found)
    | some i => scanRestart g t b e n (swapLast g m t b i, true)

/-- `RemoveInBucket_SWAP_LAST_RESTART` (R143): "the loop runs at most 5 passes and removes every copy" (log 17). -/
def removeRestart (g : Buffer) (m : Memory) (t : Table) (b : BucketIx) (e : Entry) : Memory × Bool :=
  scanRestart g t b e Config.nSlots (m, false)

/-- Slots i+1..4 move down by one, in rising order, and slot 4 becomes Z (R144). -/
def shiftFrom (g : Buffer) (m : Memory) (t : Table) (b : BucketIx) (i : Nat) : Memory :=
  let m' := (List.range' i (lastSlot - i)).foldl (fun u j => writeSlot g u t b j (readSlot g u t b (j + 1))) m
  writeSlot g m' t b lastSlot emptyEntry

/-- The loop of SHIFT_DOWN at slot i, for at most `n` turns (R144): a turn removes a copy and looks at slot i again, or advances i. -/
def scanShift (g : Buffer) (t : Table) (b : BucketIx) (e : Entry) : Nat → Nat → Memory × Bool → Memory × Bool
  | 0, _, r => r
  | n + 1, i, (m, found) =>
    if lastSlot < i then (m, found)
    else if readSlot g m t b i = e then scanShift g t b e n i (shiftFrom g m t b i, true)
    else scanShift g t b e n (i + 1) (m, found)

/-- `RemoveInBucket_SHIFT_DOWN` (R144): at most 5 removals and 5 advances, since e is not Z (log 17). -/
def removeShift (g : Buffer) (m : Memory) (t : Table) (b : BucketIx) (e : Entry) : Memory × Bool :=
  scanShift g t b e (2 * Config.nSlots) 0 (m, false)

/-- `RemoveInBucket` (R141). -/
def removeInBucket (policy : RemovePolicy) (g : Buffer) (m : Memory) (t : Table) (b : BucketIx) (e : Entry) : Memory × Bool :=
  match policy with
  | .swapLastContinue => removeContinue g m t b e
  | .swapLastRestart => removeRestart g m t b e
  | .shiftDown => removeShift g m t b e

/-- The two candidate buckets of an association, table 1 then table 2, independently (R140, R146 (a)). -/
def removeCore (policy : RemovePolicy) (g : Buffer) (m : Memory) (p : Assoc) : Memory × Bool :=
  let r1 := removeInBucket policy g m .t1 (index .t1 p.key) (enc .t1 p)
  let r2 := removeInBucket policy g r1.1 .t2 (index .t2 p.key) (enc .t2 p)
  (r2.1, r1.2 || r2.2)

/-- REMOVE (R140): legal in FULL state too, and it never reads the overflow association (R145). -/
def execRemove (c : Nat) (s : State) : Host.Outcome State Fault Refusal :=
  .next <|
    if s.nctx ≤ c then s.raise .badCtx 0
    else if !(s.ctx c).valid then s.raise .unbound 0
    else if !valueLegal s.lval then s.raise .badValue 0
    else
      let r := removeCore s.params.removePolicy (s.buffer c) s.mem s.operand
      (s.setMem r.1).finish (if r.2 then .success else .notFound)

end Sys2Proof.Machine
end

