-- ==== Sys2Proof/Machine/Split.lean ====
section
/-! DEFINITION. SPLIT and the reshard sorter (45_split). -/

namespace Sys2Proof.Machine

/-- The slots of a bucket that the collection takes (R149): up to the first empty one, or every live one. -/
def liveSlots (scan : SplitScan) (slots : List Entry) : List Entry :=
  match scan with
  | .stopAtEmpty => slots.takeWhile (fun e => !isEmpty e)
  | .allSlots => slots.filter (fun e => !isEmpty e)

/-- What one bucket contributes to the collection (R149, R151). -/
def collectBucket (scan : SplitScan) (g : Buffer) (m : Memory) (t : Table) (b : BucketIx) : List Assoc :=
  (liveSlots scan (readBucket g m t b)).map (decodeSlot t b)

/-- Buckets 0..65535 of a sub-table, in order (R149). -/
def collectTable (scan : SplitScan) (g : Buffer) (m : Memory) (t : Table) : List Assoc :=
  (List.range Config.nBuckets).flatMap fun b => collectBucket scan g m t (BitVec.ofNat 16 b)

/-- The overflow association of a FULL context, and nothing of a NORMAL one (R150). -/
def overflowOf (x : Ctx) : List Assoc :=
  match x.mode with
  | .full => [{ key := x.ovfKey, val := x.ovfVal }]
  | .normal => []

/-- `Collect(s)` (R149). -/
def collect (s : State) (c : Nat) : List Assoc :=
  overflowOf (s.ctx c) ++ collectTable s.params.splitScan (s.buffer c) s.mem .t1 ++
    collectTable s.params.splitScan (s.buffer c) s.mem .t2

/-- The order of R152: by key, then by value, unsigned. -/
abbrev assocLe (p q : Assoc) : Prop := p.key < q.key ∨ (p.key = q.key ∧ p.val ≤ q.val)

/-- `Sort(L)` (R152): the sorted list is unique, so the algorithm does not matter. -/
def sortPairs (l : List Assoc) : List Assoc := l.insertionSort assocLe

/-- What the distribution answers: both destinations' memory, or which destination became FULL (R158). -/
inductive Distribution
  | done (m : Memory)
  | destFull (upper : Bool)
  deriving DecidableEq, Repr

/-- DISTRIBUTE(i) (R148, R154): the pairs from index i on, each into CA below the median index `mid` and into CB from it on. -/
def distribute (rounds : Nat) (ga gb : Buffer) (mid : Nat) : Nat → List Assoc → Memory → Distribution
  | _, [], m => .done m
  | i, p :: rest, m =>
    match insertCore (if i < mid then ga else gb) rounds m p with
    | .success m' => distribute rounds ga gb mid (i + 1) rest m'
    | .full _ _ => .destFull (decide (mid ≤ i))

/-- The part of SPLIT after the checks that precede every buffer access (R148): collection, sort, distribution, divider. -/
def splitCore (c ca cb : Nat) (s : State) : State :=
  let l := sortPairs (collect s c)
  if l.length = 0 then s.reject .splitEmpty
  else
    let mid := l.length / 2
    match distribute s.params.maxRounds (s.buffer ca) (s.buffer cb) mid 0 l s.mem with
    | .destFull upper => (s.unspecify [ca, cb]).raise .splitDestFull (if upper then 1 else 0)
    | .done m => ((s.setMem m).setDivider (l.getD mid default)).finish .success

/-- SPLIT (R148). -/
def execSplit (c ca cb : Nat) (s : State) : Host.Outcome State Fault Refusal :=
  .next <|
    if s.nctx ≤ c ∨ s.nctx ≤ ca ∨ s.nctx ≤ cb then s.raise .badCtx 0
    else if c = ca ∨ c = cb ∨ ca = cb then s.raise .badCtx 1
    else if !((s.ctx c).valid && (s.ctx ca).valid && (s.ctx cb).valid) then s.raise .unbound 0
    else if (s.ctx ca).mode = .full ∨ (s.ctx cb).mode = .full then s.raise .destState 0
    else if overlap (s.buffer c) (s.buffer ca) || overlap (s.buffer c) (s.buffer cb) || overlap (s.buffer ca) (s.buffer cb) then
      s.raise .overlap 0
    else splitCore c ca cb s

end Sys2Proof.Machine
end

