-- ==== Sys2Proof/Machine/Dispatch.lean ====
section
/-! DEFINITION. One arm per command, each one direct call of its meaning: the engine's completion step of a decoded command (R18). -/

namespace Sys2Proof.Machine

def exec (i : Instr) (s : State) : Host.Outcome State Fault Refusal :=
  match i with
  | .bind c => Sys2Proof.Machine.execBind c s
  | .unbind c => Sys2Proof.Machine.execUnbind c s
  | .insert c => Sys2Proof.Machine.execInsert c s
  | .lookup c => Sys2Proof.Machine.execLookup c s
  | .remove c => Sys2Proof.Machine.execRemove c s
  | .split c ca cb => Sys2Proof.Machine.execSplit c ca cb s

end Sys2Proof.Machine
end

