-- ==== Sys2Proof/Machine/Engine.lean ====
section
/-! DEFINITION. The engine's move: the completion of the running command in one step (R18, R40), or its stop after E_BUSY (R166). -/

namespace Sys2Proof.Machine

/-- While BUSY the engine decodes LCMD and runs the command to its end (R85, R88); an illegal word raises E_BAD_OP without touching any context or
buffer. BUSY with FAULT is a command abandoned by E_BUSY: the engine stops (R166). An idle engine does nothing (R178). -/
def engineStep (s : State) : Host.Outcome State Fault Refusal :=
  if s.busy then
    if s.fault then .next s.stopEngine
    else match decode s.lcmd with
    | .command i => exec i s
    | .illegal _ => .next (s.raise .badOp 0)
  else .next s

end Sys2Proof.Machine
end

