-- ==== Sys2Proof/Machine/HostAccess.lean ====
section
/-! DEFINITION. The host's moves: the register window, the buffer memory and the reset input (10_state section 2, 20_memory, 70_reset R185). -/

namespace Sys2Proof.Machine

/-- The rows of the register table (10_state section 2). -/
inductive RegName
  | cmd
  | key
  | val
  | base
  | status
  | err
  | rcount
  | divKey
  | divVal
  | cfg
  | res (i : Nat)
  | ctxBase (n : Nat)
  | ctxState (n : Nat)
  | ctxOvfKey (n : Nat)
  | ctxOvfVal (n : Nat)
  | unmapped
  deriving DecidableEq, Repr

/-- The register of context `n` at byte `at` of its four (10_state section 2). -/
def ctxRegAt (n byte : Nat) : RegName :=
  if byte = 0x00 then .ctxBase n
  else if byte = 0x08 then .ctxState n
  else if byte = 0x10 then .ctxOvfKey n
  else .ctxOvfVal n

/-- The register at an 8-byte aligned offset, for NCTX contexts; the gaps and the offsets of contexts at or above NCTX are unmapped (R24). -/
def regAt (nctx offset : Nat) : RegName :=
  if offset = 0x000 then .cmd
  else if offset = 0x008 then .key
  else if offset = 0x010 then .val
  else if offset = 0x018 then .base
  else if offset = 0x020 then .status
  else if offset = 0x028 then .err
  else if offset = 0x030 then .rcount
  else if offset = 0x038 then .divKey
  else if offset = 0x040 then .divVal
  else if offset = 0x048 then .cfg
  else if offset < 0x0A0 then .res ((offset - 0x050) / 8)
  else if offset < 0x100 then .unmapped
  else if (offset - 0x100) / 0x20 < nctx then ctxRegAt ((offset - 0x100) / 0x20) ((offset - 0x100) % 0x20)
  else .unmapped

/-- An access the block defines: one naturally aligned 64-bit access (R23). -/
def regAccessOk (offset size : Nat) : Bool := decide (size = 8 ∧ offset % 8 = 0)

namespace State

/-- A register whose read the spec leaves unspecified while BUSY (R35 (d)). -/
def whenIdle (s : State) (v : Reg) : Option Reg := if s.busy then none else some v

/-- What a read of a register returns; `none` where the spec leaves the value unspecified (R32, R35). -/
def regValue (s : State) : RegName → Option Reg
  | .cmd => some s.cmd
  | .key => some s.key
  | .val => some s.val
  | .base => some s.base
  | .status => some (if s.busy then busyStatus else s.statusImage)
  | .err => s.whenIdle s.errImage
  | .rcount => s.whenIdle s.rcountImage
  | .divKey => s.whenIdle s.divKey
  | .divVal => s.whenIdle (s.divVal.setWidth 64)
  | .cfg => some s.cfgImage
  | .res i => if s.busy then none else (s.results[i]?).map (fun v => v.setWidth 64)
  | .ctxBase n => s.whenIdle (s.ctx n).base
  | .ctxState n => s.whenIdle (s.ctx n).stateImage
  | .ctxOvfKey n => s.whenIdle (s.ctx n).ovfKey
  | .ctxOvfVal n => s.whenIdle ((s.ctx n).ovfVal.setWidth 64)
  | .unmapped => some 0

/-- A host read of a register: an unspecified value is drawn anew on every read (R32, R35 (d)). -/
def hostReadReg (s : State) (r : RegName) : State :=
  match s.regValue r with
  | some v => { s with readData := v }
  | none => { s.nextDraw with readData := Config.freeReg s.draws 0 }

/-- A host write of CMD (R85): stored always; while FAULT nothing issues (R169); while BUSY it raises E_BUSY and abandons the running command
(R166; log 11); else it issues. -/
def hostWriteCmd (s : State) (v : Reg) : State :=
  if s.fault then { s with cmd := v }
  else if s.busy then s.abandon v
  else s.issue v

/-- A host write of a register: KEY, VAL and BASE take the value, also while BUSY or faulted (R35 (a), R169); a write to a read-only register or to
an unmapped offset changes no state (R24). -/
def hostWriteReg (s : State) (r : RegName) (v : Reg) : State :=
  match r with
  | .cmd => s.hostWriteCmd v
  | .key => { s with key := v }
  | .val => { s with val := v }
  | .base => { s with base := v }
  | .status => s
  | .err => s
  | .rcount => s
  | .divKey => s
  | .divVal => s
  | .cfg => s
  | .res _ => s
  | .ctxBase _ => s
  | .ctxState _ => s
  | .ctxOvfKey _ => s
  | .ctxOvfVal _ => s
  | .unmapped => s

/-- A host access to the buffer word at `wa`: outside the port's words there is no memory (R60; log 14), and a word of a buffer that the running
command names is a race (R76 (c), R170). -/
def guardWord (s : State) (wa : Nat) (k : State) : Host.Outcome State Fault Refusal :=
  if 2 ^ s.params.addrW ≤ wa then .fault .noSuchAddress
  else if s.busy && s.namesWord wa then .fault .race
  else .next k

end State

/-- One access of the host (R185). -/
def hostStep (a : HostAccess) (s : State) : Host.Outcome State Fault Refusal :=
  match a with
  | .writeReg offset size v =>
    if regAccessOk offset size then .next (s.hostWriteReg (regAt s.nctx offset) v) else .refused .registerAccessShape
  | .readReg offset size =>
    if regAccessOk offset size then .next (s.hostReadReg (regAt s.nctx offset)) else .refused .registerAccessShape
  | .writeWord wa w => s.guardWord wa (s.setMem (s.mem.writeWord s.params.byteOrder wa w))
  | .readWord wa => s.guardWord wa { s with readData := (s.mem.readWord s.params.byteOrder wa).setWidth 64 }
  | .writeByte ba b => s.guardWord (ba / 4) (s.setMem (s.mem.put ba b))
  | .readByte ba => s.guardWord (ba / 4) { s with readData := (s.mem.byteAt ba).setWidth 64 }
  | .reset => .next s.hardReset

end Sys2Proof.Machine
end

