-- ==== Sys2Proof/Machine/Program.lean ====
section
/-! DEFINITION. The pseudo-instructions of a host program as lists of moves (30_encoding R96, R97). -/

namespace Sys2Proof.Machine

/-- `WR <reg>, <value>` at an offset (R96). -/
def writeMove (offset : Nat) (v : Reg) : Move := .host (.writeReg offset 8 v)

/-- `RD <reg>` at an offset (R96). -/
def readMove (offset : Nat) : Move := .host (.readReg offset 8)

/-- `WAIT` (R97): `polls` reads of STATUS that still find BUSY = 1, the engine's completion, and the read that finds BUSY = 0. -/
def waitMoves (polls : Nat) : List Move := List.replicate polls (readMove 0x020) ++ [.engine, readMove 0x020]

/-- `WR CMD` of a command, then `WAIT` (R97). -/
def commandMoves (i : Instr) (polls : Nat) : List Move := writeMove 0x000 (encode i) :: waitMoves polls

/-- `BIND.w c, base` (R97). -/
def bindW (c : Nat) (base : Reg) (polls : Nat) : List Move := writeMove 0x018 base :: commandMoves (.bind c) polls

/-- `UNBIND.w c` (R97). -/
def unbindW (c : Nat) (polls : Nat) : List Move := commandMoves (.unbind c) polls

/-- `INSERT.w c, key, val` (R97). -/
def insertW (c : Nat) (key val : Reg) (polls : Nat) : List Move :=
  writeMove 0x008 key :: writeMove 0x010 val :: commandMoves (.insert c) polls

/-- `LOOKUP.w c, key` (R97). -/
def lookupW (c : Nat) (key : Reg) (polls : Nat) : List Move := writeMove 0x008 key :: commandMoves (.lookup c) polls

/-- `REMOVE.w c, key, val` (R97). -/
def removeW (c : Nat) (key val : Reg) (polls : Nat) : List Move :=
  writeMove 0x008 key :: writeMove 0x010 val :: commandMoves (.remove c) polls

/-- `SPLIT.w c, ca, cb` (R97). -/
def splitW (c ca cb : Nat) (polls : Nat) : List Move := commandMoves (.split c ca cb) polls

end Sys2Proof.Machine
end

