-- ==== Sys2Proof/Machine/Step.lean ====
section
/-! DEFINITION. One step of the machine: the next move of the agenda (R17, R18; log 8). -/

namespace Sys2Proof.Machine

/-- The head of the agenda moves. With nothing listed the engine moves: it completes a running command (R192's fairness), and an idle machine
stays as it is. -/
def step (s : State) : Host.Outcome State Fault Refusal :=
  match s.agenda with
  | [] => engineStep s
  | .engine :: rest => engineStep { s with agenda := rest }
  | .host a :: rest => hostStep a { s with agenda := rest }

/-- `s` after the issue of the word with bits `w` (its bits from `nbits` on are 0), with the engine to move next: the next step decodes and runs
exactly that command. It stands for the host's CMD write to a block that is not faulted (R85; log 8). -/
def State.withFetchWord (s : State) (nbits w : Nat) : State :=
  { s.issue (BitVec.ofNat 64 (w % 2 ^ nbits)) with fault := false, agenda := .engine :: s.agenda }

end Sys2Proof.Machine
end

