-- ==== Sys2Proof/Safety.lean ====
section
/-! DEFINITION. What a safe run is, in the terms claims use: the end of a run (R193), the invariant of every reachable state, and when a step
does not stop. -/

namespace Sys2Proof.Machine

/-- A context the commands can rely on (R36, R39, R121): an unbound one is as after reset, a bound one has its buffer inside the port's word space,
and a NORMAL one holds no overflow association. -/
abbrev Ctx.sound (addrW : Nat) (x : Ctx) : Prop :=
  (x.valid = false → x = Ctx.unbound) ∧
  (x.valid = true → x.base.toNat + Config.bufWords ≤ 2 ^ addrW) ∧
  (x.mode = .normal → x.ovfKey = 0 ∧ x.ovfVal = 0)

/-- The memory is canonical and lists no address outside the port's 2^ADDR_W words (R60). -/
abbrev Memory.within (addrW : Nat) (m : Memory) : Prop := ∀ c ∈ m, c.1 < 4 * 2 ^ addrW

/-- The invariant of every state the machine can reach: legal parameters and NCTX (R7 to R9), a canonical memory inside the address space, at most
ten results (R32), BUSY with FAULT only after E_BUSY (R163, R166), RESULT = NONE while a command runs (R29), FAULT with RESULT = FAULTED
(R163), and sound contexts unless a fault has ended the command (it may leave contexts unspecified, R158, R166). -/
structure State.Inv (s : State) : Prop where
  params  : s.params.legal
  nctx    : 3 ≤ s.nctx ∧ s.nctx ≤ 16
  memWf   : s.mem.wf
  memIn   : s.mem.within s.params.addrW
  results : s.results.length ≤ 10
  stopping : s.busy = true → s.fault = true → s.errCode = .busy
  running : s.busy = true → s.fault = false → s.result = .none
  faulted : s.fault = true ↔ s.result = .faulted
  ctxs    : s.fault = false ∨ s.busy = true → ∀ x ∈ s.ctxs, x.sound s.params.addrW

/-- The end of a run of a host program (R193): no access left, BUSY = 0 and FAULT = 0. A recorded RACE is `Fault.race`, and no state. -/
abbrev State.runEnded (s : State) : Prop := s.agenda = [] ∧ s.busy = false ∧ s.fault = false

/-- A step that does not stop the machine. -/
def stepSafe (s : State) : Prop := ∃ t, step s = .next t

end Sys2Proof.Machine
end

