-- ==== Sys2Proof/Certificates/Slice0/Obligations.lean ====
section
/-! DEFINITION. The statements for the provers. The first part names the notions they use; each is written from the spec, not from the model's
meanings. -/

namespace Sys2Proof.Claims

open Sys2Proof.Machine

/-- What a normal end of the running command leaves (R162), with RCOUNT = 0. -/
def ended (s : State) (r : Result) : State :=
  { s with
    busy := false, result := r, errCode := .none, errInfo := 0, errCmd := s.lcmd.extractLsb' 0 32, results := [] }

/-- What a fault of the running command leaves (R163). -/
def faulted (s : State) (code : ErrCode) (info : BitVec 8) : State :=
  { s with
    busy := false, fault := true, result := .faulted
    errCode := code, errInfo := info, errCmd := s.lcmd.extractLsb' 0 32, results := [] }

/-- A slot is live when it is not the all-zero entry (R110). -/
def liveSlot (g : Buffer) (m : Memory) (t : Table) (b : BucketIx) (i : Nat) : Prop := readSlot g m t b i ≠ emptyEntry

/-- Every slot of a bucket is live. -/
def bucketFull (g : Buffer) (m : Memory) (t : Table) (b : BucketIx) : Prop := ∀ i < 5, liveSlot g m t b i

/-- No live slot of the buffer decodes to value 0: only a host write can make one (R151, U22). -/
def noZeroValues (g : Buffer) (m : Memory) : Prop :=
  ∀ t b, ∀ i < 5, liveSlot g m t b i → decVal (readSlot g m t b i) ≠ 0

/-- Every slot of the buffer is empty (R183 step 2). -/
def allEmpty (g : Buffer) (m : Memory) : Prop := ∀ t b, ∀ i < 5, readSlot g m t b i = emptyEntry

/-- No empty slot precedes a live slot of the bucket (R72). -/
def leftPacked (g : Buffer) (m : Memory) (t : Table) (b : BucketIx) : Prop :=
  ∀ j < 5, liveSlot g m t b j → ∀ i < j, liveSlot g m t b i

/-- The slots of a sub-table, as (bucket, slot) pairs. -/
@[irreducible] def slotsOfTable : List (BucketIx × Nat) :=
  (List.range 65536).flatMap fun b => (List.range 5).map fun i => (BitVec.ofNat 16 b, i)

/-- The live associations of a buffer, each slot one element (R133, R151). -/
def liveAssocs (g : Buffer) (m : Memory) : List Assoc :=
  [Table.t1, Table.t2].flatMap fun t => slotsOfTable.filterMap fun x =>
    if readSlot g m t x.1 x.2 = emptyEntry then none else some (decodeSlot t x.1 (readSlot g m t x.1 x.2))

/-- What SPLIT is to collect of context `c` (R149, R150): the overflow association of a FULL context, and every live slot, but under STOP_AT_EMPTY
only those with no empty slot before them in their bucket. -/
def collected (s : State) (c : Nat) : List Assoc :=
  (if (s.ctx c).mode = .full then [⟨(s.ctx c).ovfKey, (s.ctx c).ovfVal⟩] else []) ++
  [Table.t1, Table.t2].flatMap fun t => slotsOfTable.filterMap fun x =>
    if readSlot (s.buffer c) s.mem t x.1 x.2 = emptyEntry then none
    else if s.params.splitScan = .stopAtEmpty ∧ ∃ i < x.2, readSlot (s.buffer c) s.mem t x.1 i = emptyEntry then none
    else some (decodeSlot t x.1 (readSlot (s.buffer c) s.mem t x.1 x.2))

/-- In how many of the ten candidate slots the association is stored (R113, R135). -/
def copies (g : Buffer) (m : Memory) (p : Assoc) : Nat :=
  ([Table.t1, Table.t2].map fun t => (readBucket g m t (index t p.key)).count (enc t p)).sum

/-- The byte address `a` is one of the twelve bytes of a slot (R62). -/
def inSlot (g : Buffer) (t : Table) (b : BucketIx) (i a : Nat) : Prop :=
  4 * slotAddr g t b i 0 ≤ a ∧ a < 4 * slotAddr g t b i 0 + 12

/-- The byte address `a` is in the buffer (R61). -/
def inBuffer (g : Buffer) (a : Nat) : Prop := 4 * g.base ≤ a ∧ a < 4 * (g.base + 2097152)

/-- The byte address `a` is in the buffer of a bound context that `i` names (R61). -/
def inNamed (s : State) (i : Instr) (a : Nat) : Prop :=
  ∃ c ∈ State.namedBy i, c < s.nctx ∧ (s.ctx c).valid = true ∧ inBuffer (s.buffer c) a

/-- The byte address `a` is in a slot of the buffer of a bound context that `i` names: in its buffer, and not in a padding word (R61, R63). -/
def inNamedSlot (s : State) (i : Instr) (a : Nat) : Prop :=
  ∃ c ∈ State.namedBy i, c < s.nctx ∧ (s.ctx c).valid = true ∧ ∃ tb b, ∃ j < 5, inSlot (s.buffer c) tb b j a

/-- The engine moves next: it heads the agenda, or nothing is listed (log 8). -/
def engineNext (s : State) : Prop := s.agenda = [] ∨ ∃ rest, s.agenda = .engine :: rest

/-- The checks of INSERT pass (R125). -/
def insertReady (s : State) (c : Nat) : Prop :=
  c < s.nctx ∧ (s.ctx c).valid = true ∧ (s.ctx c).mode = .normal ∧ 1 ≤ s.lval.toNat ∧ s.lval.toNat < 2 ^ 48

/-- The checks of REMOVE pass (R140). -/
def removeReady (s : State) (c : Nat) : Prop :=
  c < s.nctx ∧ (s.ctx c).valid = true ∧ 1 ≤ s.lval.toNat ∧ s.lval.toNat < 2 ^ 48

/-- The distance of two buffers is below 2^21 (R148). -/
def overlapping (g h : Buffer) : Prop := g.base < h.base + 2097152 ∧ h.base < g.base + 2097152

/-- The checks of SPLIT before any buffer access pass (R148). -/
def splitReady (s : State) (c ca cb : Nat) : Prop :=
  (c < s.nctx ∧ ca < s.nctx ∧ cb < s.nctx) ∧ (c ≠ ca ∧ c ≠ cb ∧ ca ≠ cb) ∧
  ((s.ctx c).valid = true ∧ (s.ctx ca).valid = true ∧ (s.ctx cb).valid = true) ∧
  ((s.ctx ca).mode = .normal ∧ (s.ctx cb).mode = .normal) ∧
  (¬overlapping (s.buffer c) (s.buffer ca) ∧ ¬overlapping (s.buffer c) (s.buffer cb) ∧
    ¬overlapping (s.buffer ca) (s.buffer cb))

/-- One insertion of SPLIT's distribution into the memory the earlier ones left: pair number `x.2` goes into `ga` below the median index and into `gb`
from it on (R154); `none` when an insertion returned FULL. -/
def insertPair (rounds : Nat) (ga gb : Buffer) (mid : Nat) (m : Memory) (x : Assoc × Nat) : Option Memory :=
  match insertCore (if x.2 < mid then ga else gb) rounds m x.1 with
  | .success m' => some m'
  | .full _ _ => none

/-- Rows 4 to 11 of the priority table (R167), as (the check fails, code, info), in order. -/
def checkTable (s : State) (i : Instr) : List (Prop × ErrCode × BitVec 8) :=
  [ (∃ c ∈ State.namedBy i, s.nctx ≤ c, .badCtx, 0),
    (∃ c ca cb, i = .split c ca cb ∧ ¬(c ≠ ca ∧ c ≠ cb ∧ ca ≠ cb), .badCtx, 1),
    ((∀ c, i ≠ .bind c ∧ i ≠ .unbind c) ∧ ∃ c ∈ State.namedBy i, (s.ctx c).valid = false, .unbound, 0),
    ((∃ c, i = .bind c) ∧ 2 ^ s.params.addrW < s.lbase.toNat + 2097152, .badBase, 0),
    (∃ c, i = .insert c ∧ (s.ctx c).mode = .full, .insertFull, 0),
    ((∃ c, i = .insert c ∨ i = .remove c) ∧ (s.lval.toNat = 0 ∨ 2 ^ 48 ≤ s.lval.toNat), .badValue, 0),
    (∃ c ca cb, i = .split c ca cb ∧ ((s.ctx ca).mode = .full ∨ (s.ctx cb).mode = .full), .destState, 0),
    (∃ c ca cb, i = .split c ca cb ∧ (overlapping (s.buffer c) (s.buffer ca) ∨ overlapping (s.buffer c) (s.buffer cb) ∨
      overlapping (s.buffer ca) (s.buffer cb)), .overlap, 0) ]

/-- One displacement round (R128): slot 0 of the carried association's bucket takes it, and its occupant is carried on to the other table. -/
def roundOf (g : Buffer) (x : Memory × Table × Assoc) : Memory × Table × Assoc :=
  (writeSlot g x.1 x.2.1 (index x.2.1 x.2.2.key) 0 (enc x.2.1 x.2.2), if x.2.1 = .t1 then .t2 else .t1,
    decodeSlot x.2.1 (index x.2.1 x.2.2.key) (readSlot g x.1 x.2.1 (index x.2.1 x.2.2.key) 0))

/-- DISPLACE(n + 1, t, k, v) of an INSERT of `p` (R128): what is carried after n rounds. -/
def afterRounds (g : Buffer) (m : Memory) (p : Assoc) (n : Nat) : Memory × Table × Assoc := (roundOf g)^[n] (m, .t1, p)

/-- The slot 0 that the next round reads is live. -/
def nextSlotLive (g : Buffer) (x : Memory × Table × Assoc) : Prop := liveSlot g x.1 x.2.1 (index x.2.1 x.2.2.key) 0

/-- The number of a RESULT (R30). -/
def resultNumber : Result → Nat
  | .none => 0
  | .success => 1
  | .full => 2
  | .notFound => 3
  | .rejected => 4
  | .faulted => 5

/-- The number of an ERRCODE (R165). -/
def errNumber : ErrCode → Nat
  | .none => 0
  | .busy => 1
  | .badOp => 2
  | .badCtx => 3
  | .unbound => 4
  | .badBase => 5
  | .insertFull => 6
  | .badValue => 7
  | .destState => 8
  | .overlap => 9
  | .splitEmpty => 10
  | .splitDestFull => 11

/-- The number of a REMOVE_POLICY in CFG (R33). -/
def policyNumber : RemovePolicy → Nat
  | .swapLastContinue => 0
  | .swapLastRestart => 1
  | .shiftDown => 2

/-- The number of a SPLIT_SCAN in CFG (R33). -/
def scanNumber : SplitScan → Nat
  | .stopAtEmpty => 0
  | .allSlots => 1

end Sys2Proof.Claims

open Sys2Proof Sys2Proof.Machine Sys2Proof.Claims

/-! ### Command words and entries -/

/-- R89: the word of a well-formed command is OP + 16·C + 256·CA + 4096·CB and decodes to it, with every index at every value. -/
def Obligations.EncodedCommandDecodesToItself : Prop :=
  ∀ i : Instr, i.WellFormed →
    (encode i).toNat = i.op + 16 * i.fields.1 + 256 * i.fields.2.1 + 4096 * i.fields.2.2 ∧ decode (encode i) = .command i

/-- The other direction: a word that decodes to a command is that command's word, so each command has exactly one word. -/
def Obligations.DecodedWordIsTheCommandsWord : Prop :=
  ∀ (w : Reg) (i : Instr), decode w = .command i → i.WellFormed ∧ encode i = w

/-- R88: a word selects a command exactly when its masked bits are the row's match; its fields are bits [7:4], [11:8], [15:12]; an illegal word
raises E_BAD_OP and changes no context and no buffer. -/
def Obligations.WordSelectsCommandByMaskAndMatch : Prop :=
  ∀ w : Reg,
    ((∃ c, decode w = .command (.bind c)) ↔ w &&& 0xFFFFFFFFFFFFFF0F = 1) ∧
    ((∃ c, decode w = .command (.unbind c)) ↔ w &&& 0xFFFFFFFFFFFFFF0F = 2) ∧
    ((∃ c, decode w = .command (.insert c)) ↔ w &&& 0xFFFFFFFFFFFFFF0F = 3) ∧
    ((∃ c, decode w = .command (.lookup c)) ↔ w &&& 0xFFFFFFFFFFFFFF0F = 4) ∧
    ((∃ c, decode w = .command (.remove c)) ↔ w &&& 0xFFFFFFFFFFFFFF0F = 5) ∧
    ((∃ c ca cb, decode w = .command (.split c ca cb)) ↔ w &&& 0xFFFFFFFFFFFF000F = 6) ∧
    (∀ i, decode w = .command i →
      i.fields = (w.toNat / 16 % 16, w.toNat / 256 % 16, w.toNat / 4096 % 16)) ∧
    (∀ r, decode w = .illegal r → ∀ s : State, s.busy = true → s.fault = false → s.lcmd = w →
      engineStep s = .next (faulted s .badOp 0))

/-- R91: the illegal words are those of OP 0x0 and 0x7..0xF and those with a nonzero must-be-0 field. -/
def Obligations.IllegalWordsAreTheReservedOnes : Prop :=
  ∀ w : Reg, (∃ r, decode w = .illegal r) ↔
    w.toNat % 16 = 0 ∨ 7 ≤ w.toNat % 16 ∨ (w.toNat % 16 ≠ 6 ∧ 256 ≤ w.toNat) ∨ 65536 ≤ w.toNat

/-- Words of the spec's test vectors decode as the spec says (95_test_vectors, CTX, FLT and SPL). -/
def Obligations.SpecWordsDecodeAsWritten : Prop :=
  decode 0x11 = .command (.bind 1) ∧ decode 0x12 = .command (.unbind 1) ∧ decode 0x43 = .command (.insert 4) ∧
  decode 0x04 = .command (.lookup 0) ∧ decode 0x05 = .command (.remove 0) ∧ decode 0x2106 = .command (.split 0 1 2) ∧
  decode 0x0 = .illegal .reservedOp ∧ decode 0x7 = .illegal .reservedOp ∧ decode 0x103 = .illegal .mustBeZero ∧
  decode 0x10006 = .illegal .mustBeZero

/-- R112: encoding then decoding gives the pair back, decoding then encoding gives the entry back, the decoded key has the bucket as its index, and Z
decodes to the pair of R108's corner case. -/
def Obligations.EntryCodecIsABijection : Prop :=
  (∀ t p, decKey t (index t p.key) (enc t p) = p.key ∧ decVal (enc t p) = p.val) ∧
  (∀ t b e, index t (decKey t b e) = b ∧ enc t ⟨decKey t b e, decVal e⟩ = e) ∧
  (∀ b : BucketIx, (decKey .t1 b emptyEntry).toNat = b.toNat ∧ (decKey .t2 b emptyEntry).toNat = b.toNat * 65536 ∧
    decVal emptyEntry = 0)

/-- R92 and R93: where the bits of key and value lie in the two tables' entries, as arithmetic on the words' numbers. -/
def Obligations.EntryFieldsLieAsTheFormatsSay : Prop :=
  ∀ p : Assoc,
    (index .t1 p.key).toNat = p.key.toNat % 65536 ∧ (index .t2 p.key).toNat = p.key.toNat / 65536 % 65536 ∧
    (∀ t, (enc t p).w0.toNat = p.key.toNat / 2 ^ 32 ∧ (enc t p).w2.toNat = p.val.toNat % 2 ^ 32 ∧
      (enc t p).w1.toNat % 65536 = p.val.toNat / 2 ^ 32) ∧
    (enc .t1 p).w1.toNat / 65536 = p.key.toNat / 65536 % 65536 ∧ (enc .t2 p).w1.toNat / 65536 = p.key.toNat % 65536

/-- R111: the entry of a nonzero value is never Z, in either table. -/
def Obligations.EntryOfNonzeroValueIsLive : Prop :=
  ∀ t (p : Assoc), p.val ≠ 0 → enc t p ≠ emptyEntry

/-- R113: a slot of the key's own bucket decodes to (k, v) exactly when it is the encoded entry; so LOOKUP and REMOVE agree on what holds (k, v). -/
def Obligations.SlotDecodesToPairExactlyWhenEncoded : Prop :=
  ∀ t (p : Assoc) e, (decKey t (index t p.key) e = p.key ∧ decVal e = p.val) ↔ e = enc t p

/-- R114: the two tables' entries differ only in word1[31:16], and are equal exactly when the key's two low halves are. -/
def Obligations.TableEntriesDifferOnlyInTheOtherHalf : Prop :=
  ∀ p : Assoc,
    (enc .t1 p).w0 = (enc .t2 p).w0 ∧ (enc .t1 p).w2 = (enc .t2 p).w2 ∧
    (enc .t1 p).w1.toNat % 65536 = (enc .t2 p).w1.toNat % 65536 ∧
    (enc .t1 p = enc .t2 p ↔ p.key.toNat / 65536 % 65536 = p.key.toNat % 65536)

/-! ### Memory -/

/-- R62 and R63: the slot words of a buffer are pairwise different, lie inside it, and none is the padding word (bucket word 15). -/
def Obligations.SlotWordsAreDistinctAndMissThePadding : Prop :=
  ∀ (g : Buffer) (t t' : Table) (b b' : BucketIx) (i i' j j' : Nat), i < 5 → i' < 5 → j < 3 → j' < 3 →
    (slotAddr g t b i j = slotAddr g t' b' i' j' → t = t' ∧ b = b' ∧ i = i' ∧ j = j') ∧
    inBuffer g (4 * slotAddr g t b i j) ∧ (slotAddr g t b i j - g.base) % 16 ≠ 15

/-- R121: for a bound context of a machine that has not faulted, every slot address is a valid ADDR_W-bit word address. -/
def Obligations.BoundSlotAddressesStayInThePort : Prop :=
  ∀ (s : State) (c : Nat) (t : Table) (b : BucketIx) (i j : Nat), s.Inv → s.fault = false → (s.ctx c).valid = true →
    i < 5 → j < 3 → slotAddr (s.buffer c) t b i j < 2 ^ s.params.addrW

/-- R65 and R185, with log 1's byte addresses: while idle, and while BUSY for a word the running command does not name, a host write of a word stores its
four bytes by the platform's byte order, a host write of a byte stores that byte; no other byte changes; word and bytes read back. -/
def Obligations.HostWordHasTheBytesOfTheByteOrder : Prop :=
  ∀ (s : State) (wa : Nat), wa < 2 ^ s.params.addrW →
    (s.busy = true → ∀ i, decode s.lcmd = .command i → ¬inNamed s i (4 * wa)) →
    (∀ w : Word, ∃ t, hostStep (.writeWord wa w) s = .next t ∧ t = { s with mem := t.mem } ∧
      (∀ j < 4, (t.mem.byteAt (4 * wa + j)).toNat =
        w.toNat / 2 ^ (8 * (if s.params.byteOrder = .little then j else 3 - j)) % 256) ∧
      (∀ a, a / 4 ≠ wa → t.mem.byteAt a = s.mem.byteAt a) ∧
      hostStep (.readWord wa) t = .next { t with readData := w.setWidth 64 } ∧
      (∀ j < 4, hostStep (.readByte (4 * wa + j)) t = .next { t with readData := (t.mem.byteAt (4 * wa + j)).setWidth 64 })) ∧
    (∀ (j : Nat) (b : Byte), j < 4 → ∃ t, hostStep (.writeByte (4 * wa + j) b) s = .next t ∧ t = { s with mem := t.mem } ∧
      (∀ a, t.mem.byteAt a = if a = 4 * wa + j then b else s.mem.byteAt a) ∧
      hostStep (.readByte (4 * wa + j)) t = .next { t with readData := b.setWidth 64 })

/-- R61: a command writes no byte outside the buffers of the contexts it names, and reads none: two runs whose memories agree inside those buffers
end alike, but for the bytes outside, which each keeps. -/
def Obligations.CommandsAccessOnlyNamedBuffers : Prop :=
  ∀ (i : Instr) (s t : State), exec i s = .next t →
    (∀ a, ¬inNamed s i a → t.mem.byteAt a = s.mem.byteAt a) ∧
    ∀ m : Memory, (∀ a, inNamed s i a → m.byteAt a = s.mem.byteAt a) →
      ∃ u, exec i { s with mem := m } = .next u ∧ u = { t with mem := u.mem } ∧
        ∀ a, inNamed s i a → u.mem.byteAt a = t.mem.byteAt a

/-- R63: whatever its outcome, a command changes no padding word of a buffer it names. That this holds of a destination after E_SPLIT_DEST_FULL too,
where R158 leaves its buffer unspecified, is the model's reading (log 12). -/
def Obligations.PaddingWordsSurviveCommands : Prop :=
  ∀ (i : Instr) (s t : State) (c : Nat) (tb : Table) (b : BucketIx), exec i s = .next t →
    c ∈ State.namedBy i → (s.ctx c).valid = true →
    t.mem.readWord s.params.byteOrder ((s.buffer c).base + tableOffset tb + 16 * b.toNat + 15) =
      s.mem.readWord s.params.byteOrder ((s.buffer c).base + tableOffset tb + 16 * b.toNat + 15)

/-! ### Checks -/

/-- R167, rows 4 to 11, with R168: the first failing check is the one reported, and the fault changes only STATUS, ERR and RCOUNT; with none failing the
command ends without a fault, but for SPLIT's E_SPLIT_DEST_FULL. -/
def Obligations.FirstFailingCheckIsReported : Prop :=
  ∀ (i : Instr) (s : State),
    (∀ (n : Nat) (row : Prop × ErrCode × BitVec 8), (checkTable s i)[n]? = some row → row.1 →
      (∀ k < n, ∀ r : Prop × ErrCode × BitVec 8, (checkTable s i)[k]? = some r → ¬r.1) →
      exec i s = .next (faulted s row.2.1 row.2.2)) ∧
    ((∀ row ∈ checkTable s i, ¬row.1) →
      ∃ t, exec i s = .next t ∧ (t.errCode = .none ∨ t.errCode = .splitEmpty ∨ t.errCode = .splitDestFull))

/-- R124: every command but BIND and UNBIND faults with E_UNBOUND when a context it names is not VALID (the earlier checks passing), before any
buffer access; BIND and UNBIND never do. -/
def Obligations.UnboundContextFaultsBeforeAccess : Prop :=
  ∀ (i : Instr) (s : State),
    ((∀ c, i ≠ .bind c ∧ i ≠ .unbind c) → (∀ c ∈ State.namedBy i, c < s.nctx) → (State.namedBy i).Nodup →
      (∃ c ∈ State.namedBy i, (s.ctx c).valid = false) → exec i s = .next (faulted s .unbound 0)) ∧
    (∀ c t, (i = .bind c ∨ i = .unbind c) → exec i s = .next t → t.errCode ≠ .unbound)

/-! ### BIND and UNBIND -/

/-- R120: BIND in each of its cases; on success the context is a new NORMAL instance over BASE, whatever it was, and nothing else changes but the
command's end. -/
def Obligations.BindStartsANormalInstance : Prop :=
  ∀ (s : State) (c : Nat),
    (s.nctx ≤ c → exec (.bind c) s = .next (faulted s .badCtx 0)) ∧
    (c < s.nctx → 2 ^ s.params.addrW < s.lbase.toNat + 2097152 → exec (.bind c) s = .next (faulted s .badBase 0)) ∧
    (c < s.nctx → s.params.legal → s.lbase.toNat + 2097152 ≤ 2 ^ s.params.addrW →
      exec (.bind c) s = .next { ended s .success with
        ctxs := s.ctxs.set c { valid := true, base := s.lbase, mode := .normal, ovfKey := 0, ovfVal := 0 } })

/-- R123: UNBIND in each of its cases; legal on a context that is not VALID. -/
def Obligations.UnbindClearsTheContext : Prop :=
  ∀ (s : State) (c : Nat),
    (s.nctx ≤ c → exec (.unbind c) s = .next (faulted s .badCtx 0)) ∧
    (c < s.nctx → exec (.unbind c) s = .next { ended s .success with
        ctxs := s.ctxs.set c { valid := false, base := 0, mode := .normal, ovfKey := 0, ovfVal := 0 } })

/-! ### INSERT -/

/-- R127: direct placement, table 1 before table 2, first empty slot; every byte but the slot's twelve is kept. -/
def Obligations.InsertPlacesInTheFirstEmptySlot : Prop :=
  ∀ (s : State) (c : Nat) (t : Table) (i : Nat), insertReady s c → i < 5 →
    (t = .t2 → bucketFull (s.buffer c) s.mem .t1 (index .t1 s.lkey)) →
    (∀ j < i, liveSlot (s.buffer c) s.mem t (index t s.lkey) j) →
    readSlot (s.buffer c) s.mem t (index t s.lkey) i = emptyEntry →
    ∃ u, exec (.insert c) s = .next u ∧ u = { ended s .success with mem := u.mem } ∧
      readSlot (s.buffer c) u.mem t (index t s.lkey) i = enc t ⟨s.lkey, s.lval.setWidth 48⟩ ∧
      ∀ a, ¬inSlot (s.buffer c) t (index t s.lkey) i a → u.mem.byteAt a = s.mem.byteAt a

/-- R128 to R130: with both buckets full the rounds run from table 1; the first round that reads an empty slot 0 ends with SUCCESS, and never round 1;
MAX_ROUNDS rounds without one leave the context FULL with the association the last round displaced. Every byte outside the slots 0 of the rounds run is
kept. -/
def Obligations.InsertDisplacesRoundByRound : Prop :=
  ∀ (s : State) (c : Nat), insertReady s c →
    bucketFull (s.buffer c) s.mem .t1 (index .t1 s.lkey) → bucketFull (s.buffer c) s.mem .t2 (index .t2 s.lkey) →
    let x := afterRounds (s.buffer c) s.mem ⟨s.lkey, s.lval.setWidth 48⟩
    nextSlotLive (s.buffer c) (x 0) ∧
    (∀ r < s.params.maxRounds, (∀ q < r, nextSlotLive (s.buffer c) (x q)) → ¬nextSlotLive (s.buffer c) (x r) →
      exec (.insert c) s = .next { ended s .success with mem := (x (r + 1)).1 }) ∧
    ((∀ q < s.params.maxRounds, nextSlotLive (s.buffer c) (x q)) →
      exec (.insert c) s = .next { ended s .full with
        mem := (x s.params.maxRounds).1
        ctxs := s.ctxs.set c { s.ctx c with
          mode := .full, ovfKey := (x s.params.maxRounds).2.2.key, ovfVal := (x s.params.maxRounds).2.2.val } }) ∧
    (∀ n a, (∀ q < n, ¬inSlot (s.buffer c) (x q).2.1 (index (x q).2.1 (x q).2.2.key) 0 a) →
      (x n).1.byteAt a = s.mem.byteAt a)

/-- R131 with R125, R39: what INSERT leaves unchanged, in every form: registers, latch, divider, other contexts, the context's VALID and BASE, its mode
and overflow unless FULL, and all of memory unless SUCCESS or FULL. -/
def Obligations.InsertFrame : Prop :=
  ∀ (s t : State) (c : Nat), exec (.insert c) s = .next t →
    t = { s with
      busy := false, fault := t.fault, result := t.result, errCode := t.errCode, errInfo := t.errInfo
      errCmd := s.lcmd.extractLsb' 0 32, results := [], ctxs := t.ctxs, mem := t.mem } ∧
    (∀ d, d ≠ c → t.ctx d = s.ctx d) ∧ (t.ctx c).valid = (s.ctx c).valid ∧ (t.ctx c).base = (s.ctx c).base ∧
    (t.result ≠ .full → t.ctxs = s.ctxs) ∧ (t.result ≠ .success → t.result ≠ .full → t.mem = s.mem) ∧
    (t.result = .success ∨ t.result = .full → t.fault = s.fault ∧ t.errCode = .none ∧ t.errInfo = 0)

/-- R133: an INSERT drops no association: on SUCCESS the buffer holds those it held and the new one; on FULL the same but for the overflow association,
which is one of them. Stated for buffers without zero-valued live slots, and INSERT makes none. -/
def Obligations.InsertConservesAssociations : Prop :=
  ∀ (s t : State) (c : Nat), insertReady s c → noZeroValues (s.buffer c) s.mem → exec (.insert c) s = .next t →
    noZeroValues (s.buffer c) t.mem ∧
    ((t.result = .success ∧
        (liveAssocs (s.buffer c) t.mem).Perm (⟨s.lkey, s.lval.setWidth 48⟩ :: liveAssocs (s.buffer c) s.mem)) ∨
      (t.result = .full ∧
        (⟨(t.ctx c).ovfKey, (t.ctx c).ovfVal⟩ :: liveAssocs (s.buffer c) t.mem).Perm
          (⟨s.lkey, s.lval.setWidth 48⟩ :: liveAssocs (s.buffer c) s.mem)))

/-- R139: an INSERT that returns SUCCESS removes no association from its candidate buckets, and its own is there. -/
def Obligations.SuccessfulInsertKeepsAllFindable : Prop :=
  ∀ (s t : State) (c : Nat), insertReady s c → exec (.insert c) s = .next t → t.result = .success →
    0 < copies (s.buffer c) t.mem ⟨s.lkey, s.lval.setWidth 48⟩ ∧
    ∀ p : Assoc, p.val ≠ 0 → 0 < copies (s.buffer c) s.mem p → 0 < copies (s.buffer c) t.mem p

/-- R161's ping-pong: when the ten candidate slots hold nonzero values of keys with the same low 32 bits, INSERT returns FULL. -/
def Obligations.EleventhCollidingKeyIsFull : Prop :=
  ∀ (s : State) (c : Nat), insertReady s c →
    (∀ t, ∀ i < 5, decVal (readSlot (s.buffer c) s.mem t (index t s.lkey) i) ≠ 0 ∧
      (decKey t (index t s.lkey) (readSlot (s.buffer c) s.mem t (index t s.lkey) i)).toNat % 2 ^ 32 = s.lkey.toNat % 2 ^ 32) →
    ∃ t, exec (.insert c) s = .next t ∧ t.result = .full ∧ (t.ctx c).mode = .full

/-- R72: INSERT and a REMOVE under SHIFT_DOWN keep every bucket of the buffer left-packed (no zero-valued live slots, U22). -/
def Obligations.LeftPackingSurvives : Prop :=
  ∀ (s t : State) (c : Nat) (i : Instr),
    (i = .insert c ∧ noZeroValues (s.buffer c) s.mem) ∨ (i = .remove c ∧ s.params.removePolicy = .shiftDown) →
    exec i s = .next t → (∀ tb b, leftPacked (s.buffer c) s.mem tb b) → ∀ tb b, leftPacked (s.buffer c) t.mem tb b

/-! ### LOOKUP -/

/-- R135, R137, R138: LOOKUP returns each value as often as its association is stored in the ten candidate slots, never 0, at most ten, in an order
nothing fixes; it succeeds exactly when there is one; it changes no context, no memory and no other register. -/
def Obligations.LookupReturnsEveryStoredValue : Prop :=
  ∀ (s : State) (c : Nat), c < s.nctx → (s.ctx c).valid = true →
    ∃ t, exec (.lookup c) s = .next t ∧
      t = { ended s (if t.results = [] then .notFound else .success) with results := t.results, draws := t.draws } ∧
      (∀ v, v ≠ 0 → t.results.count v = copies (s.buffer c) s.mem ⟨s.lkey, v⟩) ∧ 0 ∉ t.results ∧ t.results.length ≤ 10

/-! ### REMOVE -/

/-- R144: under SHIFT_DOWN each candidate bucket ends as the slots other than the entry, in order, then Z. -/
def Obligations.ShiftDownRemovesInOrder : Prop :=
  ∀ (s : State) (c : Nat), removeReady s c → s.params.removePolicy = .shiftDown →
    ∃ u, exec (.remove c) s = .next u ∧
      u = { ended s (if copies (s.buffer c) s.mem ⟨s.lkey, s.lval.setWidth 48⟩ = 0 then .notFound else .success) with mem := u.mem } ∧
      ∀ t, readBucket (s.buffer c) u.mem t (index t s.lkey) =
        (readBucket (s.buffer c) s.mem t (index t s.lkey)).filter (fun e => e ≠ enc t ⟨s.lkey, s.lval.setWidth 48⟩) ++
          List.replicate ((readBucket (s.buffer c) s.mem t (index t s.lkey)).count (enc t ⟨s.lkey, s.lval.setWidth 48⟩)) emptyEntry

/-- R143: under SWAP_LAST_RESTART no copy is left and every other live entry of the bucket stays, as often as before. -/
def Obligations.RestartRemovesEveryCopy : Prop :=
  ∀ (s : State) (c : Nat), removeReady s c → s.params.removePolicy = .swapLastRestart →
    ∃ u, exec (.remove c) s = .next u ∧
      u = { ended s (if copies (s.buffer c) s.mem ⟨s.lkey, s.lval.setWidth 48⟩ = 0 then .notFound else .success) with mem := u.mem } ∧
      ∀ t, enc t ⟨s.lkey, s.lval.setWidth 48⟩ ∉ readBucket (s.buffer c) u.mem t (index t s.lkey) ∧
        ∀ e, e ≠ enc t ⟨s.lkey, s.lval.setWidth 48⟩ → e ≠ emptyEntry →
          (readBucket (s.buffer c) u.mem t (index t s.lkey)).count e = (readBucket (s.buffer c) s.mem t (index t s.lkey)).count e

/-- R142: under SWAP_LAST_CONTINUE every copy goes, but for one at the first copy's slot when slot 4 holds a copy and there are two or more; every other
live entry of the bucket stays, as often as before. -/
def Obligations.ContinueLeavesAtMostOneCopy : Prop :=
  ∀ (s : State) (c : Nat), removeReady s c → s.params.removePolicy = .swapLastContinue →
    ∃ u, exec (.remove c) s = .next u ∧
      u = { ended s (if copies (s.buffer c) s.mem ⟨s.lkey, s.lval.setWidth 48⟩ = 0 then .notFound else .success) with mem := u.mem } ∧
      ∀ t, let e := enc t ⟨s.lkey, s.lval.setWidth 48⟩
        let was := fun j => readSlot (s.buffer c) s.mem t (index t s.lkey) j
        let now := fun j => readSlot (s.buffer c) u.mem t (index t s.lkey) j
        (was 4 ≠ e → ∀ j < 5, now j ≠ e) ∧
        (was 4 = e → (∀ i < 4, was i ≠ e) → ∀ j < 5, now j ≠ e) ∧
        (was 4 = e → ∀ i < 4, was i = e → (∀ k < i, was k ≠ e) → ∀ j < 5, now j = e ↔ j = i) ∧
        ∀ x, x ≠ e → x ≠ emptyEntry →
          (readBucket (s.buffer c) u.mem t (index t s.lkey)).count x = (readBucket (s.buffer c) s.mem t (index t s.lkey)).count x

/-- R145 and R146 (d): what REMOVE leaves unchanged, in every form and under every policy: every context, every register but the command's end, and every
byte outside the slots of the two candidate buckets; all of memory unless SUCCESS. -/
def Obligations.RemoveFrame : Prop :=
  ∀ (s t : State) (c : Nat), exec (.remove c) s = .next t →
    t = { s with
      busy := false, fault := t.fault, result := t.result, errCode := t.errCode, errInfo := t.errInfo
      errCmd := s.lcmd.extractLsb' 0 32, results := [], mem := t.mem } ∧
    (∀ a, (∀ tb, ∀ i < 5, ¬inSlot (s.buffer c) tb (index tb s.lkey) i a) → t.mem.byteAt a = s.mem.byteAt a) ∧
    (t.result ≠ .success → t.mem = s.mem)

/-- R147: after a REMOVE that ends with SUCCESS the association is in no candidate slot, if no candidate bucket held it twice, and under SWAP_LAST_RESTART
and SHIFT_DOWN in any case. -/
def Obligations.RemovedAssociationIsNotFound : Prop :=
  ∀ (s t : State) (c : Nat), removeReady s c → exec (.remove c) s = .next t → t.result = .success →
    (s.params.removePolicy ≠ .swapLastContinue ∨
      ∀ tb, (readBucket (s.buffer c) s.mem tb (index tb s.lkey)).count (enc tb ⟨s.lkey, s.lval.setWidth 48⟩) ≤ 1) →
    copies (s.buffer c) t.mem ⟨s.lkey, s.lval.setWidth 48⟩ = 0

/-! ### SPLIT -/

/-- R149 to R151: the collection is what R149 describes, up to order. -/
def Obligations.CollectionTakesWhatTheScanReads : Prop :=
  ∀ (s : State) (c : Nat), (collect s c).Perm (collected s c)

/-- R160: at most 655361 pairs are collected. -/
def Obligations.CollectionIsBounded : Prop :=
  ∀ (s : State) (c : Nat), (collect s c).length ≤ 655361

/-- R157: an empty collection ends SPLIT with REJECTED and E_SPLIT_EMPTY; no destination word, context field or divider is written and FAULT is kept. -/
def Obligations.SplitOfNothingIsRejected : Prop :=
  ∀ (s : State) (c ca cb : Nat), splitReady s c ca cb → collected s c = [] →
    exec (.split c ca cb) s = .next { ended s .rejected with errCode := .splitEmpty }

/-- R152, R153: a SPLIT that ends with SUCCESS leaves the pair at index N / 2 of the ascending collection in DIV_KEY and DIV_VAL. -/
def Obligations.SplitDividesAtTheMedian : Prop :=
  ∀ (s t : State) (c ca cb : Nat), splitReady s c ca cb → exec (.split c ca cb) s = .next t → t.result = .success →
    ∃ l : List Assoc, l.Perm (collected s c) ∧
      l.Pairwise (fun p q => p.key.toNat < q.key.toNat ∨ (p.key.toNat = q.key.toNat ∧ p.val.toNat ≤ q.val.toNat)) ∧
      l[l.length / 2]? = some ⟨t.divKey, t.divVal⟩ ∧
      t = { ended s .success with mem := t.mem, divKey := t.divKey, divVal := t.divVal }

/-- R159: with empty destinations and no zero values, CA ends with exactly the lower half and CB with the upper half of the ascending collection; nothing in
CA is above the divider and it holds the divider only if the collection has it twice; nothing in CB is below; both contexts are as before, NORMAL; and the
collection is every live association when the scan is ALL_SLOTS or the source's buckets are left-packed. -/
def Obligations.SplitDistributesTheHalves : Prop :=
  ∀ (s t : State) (c ca cb : Nat), splitReady s c ca cb →
    allEmpty (s.buffer ca) s.mem → allEmpty (s.buffer cb) s.mem → (∀ p ∈ collected s c, p.val ≠ 0) →
    exec (.split c ca cb) s = .next t → t.result = .success →
    (∃ l : List Assoc, l.Perm (collected s c) ∧ l.Pairwise assocLe ∧ l[l.length / 2]? = some ⟨t.divKey, t.divVal⟩ ∧
      (liveAssocs (s.buffer ca) t.mem).Perm (l.take (l.length / 2)) ∧
      (liveAssocs (s.buffer cb) t.mem).Perm (l.drop (l.length / 2)) ∧
      (⟨t.divKey, t.divVal⟩ ∈ liveAssocs (s.buffer ca) t.mem → 2 ≤ l.count ⟨t.divKey, t.divVal⟩)) ∧
    (∀ p ∈ liveAssocs (s.buffer ca) t.mem, assocLe p ⟨t.divKey, t.divVal⟩) ∧
    (∀ p ∈ liveAssocs (s.buffer cb) t.mem, assocLe ⟨t.divKey, t.divVal⟩ p) ∧
    (liveAssocs (s.buffer ca) t.mem).length + (liveAssocs (s.buffer cb) t.mem).length = (collected s c).length ∧
    (t.ctx ca).mode = .normal ∧ (t.ctx cb).mode = .normal ∧
    (s.params.splitScan = .allSlots ∨ (∀ tb b, leftPacked (s.buffer c) s.mem tb b) →
      (collected s c).length = (liveAssocs (s.buffer c) s.mem).length + (if (s.ctx c).mode = .full then 1 else 0))

/-- SPLIT completes: with empty destinations and, in each half of the ascending collection, at most five pairs for any table-1 bucket, every insertion is a
direct placement and SPLIT ends with SUCCESS. -/
def Obligations.SplitCompletesOnEmptyDestinations : Prop :=
  ∀ (s : State) (c ca cb : Nat) (l : List Assoc), splitReady s c ca cb →
    allEmpty (s.buffer ca) s.mem → allEmpty (s.buffer cb) s.mem → l.Perm (collected s c) → l.Pairwise assocLe → l ≠ [] →
    (∀ b, (l.take (l.length / 2)).countP (fun p => index .t1 p.key = b) ≤ 5) →
    (∀ b, (l.drop (l.length / 2)).countP (fun p => index .t1 p.key = b) ≤ 5) →
    ∃ t p, exec (.split c ca cb) s = .next t ∧ l[l.length / 2]? = some p ∧
      t = { ended s .success with mem := t.mem, divKey := p.key, divVal := p.val }

/-- R158: when SPLIT reports E_SPLIT_DEST_FULL, an insertion of the distribution returned FULL after the ones before it succeeded, and info is 0 if it
went into CA and 1 if into CB; the divider is not written, and every context and every byte but those of the two destinations is as before: the source
is unchanged. -/
def Obligations.SplitDestinationFullFaults : Prop :=
  ∀ (s t : State) (c ca cb : Nat), splitReady s c ca cb → exec (.split c ca cb) s = .next t → t.errCode = .splitDestFull →
    t = { faulted s .splitDestFull t.errInfo with ctxs := t.ctxs, mem := t.mem, draws := t.draws } ∧
    (∃ (l : List Assoc) (n : Nat) (p : Assoc) (m : Memory), l.Perm (collected s c) ∧ l.Pairwise assocLe ∧ l[n]? = some p ∧
      (l.take n).zipIdx.foldlM (insertPair s.params.maxRounds (s.buffer ca) (s.buffer cb) (l.length / 2)) s.mem = some m ∧
      insertPair s.params.maxRounds (s.buffer ca) (s.buffer cb) (l.length / 2) m (p, n) = none ∧
      t.errInfo = if n < l.length / 2 then 0 else 1) ∧
    t.nctx = s.nctx ∧ (∀ d, d ≠ ca → d ≠ cb → t.ctx d = s.ctx d) ∧
    (∀ a, ¬inBuffer (s.buffer ca) a → ¬inBuffer (s.buffer cb) a → t.mem.byteAt a = s.mem.byteAt a)

/-- R161: eleven pairs with the same key[31:0] in one half overfill its destination even though it started empty: in the lower half SPLIT faults with
info 0, in the upper half with info 1 when the lower half fits its first candidate buckets. -/
def Obligations.ElevenCollidingPairsOverfillADestination : Prop :=
  ∀ (s : State) (c ca cb : Nat) (l : List Assoc) (k : Nat), splitReady s c ca cb → allEmpty (s.buffer ca) s.mem →
    l.Perm (collected s c) → l.Pairwise assocLe → (∀ p ∈ l, p.val ≠ 0) →
    (11 ≤ (l.take (l.length / 2)).countP (fun p => p.key.toNat % 2 ^ 32 = k) →
      ∃ t, exec (.split c ca cb) s = .next t ∧ t.fault = true ∧ t.errCode = .splitDestFull ∧ t.errInfo = 0) ∧
    (11 ≤ (l.drop (l.length / 2)).countP (fun p => p.key.toNat % 2 ^ 32 = k) → allEmpty (s.buffer cb) s.mem →
      (∀ b, (l.take (l.length / 2)).countP (fun p => index .t1 p.key = b) ≤ 5) →
      ∃ t, exec (.split c ca cb) s = .next t ∧ t.fault = true ∧ t.errCode = .splitDestFull ∧ t.errInfo = 1)

/-- R156: SPLIT writes no field of the source context and no byte of its buffer, whatever the outcome. -/
def Obligations.SplitLeavesTheSourceUnmodified : Prop :=
  ∀ (s t : State) (c ca cb : Nat), exec (.split c ca cb) s = .next t →
    t.ctx c = s.ctx c ∧ ((s.ctx c).valid = true → ∀ a, inBuffer (s.buffer c) a → t.mem.byteAt a = s.mem.byteAt a)

/-- What SPLIT leaves unchanged, in every form: registers and latch; the divider unless SUCCESS (R34); every context unless E_SPLIT_DEST_FULL; all of
memory unless SUCCESS or E_SPLIT_DEST_FULL, and then every byte outside the two destination buffers. -/
def Obligations.SplitFrame : Prop :=
  ∀ (s t : State) (c ca cb : Nat), exec (.split c ca cb) s = .next t →
    t = { s with
      busy := false, fault := t.fault, result := t.result, errCode := t.errCode, errInfo := t.errInfo
      errCmd := s.lcmd.extractLsb' 0 32, results := [], divKey := t.divKey, divVal := t.divVal
      ctxs := t.ctxs, mem := t.mem, draws := t.draws } ∧
    (t.result ≠ .success → t.divKey = s.divKey ∧ t.divVal = s.divVal) ∧
    (t.errCode ≠ .splitDestFull → t.ctxs = s.ctxs ∧ t.draws = s.draws) ∧
    (t.result ≠ .success → t.errCode ≠ .splitDestFull → t.mem = s.mem) ∧
    (∀ a, ¬inBuffer (s.buffer ca) a → ¬inBuffer (s.buffer cb) a → t.mem.byteAt a = s.mem.byteAt a)

/-! ### Issue, faults and reset -/

/-- R85, R166, R169: a CMD write. While FAULT it is stored and nothing else changes; idle, it latches the operands and sets BUSY and RESULT = NONE; while
a command runs it is stored and raises E_BUSY with the written word, and BUSY stays 1 (until the engine has stopped: log 11). -/
def Obligations.CmdWriteIssuesOnlyWhenIdle : Prop :=
  ∀ (s : State) (v : Reg),
    (s.fault = true → hostStep (.writeReg 0 8 v) s = .next { s with cmd := v }) ∧
    (s.fault = false → s.busy = false → hostStep (.writeReg 0 8 v) s = .next { s with
      cmd := v, lcmd := v, lkey := s.key, lval := s.val, lbase := s.base, busy := true, result := .none }) ∧
    (s.fault = false → s.busy = true → hostStep (.writeReg 0 8 v) s = .next { s with
      cmd := v, fault := true, result := .faulted, errCode := .busy, errInfo := 0
      errCmd := v.extractLsb' 0 32, results := [] })

/-- R166: after E_BUSY the engine's move is its stop: BUSY = 0, and nothing changes but the contexts and the slots of the buffers that the abandoned
command names, which are unspecified; that the padding words are kept (R63) is the model's reading (log 12), and so is that an illegal word names none
(log 11). -/
def Obligations.EngineStopsAfterBusyFault : Prop :=
  ∀ s : State, s.busy = true → s.fault = true → ∃ t, engineStep s = .next t ∧
    t = { s with busy := false, ctxs := t.ctxs, mem := t.mem, draws := t.draws } ∧ t.nctx = s.nctx ∧
    (∀ i, decode s.lcmd = .command i →
      (∀ d, d ∉ State.namedBy i → t.ctx d = s.ctx d) ∧ (∀ a, ¬inNamedSlot s i a → t.mem.byteAt a = s.mem.byteAt a)) ∧
    (∀ r, decode s.lcmd = .illegal r → t.ctxs = s.ctxs ∧ t.mem = s.mem)

/-- R163, R171: a step that enters the fault state does so while a command runs: RESULT = FAULTED, RCOUNT = 0, a fault code, and in ERRCMD the low half of
the latched word, with BUSY = 0; or, for E_BUSY, the low half of the written one, with BUSY still 1 (log 11) and contexts and memory as they were. -/
def Obligations.FaultEntryRecordsTheCommand : Prop :=
  ∀ s t : State, step s = .next t → s.fault = false → t.fault = true →
    s.busy = true ∧ t.result = .faulted ∧ t.results = [] ∧ t.errCode ≠ .none ∧ t.errCode ≠ .splitEmpty ∧
    ((t.errCode ≠ .busy ∧ t.busy = false ∧ t.errCmd = s.lcmd.extractLsb' 0 32) ∨
      (t.errCode = .busy ∧ t.busy = true ∧ t.ctxs = s.ctxs ∧ t.mem = s.mem ∧
        ∃ v rest, s.agenda = .host (.writeReg 0 8 v) :: rest ∧ t.errCmd = v.extractLsb' 0 32))

/-- R169, R172: while FAULT = 1 no step but reset clears it or changes RESULT, ERR, the results, the divider or the latch; BUSY and the contexts change
only by the engine's stop after E_BUSY, and memory only by that or by a host write. -/
def Obligations.FaultStaysUntilReset : Prop :=
  ∀ s t : State, s.fault = true → step s = .next t → (∀ rest, s.agenda ≠ .host .reset :: rest) →
    t = { s with
      cmd := t.cmd, key := t.key, val := t.val, base := t.base, busy := t.busy, ctxs := t.ctxs, mem := t.mem
      agenda := s.agenda.tail, readData := t.readData, draws := t.draws } ∧
    (s.busy = false ∨ ¬engineNext s → t.busy = s.busy ∧ t.ctxs = s.ctxs ∧
      ((∀ wa w rest, s.agenda ≠ .host (.writeWord wa w) :: rest) → (∀ ba b rest, s.agenda ≠ .host (.writeByte ba b) :: rest) →
        t.mem = s.mem))

/-- R170: a host access, of any kind, to a word of a buffer that the running command names is RACE; one to any other word of the port, or to any word while
idle, is not. That the buffer a running BIND or UNBIND names (R61) is the one bound before it completes, and not the one at LBASE, is the model's reading
(log 13), and so is that an illegal word names no buffer (log 11). Byte ba is in word ba / 4 (log 1). -/
def Obligations.TouchingANamedBufferIsARace : Prop :=
  ∀ (s : State) (i : Instr) (a : HostAccess) (ba : Nat),
    ((∃ w, a = .writeWord (ba / 4) w) ∨ a = .readWord (ba / 4) ∨ (∃ b, a = .writeByte ba b) ∨ a = .readByte ba) →
    ba < 4 * 2 ^ s.params.addrW →
    (s.busy = true → decode s.lcmd = .command i → inNamed s i ba → hostStep a s = .fault .race) ∧
    (s.busy = true → decode s.lcmd = .command i → ¬inNamed s i ba → ∃ t, hostStep a s = .next t) ∧
    (∀ r, s.busy = true → decode s.lcmd = .illegal r → ∃ t, hostStep a s = .next t) ∧
    (s.busy = false → ∃ t, hostStep a s = .next t)

/-- R180, R182: the state a reset leaves, from any state. Memory is kept, but for the slots of the buffers a running command names; that their padding
words are kept too (R63) is the model's reading (log 12). (The latched copy is unspecified.) -/
def Obligations.ResetClearsTheBlock : Prop :=
  ∀ s : State, ∃ t, hostStep .reset s = .next t ∧
    t = { s with
      cmd := 0, key := 0, val := 0, base := 0, busy := false, fault := false, result := .none
      errCode := .none, errInfo := 0, errCmd := 0, results := [], divKey := 0, divVal := 0
      ctxs := List.replicate s.nctx { valid := false, base := 0, mode := .normal, ovfKey := 0, ovfVal := 0 }
      lcmd := t.lcmd, lkey := t.lkey, lval := t.lval, lbase := t.lbase, mem := t.mem, draws := t.draws } ∧
    (s.busy = false → t.mem = s.mem) ∧
    (∀ a, (∀ i, decode s.lcmd = .command i → ¬inNamedSlot s i a) → t.mem.byteAt a = s.mem.byteAt a)

/-! ### The register window -/

/-- R24: offsets that no row maps read 0 and ignore writes, and read-only registers ignore writes. -/
def Obligations.UnmappedAndReadOnlyOffsetsIgnoreWrites : Prop :=
  ∀ (s : State) (off : Nat) (v : Reg), off % 8 = 0 →
    ((0x0A0 ≤ off ∧ off < 0x100) ∨ 0x100 + 0x20 * s.nctx ≤ off →
      hostStep (.readReg off 8) s = .next { s with readData := 0 } ∧ hostStep (.writeReg off 8 v) s = .next s) ∧
    (0x020 ≤ off → hostStep (.writeReg off 8 v) s = .next s)

/-- R26 to R28 and R25: KEY, VAL, BASE and CMD read back what was last written, in every state; writing KEY, VAL or BASE changes nothing else. -/
def Obligations.WrittenRegistersReadBack : Prop :=
  ∀ (s : State) (v : Reg),
    hostStep (.writeReg 0x008 8 v) s = .next { s with key := v } ∧
    hostStep (.writeReg 0x010 8 v) s = .next { s with val := v } ∧
    hostStep (.writeReg 0x018 8 v) s = .next { s with base := v } ∧
    ∀ off ∈ [0x000, 0x008, 0x010, 0x018], ∃ t, hostStep (.writeReg off 8 v) s = .next t ∧
      hostStep (.readReg off 8) t = .next { t with readData := v }

/-- R29, R31, R32, R34, R37: what the read-only registers return while idle, as numbers; RESi beyond RCOUNT returns some value and changes nothing else. -/
def Obligations.IdleReadsReturnTheRegisters : Prop :=
  ∀ s : State, s.busy = false →
    ∃ st er rc : Reg,
      hostStep (.readReg 0x020 8) s = .next { s with readData := st } ∧
        st.toNat = 2 * s.fault.toNat + 16 * resultNumber s.result ∧
      hostStep (.readReg 0x028 8) s = .next { s with readData := er } ∧
        er.toNat = errNumber s.errCode + 256 * s.errInfo.toNat + 2 ^ 32 * s.errCmd.toNat ∧
      hostStep (.readReg 0x030 8) s = .next { s with readData := rc } ∧ (s.results.length ≤ 10 → rc.toNat = s.results.length) ∧
      hostStep (.readReg 0x038 8) s = .next { s with readData := s.divKey } ∧
      hostStep (.readReg 0x040 8) s = .next { s with readData := s.divVal.setWidth 64 } ∧
      (∀ i < 10, ∀ v, s.results[i]? = some v → hostStep (.readReg (0x050 + 8 * i) 8) s = .next { s with readData := v.setWidth 64 }) ∧
      (∀ i < 10, s.results.length ≤ i → ∃ t, hostStep (.readReg (0x050 + 8 * i) 8) s = .next t ∧
        t = { s with readData := t.readData, draws := t.draws }) ∧
      (∀ n < s.nctx, ∃ w : Reg,
        hostStep (.readReg (0x100 + 0x20 * n) 8) s = .next { s with readData := (s.ctx n).base } ∧
        hostStep (.readReg (0x100 + 0x20 * n + 0x08) 8) s = .next { s with readData := w } ∧
        w.toNat = (s.ctx n).valid.toNat + (if (s.ctx n).mode = .full then 2 else 0) ∧
        hostStep (.readReg (0x100 + 0x20 * n + 0x10) 8) s = .next { s with readData := (s.ctx n).ovfKey } ∧
        hostStep (.readReg (0x100 + 0x20 * n + 0x18) 8) s = .next { s with readData := (s.ctx n).ovfVal.setWidth 64 })

/-- R35 (c), (d), (e): while BUSY (after E_BUSY too: log 20) a read of STATUS returns BUSY = 1 alone; CMD, KEY, VAL, BASE are returned; any other read
completes with some value and changes nothing but the host's data and the count of draws. -/
def Obligations.ReadsWhileBusy : Prop :=
  ∀ (s : State) (off : Nat), s.busy = true → off % 8 = 0 →
    hostStep (.readReg 0x020 8) s = .next { s with readData := 1 } ∧
    hostStep (.readReg 0x000 8) s = .next { s with readData := s.cmd } ∧
    hostStep (.readReg 0x008 8) s = .next { s with readData := s.key } ∧
    hostStep (.readReg 0x010 8) s = .next { s with readData := s.val } ∧
    hostStep (.readReg 0x018 8) s = .next { s with readData := s.base } ∧
    ∃ t, hostStep (.readReg off 8) s = .next t ∧ t = { s with readData := t.readData, draws := t.draws }

/-- R35 (a): a write of KEY, VAL or BASE does not reach the running command: it ends as without the write. -/
def Obligations.OperandWritesDoNotReachTheRunningCommand : Prop :=
  ∀ (s t : State) (k v b : Reg), engineStep s = .next t →
    engineStep { s with key := k, val := v, base := b } = .next { t with key := k, val := v, base := b }

/-- R33: CFG reports the parameters at their bits, also while BUSY, and no step changes it, reset included. -/
def Obligations.CfgReportsTheParametersForever : Prop :=
  (∀ s : State, s.params.legal → s.nctx ≤ 16 → ∃ v : Reg, hostStep (.readReg 0x048 8) s = .next { s with readData := v } ∧
    v.toNat = s.nctx + 2 ^ 8 * s.params.maxRounds +
      2 ^ 16 * policyNumber s.params.removePolicy + 2 ^ 18 * scanNumber s.params.splitScan +
      2 ^ 24 * s.params.addrW + 2 ^ 32 * 5 + 2 ^ 36 * 3 + 2 ^ 40 * 16 + 2 ^ 48 * 16) ∧
  ∀ s t : State, step s = .next t → t.params = s.params ∧ t.nctx = s.nctx ∧ t.cfgImage = s.cfgImage

/-- R23: a register access that is not an aligned 64-bit access is refused. (Aligned is taken of the offset: log 15.) -/
def Obligations.OddRegisterAccessIsRefused : Prop :=
  ∀ (s : State) (off size : Nat) (v : Reg), size ≠ 8 ∨ off % 8 ≠ 0 →
    hostStep (.readReg off size) s = .refused .registerAccessShape ∧
    hostStep (.writeReg off size v) s = .refused .registerAccessShape

/-! ### The step -/

/-- R18: when the engine is to move (the agenda is the model's own: log 8) and LCMD decodes to a command, the step is that command's meaning; an idle
machine with nothing listed stays; and `withFetchWord` places a command so that the next step runs it with KEY, VAL and BASE latched. -/
def Obligations.StepRunsTheDecodedCommand : Prop :=
  ∀ (s : State) (i : Instr) (rest : List Move),
    (s.busy = true → s.fault = false → decode s.lcmd = .command i → s.agenda = [] → step s = exec i s) ∧
    (s.busy = true → s.fault = false → decode s.lcmd = .command i → s.agenda = .engine :: rest →
      step s = exec i { s with agenda := rest }) ∧
    (s.busy = false → s.agenda = [] → step s = .next s) ∧
    (i.WellFormed → step (s.withFetchWord 64 (encode i).toNat) =
      exec i { s with
        cmd := encode i, lcmd := encode i, lkey := s.key, lval := s.val, lbase := s.base, busy := true, fault := false
        result := .none })

/-- The machine after reset meets the invariant. -/
def Obligations.ResetStateMeetsTheInvariant : Prop := State.reset.Inv

/-- Every step keeps the invariant: legal parameters, canonical memory inside the address space, at most ten results, BUSY with FAULT only after E_BUSY,
RESULT = NONE while a command runs, FAULT exactly with RESULT = FAULTED, and sound contexts unless a fault has ended the command. -/
def Obligations.EveryStepKeepsTheInvariant : Prop :=
  ∀ s t : State, s.Inv → step s = .next t → t.Inv

/-- R38, R43: the only ways a context's MODE or VALID changes in a step: a reset; INSERT returning FULL, BIND and UNBIND, of that context; E_SPLIT_DEST_FULL
of a SPLIT with that context as a destination; and the engine's stop after E_BUSY (R166) of a command that names that context. -/
def Obligations.ModeAndValidChangeOnlyAsListed : Prop :=
  ∀ (s t : State) (c : Nat), s.Inv → step s = .next t →
    (t.ctx c).mode ≠ (s.ctx c).mode ∨ (t.ctx c).valid ≠ (s.ctx c).valid →
    (∃ rest, s.agenda = .host .reset :: rest ∧ (t.ctx c).mode = .normal ∧ (t.ctx c).valid = false) ∨
    (engineNext s ∧ s.busy = true ∧ s.fault = false ∧
      ((decode s.lcmd = .command (.insert c) ∧ t.result = .full ∧ (s.ctx c).mode = .normal ∧ (t.ctx c).mode = .full ∧
          (t.ctx c).valid = (s.ctx c).valid) ∨
        (decode s.lcmd = .command (.bind c) ∧ (t.ctx c).mode = .normal ∧ (t.ctx c).valid = true) ∨
        (decode s.lcmd = .command (.unbind c) ∧ (t.ctx c).mode = .normal ∧ (t.ctx c).valid = false) ∨
        (∃ src ca cb, decode s.lcmd = .command (.split src ca cb) ∧ (c = ca ∨ c = cb) ∧ t.fault = true ∧
          t.errCode = .splitDestFull))) ∨
    (engineNext s ∧ s.busy = true ∧ s.fault = true ∧ s.errCode = .busy ∧ t.busy = false ∧
      ∃ i, decode s.lcmd = .command i ∧ c ∈ State.namedBy i)
end

