-- ==== Sys2Proof/Laws/Memory.lean ====
section
/-! SUPPORT. What the memory operations do to a byte, a word and a slot, and that each keeps the canonical form. -/

namespace Sys2Proof.Machine

namespace Memory

@[simp] theorem byteAt_nil (a : Nat) : byteAt [] a = 0 := rfl

@[simp] theorem byteAt_cons (c : Host.Cell) (m : Memory) (a : Nat) :
    byteAt (c :: m) a = if c.1 = a then c.2 else byteAt m a := rfl

theorem byteAt_of_unlisted (m : Memory) (a : Nat) (h : ∀ c ∈ m, c.1 ≠ a) : m.byteAt a = 0 := by
  induction m with
  | nil => rfl
  | cons c rest ih =>
    rw [byteAt_cons, if_neg (h c (by simp)), ih fun d hd => h d (by simp [hd])]

theorem byteAt_append (m n : Memory) (a : Nat) :
    byteAt (m ++ n) a = if ∃ c ∈ m, c.1 = a then byteAt m a else byteAt n a := by
  induction m with
  | nil => simp
  | cons c rest ih =>
    by_cases hc : c.1 = a
    · simp [hc]
    · simp [hc, ih]

theorem byteAt_filter (m : Memory) (p : Nat → Bool) (a : Nat) :
    byteAt (m.filter fun c => p c.1) a = if p a then byteAt m a else 0 := by
  induction m with
  | nil => simp
  | cons c rest ih =>
    by_cases hc : c.1 = a
    · cases hp : p a <;> simp_all
    · cases hp : p c.1 <;> simp_all

theorem byteAt_insertCell (a : Nat) (b : Byte) (m : Memory) (h : ∀ c ∈ m, c.1 ≠ a) (x : Nat) :
    byteAt (insertCell a b m) x = if x = a then b else byteAt m x := by
  induction m with
  | nil =>
    by_cases hx : x = a
    · simp [insertCell, hx]
    · simp [insertCell, hx, Ne.symm hx]
  | cons c rest ih =>
    have hc : c.1 ≠ a := h c (by simp)
    have hrest := ih fun d hd => h d (by simp [hd])
    by_cases hlt : a < c.1
    · by_cases hx : x = a
      · simp [insertCell, hlt, hx]
      · simp [insertCell, hlt, hx, Ne.symm hx]
    · by_cases hx : x = a
      · subst hx; simp [insertCell, hlt, hc, hrest]
      · simp [insertCell, hlt, hx, hrest]

theorem without_unlisted (m : Memory) (a : Nat) : ∀ c ∈ m.without a, c.1 ≠ a := by
  intro c hc
  simpa using (List.mem_filter.mp hc).2

theorem byteAt_without (m : Memory) (a x : Nat) : byteAt (m.without a) x = if x = a then 0 else byteAt m x := by
  have h := byteAt_filter m (fun k => decide (k ≠ a)) x
  rw [without, h]
  by_cases hx : x = a <;> simp [hx]

/-- A byte written is read back, and no other byte changes. -/
@[simp] theorem byteAt_put (m : Memory) (a : Nat) (b : Byte) (x : Nat) :
    (m.put a b).byteAt x = if x = a then b else m.byteAt x := by
  unfold put
  by_cases hb : b = unlisted a
  · rw [if_pos hb, byteAt_without]
    by_cases hx : x = a <;> simp [hx, hb, unlisted]
  · rw [if_neg hb, byteAt_insertCell a b _ (without_unlisted m a), byteAt_without]
    by_cases hx : x = a <;> simp [hx]

theorem byteAt_drawnCells (lo n : Nat) (draw : Nat → Byte) (x : Nat) :
    byteAt (drawnCells lo n draw) x = if lo ≤ x ∧ x < lo + n then draw x else 0 := by
  induction n with
  | zero => simp [drawnCells]
  | succ n ih =>
    rw [drawnCells, List.range_succ, List.filterMap_append, byteAt_append, ← drawnCells, ih]
    have hmem : (∃ c ∈ drawnCells lo n draw, c.1 = x) → lo ≤ x ∧ x < lo + n := by
      rintro ⟨c, hc, rfl⟩
      obtain ⟨i, hi, hci⟩ := List.mem_filterMap.mp hc
      have hi' := List.mem_range.mp hi
      split at hci
      · cases hci
      · cases hci; exact ⟨by simp, by simpa using hi'⟩
    by_cases hin : lo ≤ x ∧ x < lo + n
    · by_cases hlist : ∃ c ∈ drawnCells lo n draw, c.1 = x
      · rw [if_pos hlist, if_pos hin, if_pos ⟨hin.1, by omega⟩]
      · rw [if_neg hlist, if_pos ⟨hin.1, by omega⟩]
        have h0 : (drawnCells lo n draw).byteAt x = 0 :=
          byteAt_of_unlisted _ _ fun c hc hcx => hlist ⟨c, hc, hcx⟩
        rw [ih, if_pos hin] at h0
        rw [h0]
        have hne : lo + n ≠ x := by omega
        by_cases hz : draw (lo + n) = unlisted (lo + n) <;> simp [hz, hne]
    · rw [if_neg fun h => hin (hmem h)]
      by_cases hx : x = lo + n
      · have hn : n ≠ 0 ∨ n = 0 := by omega
        rw [if_pos (by omega)]
        by_cases hz : draw (lo + n) = unlisted (lo + n)
        · simp [hx, hz]; rfl
        · simp [hx, hz]
      · have hne : lo + n ≠ x := fun h => hx h.symm
        rw [if_neg (by omega)]
        by_cases hz : draw (lo + n) = unlisted (lo + n) <;> simp [hz, hne]

/-- Inside the range every byte is the draw's, outside it none changes. -/
@[simp] theorem byteAt_havoc (m : Memory) (lo n : Nat) (draw : Nat → Byte) (x : Nat) :
    (m.havoc lo n draw).byteAt x = if lo ≤ x ∧ x < lo + n then draw x else m.byteAt x := by
  unfold havoc
  have hl := byteAt_filter m (fun k => decide (k < lo)) x
  have hh := byteAt_filter m (fun k => decide (lo + n ≤ k)) x
  have hd := byteAt_drawnCells lo n draw x
  rw [byteAt_append, byteAt_append]
  have mem_low : (∃ c ∈ m.filter (fun c => decide (c.1 < lo)), c.1 = x) → x < lo := by
    rintro ⟨c, hc, rfl⟩; simpa using (List.mem_filter.mp hc).2
  have mem_drawn : (∃ c ∈ drawnCells lo n draw, c.1 = x) → lo ≤ x ∧ x < lo + n := by
    rintro ⟨c, hc, rfl⟩
    obtain ⟨i, hi, hci⟩ := List.mem_filterMap.mp hc
    have hi' := List.mem_range.mp hi
    split at hci
    · cases hci
    · cases hci; exact ⟨by simp, by simpa using hi'⟩
  by_cases h1 : x < lo
  · rw [if_neg (by omega : ¬(lo ≤ x ∧ x < lo + n))]
    by_cases hm : ∃ c ∈ m.filter (fun c => decide (c.1 < lo)), c.1 = x
    · rw [if_pos hm, hl]; simp [h1]
    · have h0 : byteAt (m.filter fun c => decide (c.1 < lo)) x = 0 :=
        byteAt_of_unlisted _ _ fun c hc hcx => hm ⟨c, hc, hcx⟩
      rw [hl] at h0
      simp only [h1, decide_true, if_true] at h0
      rw [if_neg hm, if_neg (fun h => absurd (mem_drawn h).1 (by omega)), hh, h0]; simp
  · rw [if_neg fun h => h1 (mem_low h)]
    by_cases h2 : x < lo + n
    · rw [if_pos (⟨by omega, h2⟩ : lo ≤ x ∧ x < lo + n)]
      by_cases hm : ∃ c ∈ drawnCells lo n draw, c.1 = x
      · rw [if_pos hm, hd, if_pos ⟨by omega, h2⟩]
      · have h0 : (drawnCells lo n draw).byteAt x = 0 := byteAt_of_unlisted _ _ fun c hc hcx => hm ⟨c, hc, hcx⟩
        rw [hd, if_pos ⟨by omega, h2⟩] at h0
        rw [if_neg hm, hh, h0]; simp; omega
    · rw [if_neg fun h => h2 (mem_drawn h).2, hh, if_neg (by omega : ¬(lo ≤ x ∧ x < lo + n))]
      simp; omega

/-! ### The canonical form -/

theorem wf_nil : wf [] := ⟨List.Pairwise.nil, by simp⟩

theorem wf_filter {m : Memory} (h : m.wf) (p : Host.Cell → Bool) : wf (m.filter p) :=
  ⟨h.1.filter _, fun c hc => h.2 c (List.mem_of_mem_filter hc)⟩

theorem mem_insertCell (a : Nat) (b : Byte) (m : Memory) (c : Host.Cell) :
    c ∈ insertCell a b m ↔ c = (a, b) ∨ c ∈ m := by
  induction m with
  | nil => simp [insertCell]
  | cons d rest ih =>
    by_cases h : a < d.1
    · simp [insertCell, h]
    · simp only [insertCell, h, if_false, List.mem_cons, ih]; tauto

theorem wf_insertCell {m : Memory} (h : m.wf) (a : Nat) (b : Byte) (hb : b ≠ unlisted a) (ha : ∀ c ∈ m, c.1 ≠ a) :
    wf (insertCell a b m) := by
  refine ⟨?_, fun c hc => ?_⟩
  · induction m with
    | nil => simp [insertCell]
    | cons d rest ih =>
      have hd := List.pairwise_cons.mp h.1
      have hrest : wf rest := ⟨hd.2, fun c hc => h.2 c (by simp [hc])⟩
      by_cases hlt : a < d.1
      · simp only [insertCell, hlt, if_true]
        refine List.pairwise_cons.mpr ⟨fun c hc => ?_, h.1⟩
        rcases List.mem_cons.mp hc with rfl | hc
        · exact hlt
        · exact lt_trans hlt (hd.1 c hc)
      · simp only [insertCell, hlt, if_false]
        refine List.pairwise_cons.mpr ⟨fun c hc => ?_, ih hrest fun c hc => ha c (by simp [hc])⟩
        rcases (mem_insertCell a b rest c).mp hc with rfl | hc
        · have := ha d (by simp); show d.1 < a; omega
        · exact hd.1 c hc
  · rcases (mem_insertCell a b m c).mp hc with rfl | hc
    · exact hb
    · exact h.2 c hc

theorem wf_put {m : Memory} (h : m.wf) (a : Nat) (b : Byte) : wf (m.put a b) := by
  unfold put
  split
  · exact wf_filter h _
  · exact wf_insertCell (wf_filter h _) a b ‹_› (without_unlisted m a)

theorem wf_drawnCells (lo n : Nat) (draw : Nat → Byte) : wf (drawnCells lo n draw) := by
  refine ⟨?_, fun c hc => ?_⟩
  · refine (List.pairwise_filterMap).mpr ?_
    refine List.pairwise_lt_range.imp ?_
    intro i j hij c hc d hd
    split at hc <;> split at hd <;> simp_all
    rw [← hc, ← hd]; simpa using hij
  · obtain ⟨i, _, hci⟩ := List.mem_filterMap.mp hc
    split at hci
    · cases hci
    · cases hci; assumption

theorem wf_havoc {m : Memory} (h : m.wf) (lo n : Nat) (draw : Nat → Byte) : wf (m.havoc lo n draw) := by
  have hd := wf_drawnCells lo n draw
  have bound : ∀ c ∈ drawnCells lo n draw, lo ≤ c.1 ∧ c.1 < lo + n := by
    intro c hc
    obtain ⟨i, hi, hci⟩ := List.mem_filterMap.mp hc
    have hi' := List.mem_range.mp hi
    split at hci
    · cases hci
    · cases hci; exact ⟨by simp, by simpa using hi'⟩
  refine ⟨?_, fun c hc => ?_⟩
  · refine List.pairwise_append.mpr ⟨(wf_filter h _).1, List.pairwise_append.mpr ⟨hd.1, (wf_filter h _).1, ?_⟩, ?_⟩
    · intro c hc d hd'
      have h1 := bound c hc
      have h2 : lo + n ≤ d.1 := by simpa using (List.mem_filter.mp hd').2
      omega
    · intro c hc d hd'
      have h1 : c.1 < lo := by simpa using (List.mem_filter.mp hc).2
      rcases List.mem_append.mp hd' with hd' | hd'
      · have := bound d hd'; omega
      · have h2 : lo + n ≤ d.1 := by simpa using (List.mem_filter.mp hd').2
        omega
  · rcases List.mem_append.mp hc with hc | hc
    · exact h.2 c (List.mem_of_mem_filter hc)
    · rcases List.mem_append.mp hc with hc | hc
      · exact hd.2 c hc
      · exact h.2 c (List.mem_of_mem_filter hc)

theorem wf_writeWord {m : Memory} (h : m.wf) (o : ByteOrder) (wa : Nat) (w : Word) : wf (m.writeWord o wa w) :=
  wf_put (wf_put (wf_put (wf_put h _ _) _ _) _ _) _ _

/-! ### Which addresses are listed -/

theorem mem_put {m : Memory} {a : Nat} {b : Byte} {c : Host.Cell} (hc : c ∈ m.put a b) : c.1 = a ∨ c ∈ m := by
  unfold put at hc
  split at hc
  · exact .inr (List.mem_of_mem_filter hc)
  · rcases (mem_insertCell _ _ _ _).mp hc with rfl | hc
    · exact .inl rfl
    · exact .inr (List.mem_of_mem_filter hc)

theorem mem_writeWord {o : ByteOrder} {m : Memory} {wa : Nat} {w : Word} {c : Host.Cell} (hc : c ∈ m.writeWord o wa w) :
    c.1 / 4 = wa ∨ c ∈ m := by
  unfold writeWord at hc
  rcases mem_put hc with h | hc
  · left; omega
  rcases mem_put hc with h | hc
  · left; omega
  rcases mem_put hc with h | hc
  · left; omega
  rcases mem_put hc with h | hc
  · left; omega
  exact .inr hc

theorem mem_havoc {m : Memory} {lo n : Nat} {draw : Nat → Byte} {c : Host.Cell} (hc : c ∈ m.havoc lo n draw) :
    (lo ≤ c.1 ∧ c.1 < lo + n) ∨ c ∈ m := by
  rcases List.mem_append.mp hc with hc | hc
  · exact .inr (List.mem_of_mem_filter hc)
  rcases List.mem_append.mp hc with hc | hc
  · obtain ⟨i, hi, hci⟩ := List.mem_filterMap.mp hc
    have hi' := List.mem_range.mp hi
    split at hci
    · cases hci
    · cases hci; exact .inl ⟨by simp, by simpa using hi'⟩
  · exact .inr (List.mem_of_mem_filter hc)

/-! ### Words -/

theorem wordOfBytes_wordByte (o : ByteOrder) (w : Word) :
    wordOfBytes o (wordByte o w 0) (wordByte o w 1) (wordByte o w 2) (wordByte o w 3) = w := by
  cases o <;>
    (simp only [wordOfBytes, wordByte]
     rw [BitVec.extractLsb'_append_extractLsb'_eq_extractLsb' (by rfl), BitVec.extractLsb'_append_extractLsb'_eq_extractLsb' (by rfl),
       BitVec.extractLsb'_append_extractLsb'_eq_extractLsb' (by rfl)]
     simp)

/-- A byte outside a written word keeps its value. -/
theorem byteAt_writeWord_outside (o : ByteOrder) (m : Memory) (wa : Nat) (w : Word) (x : Nat) (h : x / 4 ≠ wa) :
    (m.writeWord o wa w).byteAt x = m.byteAt x := by
  have h0 : x ≠ 4 * wa := by omega
  have h1 : x ≠ 4 * wa + 1 := by omega
  have h2 : x ≠ 4 * wa + 2 := by omega
  have h3 : x ≠ 4 * wa + 3 := by omega
  simp [writeWord, h0, h1, h2, h3]

/-- Byte j of a written word, in the platform's byte order. -/
theorem byteAt_writeWord_inside (o : ByteOrder) (m : Memory) (wa : Nat) (w : Word) (j : Nat) (h : j < 4) :
    (m.writeWord o wa w).byteAt (4 * wa + j) = wordByte o w j := by
  have hj : j = 0 ∨ j = 1 ∨ j = 2 ∨ j = 3 := by omega
  rcases hj with rfl | rfl | rfl | rfl <;> simp [writeWord]

/-- A word written is read back, and no other word changes. -/
@[simp] theorem readWord_writeWord (o : ByteOrder) (m : Memory) (wa : Nat) (w : Word) (x : Nat) :
    (m.writeWord o wa w).readWord o x = if x = wa then w else m.readWord o x := by
  by_cases hx : x = wa
  · subst hx
    rw [if_pos rfl, readWord, show 4 * x = 4 * x + 0 from rfl, byteAt_writeWord_inside o m x w 0 (by omega),
      show 4 * x + 0 + 1 = 4 * x + 1 from rfl, show 4 * x + 0 + 2 = 4 * x + 2 from rfl, show 4 * x + 0 + 3 = 4 * x + 3 from rfl,
      byteAt_writeWord_inside o m x w 1 (by omega), byteAt_writeWord_inside o m x w 2 (by omega),
      byteAt_writeWord_inside o m x w 3 (by omega), wordOfBytes_wordByte]
  · rw [if_neg hx, readWord, byteAt_writeWord_outside o m wa w _ (by omega), byteAt_writeWord_outside o m wa w _ (by omega),
      byteAt_writeWord_outside o m wa w _ (by omega), byteAt_writeWord_outside o m wa w _ (by omega), readWord]

/-- A word depends on its four bytes alone. -/
theorem readWord_congr (o : ByteOrder) {m n : Memory} (wa : Nat) (h : ∀ x, x / 4 = wa → m.byteAt x = n.byteAt x) :
    m.readWord o wa = n.readWord o wa := by
  rw [readWord, readWord, h _ (by omega), h _ (by omega), h _ (by omega), h _ (by omega)]

@[simp] theorem readWord_nil (o : ByteOrder) (wa : Nat) : readWord o [] wa = 0 := by
  cases o <;> simp [readWord, wordOfBytes]

end Memory

/-! ### Slots -/

/-- Two slot words are the same word exactly when table, bucket, slot and word index agree (R62). -/
theorem slotAddr_inj (g : Buffer) {t t' : Table} {b b' : BucketIx} {i i' j j' : Nat} (hi : i < 5) (hi' : i' < 5) (hj : j < 3)
    (hj' : j' < 3) : slotAddr g t b i j = slotAddr g t' b' i' j' ↔ t = t' ∧ b = b' ∧ i = i' ∧ j = j' := by
  constructor
  · intro h
    have hb := b.isLt
    have hb' := b'.isLt
    have hq : 3 * i + j < 15 := by omega
    have hq' : 3 * i' + j' < 15 := by omega
    have word : 3 * i + j = 3 * i' + j' → i = i' ∧ j = j' := by omega
    have key : t = t' ∧ b.toNat = b'.toNat ∧ 3 * i + j = 3 * i' + j' := by
      simp only [slotAddr, Nat.add_assoc] at h
      generalize 3 * i + j = q at *
      generalize 3 * i' + j' = q' at *
      cases t <;> cases t' <;> simp only [tableOffset, Config.bucketWords, Config.tableWords, true_and,
        reduceCtorEq, false_and] at h ⊢ <;> omega
    exact ⟨key.1, BitVec.eq_of_toNat_eq key.2.1, word key.2.2⟩
  · rintro ⟨rfl, rfl, rfl, rfl⟩; rfl

/-- Every slot word lies inside its buffer (R62). -/
theorem slotAddr_bounds (g : Buffer) (t : Table) (b : BucketIx) {i j : Nat} (hi : i < 5) (hj : j < 3) :
    g.base ≤ slotAddr g t b i j ∧ slotAddr g t b i j < g.base + Config.bufWords := by
  have hb := b.isLt
  cases t <;> simp only [slotAddr, tableOffset, Config.bucketWords, Config.tableWords, Config.bufWords] <;> omega

/-- A slot word is never the padding word of its bucket (R63). -/
theorem slotAddr_not_padding (g : Buffer) (t : Table) (b : BucketIx) {i j : Nat} (hi : i < 5) (hj : j < 3) :
    (slotAddr g t b i j - g.base) % 16 ≠ 15 := by
  have hq : 3 * i + j < 15 := by omega
  simp only [slotAddr, Nat.add_assoc]
  generalize 3 * i + j = q at *
  cases t <;> simp only [tableOffset, Config.bucketWords, Config.tableWords] <;> omega

/-- The three words of a slot are consecutive. -/
theorem slotAddr_word (g : Buffer) (t : Table) (b : BucketIx) (i j : Nat) : slotAddr g t b i j = slotAddr g t b i 0 + j := rfl

/-- A slot written is read back, and no other slot of the buffer changes. -/
theorem readSlot_writeSlot (g : Buffer) (m : Memory) {t t' : Table} {b b' : BucketIx} {i i' : Nat} (e : Entry) (hi : i < 5)
    (hi' : i' < 5) :
    readSlot g (writeSlot g m t b i e) t' b' i' = if t' = t ∧ b' = b ∧ i' = i then e else readSlot g m t' b' i' := by
  simp only [readSlot, writeSlot, Memory.readWord_writeWord, slotAddr_inj g hi' hi (by omega : (0 : Nat) < 3) (by omega : (0 : Nat) < 3),
    slotAddr_inj g hi' hi (by omega : (0 : Nat) < 3) (by omega : (1 : Nat) < 3),
    slotAddr_inj g hi' hi (by omega : (0 : Nat) < 3) (by omega : (2 : Nat) < 3),
    slotAddr_inj g hi' hi (by omega : (1 : Nat) < 3) (by omega : (0 : Nat) < 3),
    slotAddr_inj g hi' hi (by omega : (1 : Nat) < 3) (by omega : (1 : Nat) < 3),
    slotAddr_inj g hi' hi (by omega : (1 : Nat) < 3) (by omega : (2 : Nat) < 3),
    slotAddr_inj g hi' hi (by omega : (2 : Nat) < 3) (by omega : (0 : Nat) < 3),
    slotAddr_inj g hi' hi (by omega : (2 : Nat) < 3) (by omega : (1 : Nat) < 3),
    slotAddr_inj g hi' hi (by omega : (2 : Nat) < 3) (by omega : (2 : Nat) < 3)]
  by_cases h : t' = t ∧ b' = b ∧ i' = i
  · simp [h]
  · simp only [h, if_false, and_true, ← and_assoc]
    simp

/-- A byte outside the twelve bytes of a written slot keeps its value. -/
theorem byteAt_writeSlot_outside (g : Buffer) (m : Memory) (t : Table) (b : BucketIx) (i : Nat) (e : Entry) (x : Nat)
    (h : ¬(4 * slotAddr g t b i 0 ≤ x ∧ x < 4 * slotAddr g t b i 0 + 12)) :
    (writeSlot g m t b i e).byteAt x = m.byteAt x := by
  have h1 := slotAddr_word g t b i 1
  have h2 := slotAddr_word g t b i 2
  rw [writeSlot, Memory.byteAt_writeWord_outside _ _ _ _ _ (by omega), Memory.byteAt_writeWord_outside _ _ _ _ _ (by omega),
    Memory.byteAt_writeWord_outside _ _ _ _ _ (by omega)]

/-- A slot depends on its twelve bytes alone. -/
theorem readSlot_congr (g : Buffer) {m n : Memory} (t : Table) (b : BucketIx) (i : Nat)
    (h : ∀ x, 4 * slotAddr g t b i 0 ≤ x → x < 4 * slotAddr g t b i 0 + 12 → m.byteAt x = n.byteAt x) :
    readSlot g m t b i = readSlot g n t b i := by
  have h1 := slotAddr_word g t b i 1
  have h2 := slotAddr_word g t b i 2
  simp only [readSlot]
  rw [Memory.readWord_congr g.order (slotAddr g t b i 0) fun x hx => h x (by omega) (by omega),
    Memory.readWord_congr g.order (slotAddr g t b i 1) fun x hx => h x (by omega) (by omega),
    Memory.readWord_congr g.order (slotAddr g t b i 2) fun x hx => h x (by omega) (by omega)]

theorem wf_writeSlot {m : Memory} (h : m.wf) (g : Buffer) (t : Table) (b : BucketIx) (i : Nat) (e : Entry) :
    (writeSlot g m t b i e).wf :=
  Memory.wf_writeWord (Memory.wf_writeWord (Memory.wf_writeWord h _ _ _) _ _ _) _ _ _

theorem mem_writeSlot {g : Buffer} {m : Memory} {t : Table} {b : BucketIx} {i : Nat} {e : Entry} {c : Host.Cell}
    (hc : c ∈ writeSlot g m t b i e) : (∃ j < 3, c.1 / 4 = slotAddr g t b i j) ∨ c ∈ m := by
  rcases Memory.mem_writeWord hc with h | hc
  · exact .inl ⟨2, by omega, h⟩
  rcases Memory.mem_writeWord hc with h | hc
  · exact .inl ⟨1, by omega, h⟩
  rcases Memory.mem_writeWord hc with h | hc
  · exact .inl ⟨0, by omega, h⟩
  exact .inr hc

@[simp] theorem readSlot_nil (g : Buffer) (t : Table) (b : BucketIx) (i : Nat) : readSlot g [] t b i = emptyEntry := by
  simp [readSlot, emptyEntry]

end Sys2Proof.Machine
end

