-- ==== Sys2Proof/Laws/SlotWrites.lean ====
section
/-! SUPPORT. What the algorithms of the commands can do to memory: they write slots, and nothing else. One relation, its consequences once, and one
lemma per algorithm. -/

namespace Sys2Proof.Machine

/-- `m'` comes from `m` by slot writes into buffers of `P`. -/
inductive SlotWrites (P : Buffer → Prop) : Memory → Memory → Prop
  | refl (m : Memory) : SlotWrites P m m
  | step {m m' : Memory} (g : Buffer) (t : Table) (b : BucketIx) (i : Nat) (e : Entry) :
      P g → i < 5 → SlotWrites P (writeSlot g m t b i e) m' → SlotWrites P m m'

namespace SlotWrites

variable {P Q : Buffer → Prop} {m m' m'' : Memory}

theorem single {g : Buffer} (t : Table) (b : BucketIx) {i : Nat} (e : Entry) (hg : P g) (hi : i < 5) :
    SlotWrites P m (writeSlot g m t b i e) := .step g t b i e hg hi (.refl _)

theorem trans (h : SlotWrites P m m') (h' : SlotWrites P m' m'') : SlotWrites P m m'' := by
  induction h with
  | refl => exact h'
  | step g t b i e hg hi _ ih => exact .step g t b i e hg hi (ih h')

theorem mono (hPQ : ∀ g, P g → Q g) (h : SlotWrites P m m') : SlotWrites Q m m' := by
  induction h with
  | refl => exact .refl _
  | step g t b i e hg hi _ ih => exact .step g t b i e (hPQ g hg) hi ih

/-- Slot writes keep the canonical form. -/
theorem wf (h : SlotWrites P m m') (hm : Memory.wf m) : Memory.wf m' := by
  induction h with
  | refl => exact hm
  | step g t b i e _ _ _ ih => exact ih (wf_writeSlot hm g t b i e)

/-- A listed address is an old one or the byte of a slot word. -/
theorem listed (h : SlotWrites P m m') : ∀ c ∈ m', c ∈ m ∨ ∃ g t b, ∃ i < 5, ∃ j < 3, P g ∧ c.1 / 4 = slotAddr g t b i j := by
  induction h with
  | refl => exact fun c hc => .inl hc
  | step g t b i e hg hi _ ih =>
    intro c hc
    rcases ih c hc with hc | hc
    · rcases mem_writeSlot hc with ⟨j, hj, hcj⟩ | hc
      · exact .inr ⟨g, t, b, i, hi, j, hj, hg, hcj⟩
      · exact .inl hc
    · exact .inr hc

/-- A byte that is in no slot of the buffers keeps its value. -/
theorem byteAt_eq (h : SlotWrites P m m') {x : Nat}
    (hx : ∀ g t b, ∀ i < 5, P g → ¬(4 * slotAddr g t b i 0 ≤ x ∧ x < 4 * slotAddr g t b i 0 + 12)) :
    m'.byteAt x = m.byteAt x := by
  induction h with
  | refl => rfl
  | step g t b i e hg hi _ ih => rw [ih, byteAt_writeSlot_outside g _ t b i e x (hx g t b i hi hg)]

/-- A byte outside the buffers keeps its value. -/
theorem byteAt_outside (h : SlotWrites P m m') {x : Nat}
    (hx : ∀ g, P g → ¬(4 * g.base ≤ x ∧ x < 4 * (g.base + Config.bufWords))) : m'.byteAt x = m.byteAt x := by
  refine h.byteAt_eq fun g t b i hi hg hin => hx g hg ?_
  have h0 := slotAddr_bounds g t b hi (show 0 < 3 by omega)
  have h2 := slotAddr_bounds g t b hi (show 2 < 3 by omega)
  have := slotAddr_word g t b i 2
  omega

end SlotWrites

/-! ### Insertion -/

theorem freeSlot_lt {g : Buffer} {m : Memory} {t : Table} {b : BucketIx} {i : Nat} (h : freeSlot g m t b = some i) : i < 5 := by
  simpa using List.mem_of_find?_eq_some h

theorem placeIn_writes {g : Buffer} {m m' : Memory} {t : Table} {p : Assoc} (h : placeIn g m t p = some m') :
    SlotWrites (· = g) m m' := by
  obtain ⟨i, hi, rfl⟩ := Option.map_eq_some_iff.mp h
  exact .single _ _ _ rfl (freeSlot_lt hi)

/-- The memory an insertion leaves. -/
def Insertion.memory : Insertion → Memory
  | .success m => m
  | .full m _ => m

theorem displace_writes (g : Buffer) (n : Nat) (m : Memory) (t : Table) (p : Assoc) :
    SlotWrites (· = g) m (displace g n m t p).memory := by
  induction n generalizing m t p with
  | zero => exact .refl m
  | succ n ih =>
    simp only [displace]
    split
    · exact .single _ _ _ rfl (by omega)
    · exact .step g _ _ 0 _ rfl (by omega) (ih _ _ _)

theorem insertCore_writes (g : Buffer) (rounds : Nat) (m : Memory) (p : Assoc) :
    SlotWrites (· = g) m (insertCore g rounds m p).memory := by
  unfold insertCore
  split
  · exact placeIn_writes ‹_›
  · split
    · exact placeIn_writes ‹_›
    · exact displace_writes g rounds m .t1 p

/-! ### Removal -/

theorem swapLast_writes (g : Buffer) (m : Memory) (t : Table) (b : BucketIx) {i : Nat} (hi : i < 5) :
    SlotWrites (· = g) m (swapLast g m t b i) :=
  .step g t b i _ rfl hi (.single _ _ _ rfl (by decide))

theorem scanContinue_writes (g : Buffer) (t : Table) (b : BucketIx) (e : Entry) (l : List Nat) (hl : ∀ i ∈ l, i < 5) (r : Memory × Bool) :
    SlotWrites (· = g) r.1 (scanContinue g t b e l r).1 := by
  induction l generalizing r with
  | nil => exact .refl _
  | cons i rest ih =>
    have hrest : ∀ j ∈ rest, j < 5 := fun j hj => hl j (by simp [hj])
    simp only [scanContinue]
    split
    · exact (swapLast_writes g r.1 t b (hl i (by simp))).trans (ih hrest (swapLast g r.1 t b i, true))
    · exact ih hrest _

theorem scanRestart_writes (g : Buffer) (t : Table) (b : BucketIx) (e : Entry) (n : Nat) (r : Memory × Bool) :
    SlotWrites (· = g) r.1 (scanRestart g t b e n r).1 := by
  induction n generalizing r with
  | zero => exact .refl _
  | succ n ih =>
    simp only [scanRestart]
    split
    · exact .refl _
    · rename_i i hi
      have : i < 5 := by simpa using List.mem_of_find?_eq_some hi
      exact (swapLast_writes g r.1 t b this).trans (ih (swapLast g r.1 t b i, true))

theorem shiftFrom_writes (g : Buffer) (m : Memory) (t : Table) (b : BucketIx) (i : Nat) :
    SlotWrites (· = g) m (shiftFrom g m t b i) := by
  suffices h : ∀ l : List Nat, (∀ j ∈ l, j < 5) →
      ∀ u, SlotWrites (· = g) u (l.foldl (fun u j => writeSlot g u t b j (readSlot g u t b (j + 1))) u) from
    (h _ (fun j hj => by have := List.mem_range'_1.mp hj; simp only [lastSlot] at this; omega) m).trans
      (.single _ _ _ rfl (by decide))
  intro l
  induction l with
  | nil => exact fun _ u => .refl u
  | cons j rest ih =>
    intro hl u
    exact .step g t b j _ rfl (hl j (by simp)) (ih (fun k hk => hl k (by simp [hk])) _)

theorem scanShift_writes (g : Buffer) (t : Table) (b : BucketIx) (e : Entry) (n i : Nat) (r : Memory × Bool) :
    SlotWrites (· = g) r.1 (scanShift g t b e n i r).1 := by
  induction n generalizing i r with
  | zero => exact .refl _
  | succ n ih =>
    simp only [scanShift]
    split
    · exact .refl _
    · split
      · exact (shiftFrom_writes g r.1 t b i).trans (ih i (shiftFrom g r.1 t b i, true))
      · exact ih (i + 1) _

theorem removeInBucket_writes (policy : RemovePolicy) (g : Buffer) (m : Memory) (t : Table) (b : BucketIx) (e : Entry) :
    SlotWrites (· = g) m (removeInBucket policy g m t b e).1 := by
  cases policy
  · exact scanContinue_writes g t b e _ (by simp) (m, false)
  · exact scanRestart_writes g t b e _ (m, false)
  · exact scanShift_writes g t b e _ 0 (m, false)

theorem removeCore_writes (policy : RemovePolicy) (g : Buffer) (m : Memory) (p : Assoc) :
    SlotWrites (· = g) m (removeCore policy g m p).1 :=
  (removeInBucket_writes _ _ _ _ _ _).trans (removeInBucket_writes _ _ _ _ _ _)

/-! ### Distribution -/

theorem distribute_writes {rounds : Nat} {ga gb : Buffer} {mid : Nat} {l : List Assoc} :
    ∀ {i : Nat} {m m' : Memory}, distribute rounds ga gb mid i l m = .done m' → SlotWrites (fun g => g = ga ∨ g = gb) m m' := by
  induction l with
  | nil => rintro i m m' ⟨⟩; exact .refl m
  | cons p rest ih =>
    intro i m m' h
    simp only [distribute] at h
    split at h
    · rename_i m1 h1
      have w := insertCore_writes (if i < mid then ga else gb) rounds m p
      rw [h1] at w
      refine (w.mono fun g hg => ?_).trans (ih h)
      split at hg
      · exact .inl hg
      · exact .inr hg
    · cases h

end Sys2Proof.Machine
end

