-- ==== Sys2Proof/Laws/Agreement.lean ====
section
/-! SUPPORT. Two memories that agree on a buffer look alike to every algorithm over that buffer, and still agree on it afterwards. -/

namespace Sys2Proof.Machine

/-- The byte address lies in the buffer (R61). -/
def Buffer.covers (g : Buffer) (x : Nat) : Prop := 4 * g.base ≤ x ∧ x < 4 * (g.base + Config.bufWords)

/-- The two memories hold the same bytes at the addresses of `A`. -/
def Agree (A : Nat → Prop) (m n : Memory) : Prop := ∀ x, A x → m.byteAt x = n.byteAt x

variable {A : Nat → Prop} {m n : Memory} {g : Buffer}

theorem Agree.symm (h : Agree A m n) : Agree A n m := fun x hx => (h x hx).symm

theorem Agree.mono {B : Nat → Prop} (h : Agree A m n) (hBA : ∀ x, B x → A x) : Agree B m n := fun x hx => h x (hBA x hx)

/-- The bytes of a slot lie in its buffer. -/
theorem covers_slot (g : Buffer) (t : Table) (b : BucketIx) {i : Nat} (hi : i < 5) {x : Nat} (h1 : 4 * slotAddr g t b i 0 ≤ x)
    (h2 : x < 4 * slotAddr g t b i 0 + 12) : g.covers x := by
  have h0 := slotAddr_bounds g t b hi (show 0 < 3 by omega)
  have h3 := slotAddr_bounds g t b hi (show 2 < 3 by omega)
  have := slotAddr_word g t b i 2
  unfold Buffer.covers
  omega

theorem Agree.readSlot (h : Agree A m n) (hg : ∀ x, g.covers x → A x) (t : Table) (b : BucketIx) {i : Nat} (hi : i < 5) :
    readSlot g m t b i = readSlot g n t b i :=
  readSlot_congr g t b i fun x h1 h2 => h x (hg x (covers_slot g t b hi h1 h2))

theorem Agree.readBucket (h : Agree A m n) (hg : ∀ x, g.covers x → A x) (t : Table) (b : BucketIx) :
    readBucket g m t b = readBucket g n t b :=
  List.map_congr_left fun _ hi => h.readSlot hg t b (List.mem_range.mp hi)

theorem Agree.put (h : Agree A m n) (a : Nat) (b : Byte) : Agree A (m.put a b) (n.put a b) := by
  intro x hx
  rw [Memory.byteAt_put, Memory.byteAt_put, h x hx]

theorem Agree.writeSlot (h : Agree A m n) (t : Table) (b : BucketIx) (i : Nat) (e : Entry) :
    Agree A (writeSlot g m t b i e) (writeSlot g n t b i e) := by
  have word {m n : Memory} (h : Agree A m n) (wa : Nat) (w : Word) :
      Agree A (m.writeWord g.order wa w) (n.writeWord g.order wa w) := (((h.put _ _).put _ _).put _ _).put _ _
  exact word (word (word h _ _) _ _) _ _

/-! ### Insertion -/

theorem Agree.freeSlot (h : Agree A m n) (hg : ∀ x, g.covers x → A x) (t : Table) (b : BucketIx) :
    freeSlot g m t b = freeSlot g n t b := by
  unfold Machine.freeSlot
  have heq : ∀ l : List Nat, (∀ i ∈ l, i < 5) →
      l.find? (fun i => isEmpty (Machine.readSlot g m t b i)) = l.find? (fun i => isEmpty (Machine.readSlot g n t b i)) := by
    intro l hl
    induction l with
    | nil => rfl
    | cons i rest ih =>
      rw [List.find?_cons, List.find?_cons, h.readSlot hg t b (hl i (by simp)), ih fun j hj => hl j (by simp [hj])]
  exact heq _ (by simp)

/-- Two insertions with the same answer, and memories that agree. -/
def Insertion.Agree (A : Nat → Prop) : Insertion → Insertion → Prop
  | .success m, .success n => Machine.Agree A m n
  | .full m p, .full n q => Machine.Agree A m n ∧ p = q
  | .success _, .full _ _ => False
  | .full _ _, .success _ => False

theorem Agree.placeIn (h : Agree A m n) (hg : ∀ x, g.covers x → A x) (t : Table) (p : Assoc) :
    (placeIn g m t p = none ∧ placeIn g n t p = none) ∨
      ∃ m' n', placeIn g m t p = some m' ∧ placeIn g n t p = some n' ∧ Agree A m' n' := by
  unfold Machine.placeIn
  rw [h.freeSlot hg]
  cases Machine.freeSlot g n t (index t p.key) with
  | none => exact .inl ⟨rfl, rfl⟩
  | some i => exact .inr ⟨_, _, rfl, rfl, h.writeSlot _ _ _ _⟩

theorem Agree.displace (h : Agree A m n) (hg : ∀ x, g.covers x → A x) (r : Nat) (t : Table) (p : Assoc) :
    (displace g r m t p).Agree A (displace g r n t p) := by
  induction r generalizing m n t p with
  | zero => exact ⟨h, rfl⟩
  | succ r ih =>
    simp only [Machine.displace, h.readSlot hg t (index t p.key) (show 0 < 5 by decide)]
    split
    · exact h.writeSlot _ _ _ _
    · exact ih (h.writeSlot _ _ _ _) _ _

theorem Agree.insertCore (h : Agree A m n) (hg : ∀ x, g.covers x → A x) (rounds : Nat) (p : Assoc) :
    (insertCore g rounds m p).Agree A (insertCore g rounds n p) := by
  unfold Machine.insertCore
  rcases h.placeIn hg .t1 p with ⟨e1, e2⟩ | ⟨m', n', e1, e2, h'⟩
  · rw [e1, e2]
    rcases h.placeIn hg .t2 p with ⟨e1, e2⟩ | ⟨m', n', e1, e2, h'⟩
    · rw [e1, e2]; exact h.displace hg rounds .t1 p
    · rw [e1, e2]; exact h'
  · rw [e1, e2]; exact h'

/-! ### Lookup -/

theorem Agree.lookupMatches (h : Agree A m n) (hg : ∀ x, g.covers x → A x) (k : Key) :
    lookupMatches g m k = lookupMatches g n k := by
  unfold Machine.lookupMatches matchesIn
  rw [h.readBucket hg, h.readBucket hg]

/-! ### Removal -/

theorem Agree.swapLast (h : Agree A m n) (hg : ∀ x, g.covers x → A x) (t : Table) (b : BucketIx) (i : Nat) :
    Agree A (swapLast g m t b i) (swapLast g n t b i) := by
  simp only [Machine.swapLast, h.readSlot hg t b (show lastSlot < 5 by decide)]
  exact (h.writeSlot _ _ _ _).writeSlot _ _ _ _

theorem Agree.shiftFrom (h : Agree A m n) (hg : ∀ x, g.covers x → A x) (t : Table) (b : BucketIx) (i : Nat) :
    Agree A (shiftFrom g m t b i) (shiftFrom g n t b i) := by
  refine Agree.writeSlot ?_ _ _ _ _
  have hl : ∀ j ∈ List.range' i (lastSlot - i), j + 1 < 5 := by
    intro j hj
    have := List.mem_range'_1.mp hj
    simp only [lastSlot] at this; omega
  generalize List.range' i (lastSlot - i) = l at hl
  induction l generalizing m n with
  | nil => exact h
  | cons j rest ih =>
    rw [List.foldl_cons, List.foldl_cons, h.readSlot hg t b (hl j (by simp))]
    exact ih (h.writeSlot _ _ _ _) fun k hk => hl k (by simp [hk])

/-- Two removals with the same answer, and memories that agree. -/
def AgreeRemoval (A : Nat → Prop) (r q : Memory × Bool) : Prop := Agree A r.1 q.1 ∧ r.2 = q.2

theorem Agree.removeInBucket (h : Agree A m n) (hg : ∀ x, g.covers x → A x) (policy : RemovePolicy) (t : Table) (b : BucketIx) (e : Entry) :
    AgreeRemoval A (removeInBucket policy g m t b e) (removeInBucket policy g n t b e) := by
  have continues : ∀ l : List Nat, (∀ i ∈ l, i < 5) → ∀ (f : Bool) {m n : Memory}, Agree A m n →
      AgreeRemoval A (scanContinue g t b e l (m, f)) (scanContinue g t b e l (n, f)) := by
    intro l hl
    induction l with
    | nil => exact fun f m n h => ⟨h, rfl⟩
    | cons i rest ih =>
      intro f m n h
      have ih := ih fun j hj => hl j (by simp [hj])
      simp only [scanContinue, h.readSlot hg t b (hl i (by simp))]
      split
      · exact ih true (h.swapLast hg t b i)
      · exact ih f h
  have restarts : ∀ (k : Nat) (f : Bool) {m n : Memory}, Agree A m n →
      AgreeRemoval A (scanRestart g t b e k (m, f)) (scanRestart g t b e k (n, f)) := by
    intro k
    induction k with
    | zero => exact fun f m n h => ⟨h, rfl⟩
    | succ k ih =>
      intro f m n h
      have heq : ∀ l : List Nat, (∀ i ∈ l, i < 5) → l.find? (fun i => decide (Machine.readSlot g m t b i = e)) =
          l.find? (fun i => decide (Machine.readSlot g n t b i = e)) := by
        intro l hl
        induction l with
        | nil => rfl
        | cons i rest ih =>
          rw [List.find?_cons, List.find?_cons, h.readSlot hg t b (hl i (by simp)), ih fun j hj => hl j (by simp [hj])]
      simp only [scanRestart, heq _ (show ∀ i ∈ List.range Config.nSlots, i < 5 by simp)]
      split
      · exact ⟨h, rfl⟩
      · exact ih true (h.swapLast hg t b _)
  have shifts : ∀ (k i : Nat) (f : Bool) {m n : Memory}, Agree A m n →
      AgreeRemoval A (scanShift g t b e k i (m, f)) (scanShift g t b e k i (n, f)) := by
    intro k
    induction k with
    | zero => exact fun i f m n h => ⟨h, rfl⟩
    | succ k ih =>
      intro i f m n h
      simp only [scanShift]
      by_cases hi : lastSlot < i
      · simp only [hi, if_true]; exact ⟨h, rfl⟩
      · have hi5 : i < 5 := by simp only [lastSlot] at hi; omega
        simp only [hi, if_false, h.readSlot hg t b hi5]
        split
        · exact ih i true (h.shiftFrom hg t b i)
        · exact ih (i + 1) f h
  cases policy
  · exact continues _ (by simp) false h
  · exact restarts _ false h
  · exact shifts _ 0 false h

theorem Agree.removeCore (h : Agree A m n) (hg : ∀ x, g.covers x → A x) (policy : RemovePolicy) (p : Assoc) :
    AgreeRemoval A (removeCore policy g m p) (removeCore policy g n p) := by
  have h1 := h.removeInBucket hg policy .t1 (index .t1 p.key) (enc .t1 p)
  have h2 := h1.1.removeInBucket hg policy .t2 (index .t2 p.key) (enc .t2 p)
  exact ⟨h2.1, by simp only [Machine.removeCore, h1.2, h2.2]⟩

/-! ### Split -/

theorem Agree.collectTable (h : Agree A m n) (hg : ∀ x, g.covers x → A x) (scan : SplitScan) (t : Table) :
    collectTable scan g m t = collectTable scan g n t := by
  unfold Machine.collectTable collectBucket
  simp only [h.readBucket hg]

/-- Two distributions with the same answer, and memories that agree. -/
def Distribution.Agree (A : Nat → Prop) : Distribution → Distribution → Prop
  | .done m, .done n => Machine.Agree A m n
  | .destFull u, .destFull v => u = v
  | .done _, .destFull _ => False
  | .destFull _, .done _ => False

theorem Agree.distribute {ga gb : Buffer} (h : Agree A m n) (ha : ∀ x, ga.covers x → A x) (hb : ∀ x, gb.covers x → A x)
    (rounds mid i : Nat) (l : List Assoc) : (distribute rounds ga gb mid i l m).Agree A (distribute rounds ga gb mid i l n) := by
  induction l generalizing i m n with
  | nil => exact h
  | cons p rest ih =>
    have hg : ∀ x, (if i < mid then ga else gb).covers x → A x := by split <;> assumption
    have hi := h.insertCore hg rounds p
    simp only [Machine.distribute]
    revert hi
    cases Machine.insertCore (if i < mid then ga else gb) rounds m p <;>
      cases Machine.insertCore (if i < mid then ga else gb) rounds n p <;> intro hi
    · exact ih hi _
    · exact hi.elim
    · exact hi.elim
    · rfl

end Sys2Proof.Machine
end

