-- ==== Sys2Proof/Laws/Codec.lean ====
section
/-! SUPPORT. The numbers behind the bit fields of command words and entries: each field as a quotient or remainder, for `omega`. -/

namespace Sys2Proof

/-- Concatenation as a sum. -/
theorem append_toNat {n m : Nat} (a : BitVec n) (b : BitVec m) : (a ++ b).toNat = a.toNat * 2 ^ m + b.toNat := by
  rw [BitVec.toNat_append, Nat.shiftLeft_eq, Nat.mul_comm, ← Nat.two_pow_add_eq_or_of_lt b.isLt]

/-- A bit field as a remainder of a quotient. -/
theorem extract_toNat {w : Nat} (s l : Nat) (x : BitVec w) : (x.extractLsb' s l).toNat = x.toNat / 2 ^ s % 2 ^ l := by
  rw [BitVec.extractLsb'_toNat, Nat.shiftRight_eq_div_pow]

theorem append_16_16 (x y : BitVec 16) : (x ++ y : Word).toNat = x.toNat * 65536 + y.toNat := append_toNat x y

theorem append_16_32 (x : BitVec 16) (y : Word) : (x ++ y : Value).toNat = x.toNat * 4294967296 + y.toNat := append_toNat x y

theorem append_32_16_16 (w : Word) (x y : BitVec 16) :
    (w ++ x ++ y : Key).toNat = w.toNat * 4294967296 + x.toNat * 65536 + y.toNat := by
  have h1 := append_toNat w x
  have h2 := append_toNat (w ++ x) y
  refine h2.trans ?_
  rw [h1]; omega

/-! ### Fields of a command word (R25) -/

theorem opField_eq (w : Reg) : opField w = w.toNat % 16 := by rw [opField, extract_toNat]; simp
theorem cField_eq (w : Reg) : cField w = w.toNat / 16 % 16 := by rw [cField, extract_toNat]; norm_num
theorem caField_eq (w : Reg) : caField w = w.toNat / 256 % 16 := by rw [caField, extract_toNat]; norm_num
theorem cbField_eq (w : Reg) : cbField w = w.toNat / 4096 % 16 := by rw [cbField, extract_toNat]; norm_num

namespace Machine

/-! ### Decoding a slot (R108, R109) -/

theorem decVal_toNat (e : Entry) : (decVal e).toNat = e.w1.toNat % 65536 * 4294967296 + e.w2.toNat := by
  rw [decVal, append_16_32, extract_toNat]; simp

theorem decKey_t1_toNat (b : BucketIx) (e : Entry) :
    (decKey .t1 b e).toNat = e.w0.toNat * 4294967296 + e.w1.toNat / 65536 * 65536 + b.toNat := by
  have := e.w1.isLt
  simp only [decKey, append_32_16_16, extract_toNat]; omega

theorem decKey_t2_toNat (b : BucketIx) (e : Entry) :
    (decKey .t2 b e).toNat = e.w0.toNat * 4294967296 + b.toNat * 65536 + e.w1.toNat / 65536 := by
  have := e.w1.isLt
  simp only [decKey, append_32_16_16, extract_toNat]; omega

/-- Entries are equal when the numbers of their words are. -/
theorem entry_ext {e f : Entry} (h0 : e.w0.toNat = f.w0.toNat) (h1 : e.w1.toNat = f.w1.toNat) (h2 : e.w2.toNat = f.w2.toNat) :
    e = f := by
  cases e; cases f
  simp_all [BitVec.toNat_inj]

/-! ### Encoding (R105, R106) -/

theorem index_t1_toNat (k : Key) : (index .t1 k).toNat = k.toNat % 65536 := by simp only [index, extract_toNat]; simp
theorem index_t2_toNat (k : Key) : (index .t2 k).toNat = k.toNat / 65536 % 65536 := by simp only [index, extract_toNat]; norm_num

theorem otherHalf_eq (t : Table) (k : Key) : otherHalf t k = index (otherTable t) k := by cases t <;> rfl

theorem enc_w0_toNat (t : Table) (p : Assoc) : (enc t p).w0.toNat = p.key.toNat / 4294967296 := by
  have := p.key.isLt
  simp only [enc, extract_toNat]; omega

theorem enc_w1_toNat (t : Table) (p : Assoc) :
    (enc t p).w1.toNat = (index (otherTable t) p.key).toNat * 65536 + p.val.toNat / 4294967296 := by
  have := p.val.isLt
  simp only [enc, append_16_16, extract_toNat, otherHalf_eq]; omega

theorem enc_w2_toNat (t : Table) (p : Assoc) : (enc t p).w2.toNat = p.val.toNat % 4294967296 := by
  simp only [enc, extract_toNat]; simp

/-- A slot of the pair's own bucket that holds the pair's entry decodes to the pair. -/
theorem decodeSlot_enc (t : Table) (p : Assoc) : decodeSlot t (index t p.key) (enc t p) = p := by
  have hk := p.key.isLt
  have hv := p.val.isLt
  have key : decKey t (index t p.key) (enc t p) = p.key := by
    apply BitVec.eq_of_toNat_eq
    cases t
    · rw [decKey_t1_toNat, enc_w1_toNat, enc_w0_toNat, index_t1_toNat, otherTable, index_t2_toNat]; omega
    · rw [decKey_t2_toNat, enc_w1_toNat, enc_w0_toNat, index_t2_toNat, otherTable, index_t1_toNat]; omega
  have val : decVal (enc t p) = p.val := by
    apply BitVec.eq_of_toNat_eq
    rw [decVal_toNat, enc_w1_toNat, enc_w2_toNat]; omega
  rw [decodeSlot, key, val]

/-- The key that a slot decodes to has the slot's bucket as its index. -/
theorem index_decodeSlot (t : Table) (b : BucketIx) (e : Entry) : index t (decodeSlot t b e).key = b := by
  apply BitVec.eq_of_toNat_eq
  have := b.isLt
  have := e.w1.isLt
  cases t
  · rw [index_t1_toNat, decodeSlot, decKey_t1_toNat]; omega
  · rw [index_t2_toNat, decodeSlot, decKey_t2_toNat]; omega

/-- Encoding what a slot decodes to gives the slot's contents. -/
theorem enc_decodeSlot (t : Table) (b : BucketIx) (e : Entry) : enc t (decodeSlot t b e) = e := by
  have := b.isLt
  have := e.w1.isLt
  have := e.w2.isLt
  apply entry_ext
  · rw [enc_w0_toNat]; cases t <;> simp only [decodeSlot, decKey_t1_toNat, decKey_t2_toNat] <;> omega
  · rw [enc_w1_toNat]
    cases t <;>
      simp only [decodeSlot, decVal_toNat, otherTable, index_t1_toNat, index_t2_toNat, decKey_t1_toNat, decKey_t2_toNat] <;> omega
  · rw [enc_w2_toNat]; simp only [decodeSlot, decVal_toNat]; omega

/-- An empty slot decodes to the value 0, so a slot with another value is live. -/
theorem decVal_emptyEntry : decVal emptyEntry = 0 := by decide

theorem ne_emptyEntry_of_val {t : Table} {b : BucketIx} {e : Entry} (h : (decodeSlot t b e).val ≠ 0) : e ≠ emptyEntry := by
  rintro rfl; exact h decVal_emptyEntry

/-- `isEmpty` as an equation (R110). -/
@[simp] theorem isEmpty_iff (e : Entry) : isEmpty e = true ↔ e = emptyEntry := by simp [isEmpty]

@[simp] theorem isEmpty_false_iff (e : Entry) : isEmpty e = false ↔ e ≠ emptyEntry := by simp [isEmpty]

@[simp] theorem otherTable_otherTable (t : Table) : otherTable (otherTable t) = t := by cases t <;> rfl

end Machine
end Sys2Proof
end

