-- ==== Sys2Proof/Laws/State.lean ====
section
/-! SUPPORT. What each named update of State does to each field, one lemma per field and update, so that no proof unfolds a record update; and the
accessors of the context file. -/

namespace Sys2Proof.Machine.State

section
variable (s : State) (c : Nat) (x : Ctx)

@[simp] theorem setCtx_params : (s.setCtx c x).params = s.params := rfl
@[simp] theorem setCtx_cmd : (s.setCtx c x).cmd = s.cmd := rfl
@[simp] theorem setCtx_key : (s.setCtx c x).key = s.key := rfl
@[simp] theorem setCtx_val : (s.setCtx c x).val = s.val := rfl
@[simp] theorem setCtx_base : (s.setCtx c x).base = s.base := rfl
@[simp] theorem setCtx_busy : (s.setCtx c x).busy = s.busy := rfl
@[simp] theorem setCtx_fault : (s.setCtx c x).fault = s.fault := rfl
@[simp] theorem setCtx_result : (s.setCtx c x).result = s.result := rfl
@[simp] theorem setCtx_errCode : (s.setCtx c x).errCode = s.errCode := rfl
@[simp] theorem setCtx_errInfo : (s.setCtx c x).errInfo = s.errInfo := rfl
@[simp] theorem setCtx_errCmd : (s.setCtx c x).errCmd = s.errCmd := rfl
@[simp] theorem setCtx_results : (s.setCtx c x).results = s.results := rfl
@[simp] theorem setCtx_divKey : (s.setCtx c x).divKey = s.divKey := rfl
@[simp] theorem setCtx_divVal : (s.setCtx c x).divVal = s.divVal := rfl
@[simp] theorem setCtx_ctxs : (s.setCtx c x).ctxs = s.ctxs.set c x := rfl
@[simp] theorem setCtx_lcmd : (s.setCtx c x).lcmd = s.lcmd := rfl
@[simp] theorem setCtx_lkey : (s.setCtx c x).lkey = s.lkey := rfl
@[simp] theorem setCtx_lval : (s.setCtx c x).lval = s.lval := rfl
@[simp] theorem setCtx_lbase : (s.setCtx c x).lbase = s.lbase := rfl
@[simp] theorem setCtx_mem : (s.setCtx c x).mem = s.mem := rfl
@[simp] theorem setCtx_agenda : (s.setCtx c x).agenda = s.agenda := rfl
@[simp] theorem setCtx_readData : (s.setCtx c x).readData = s.readData := rfl
@[simp] theorem setCtx_draws : (s.setCtx c x).draws = s.draws := rfl

end

section
variable (s : State) (m : Memory)

@[simp] theorem setMem_params : (s.setMem m).params = s.params := rfl
@[simp] theorem setMem_cmd : (s.setMem m).cmd = s.cmd := rfl
@[simp] theorem setMem_key : (s.setMem m).key = s.key := rfl
@[simp] theorem setMem_val : (s.setMem m).val = s.val := rfl
@[simp] theorem setMem_base : (s.setMem m).base = s.base := rfl
@[simp] theorem setMem_busy : (s.setMem m).busy = s.busy := rfl
@[simp] theorem setMem_fault : (s.setMem m).fault = s.fault := rfl
@[simp] theorem setMem_result : (s.setMem m).result = s.result := rfl
@[simp] theorem setMem_errCode : (s.setMem m).errCode = s.errCode := rfl
@[simp] theorem setMem_errInfo : (s.setMem m).errInfo = s.errInfo := rfl
@[simp] theorem setMem_errCmd : (s.setMem m).errCmd = s.errCmd := rfl
@[simp] theorem setMem_results : (s.setMem m).results = s.results := rfl
@[simp] theorem setMem_divKey : (s.setMem m).divKey = s.divKey := rfl
@[simp] theorem setMem_divVal : (s.setMem m).divVal = s.divVal := rfl
@[simp] theorem setMem_ctxs : (s.setMem m).ctxs = s.ctxs := rfl
@[simp] theorem setMem_lcmd : (s.setMem m).lcmd = s.lcmd := rfl
@[simp] theorem setMem_lkey : (s.setMem m).lkey = s.lkey := rfl
@[simp] theorem setMem_lval : (s.setMem m).lval = s.lval := rfl
@[simp] theorem setMem_lbase : (s.setMem m).lbase = s.lbase := rfl
@[simp] theorem setMem_mem : (s.setMem m).mem = m := rfl
@[simp] theorem setMem_agenda : (s.setMem m).agenda = s.agenda := rfl
@[simp] theorem setMem_readData : (s.setMem m).readData = s.readData := rfl
@[simp] theorem setMem_draws : (s.setMem m).draws = s.draws := rfl

end

section
variable (s : State) (p : Assoc)

@[simp] theorem setDivider_params : (s.setDivider p).params = s.params := rfl
@[simp] theorem setDivider_cmd : (s.setDivider p).cmd = s.cmd := rfl
@[simp] theorem setDivider_key : (s.setDivider p).key = s.key := rfl
@[simp] theorem setDivider_val : (s.setDivider p).val = s.val := rfl
@[simp] theorem setDivider_base : (s.setDivider p).base = s.base := rfl
@[simp] theorem setDivider_busy : (s.setDivider p).busy = s.busy := rfl
@[simp] theorem setDivider_fault : (s.setDivider p).fault = s.fault := rfl
@[simp] theorem setDivider_result : (s.setDivider p).result = s.result := rfl
@[simp] theorem setDivider_errCode : (s.setDivider p).errCode = s.errCode := rfl
@[simp] theorem setDivider_errInfo : (s.setDivider p).errInfo = s.errInfo := rfl
@[simp] theorem setDivider_errCmd : (s.setDivider p).errCmd = s.errCmd := rfl
@[simp] theorem setDivider_results : (s.setDivider p).results = s.results := rfl
@[simp] theorem setDivider_divKey : (s.setDivider p).divKey = p.key := rfl
@[simp] theorem setDivider_divVal : (s.setDivider p).divVal = p.val := rfl
@[simp] theorem setDivider_ctxs : (s.setDivider p).ctxs = s.ctxs := rfl
@[simp] theorem setDivider_lcmd : (s.setDivider p).lcmd = s.lcmd := rfl
@[simp] theorem setDivider_lkey : (s.setDivider p).lkey = s.lkey := rfl
@[simp] theorem setDivider_lval : (s.setDivider p).lval = s.lval := rfl
@[simp] theorem setDivider_lbase : (s.setDivider p).lbase = s.lbase := rfl
@[simp] theorem setDivider_mem : (s.setDivider p).mem = s.mem := rfl
@[simp] theorem setDivider_agenda : (s.setDivider p).agenda = s.agenda := rfl
@[simp] theorem setDivider_readData : (s.setDivider p).readData = s.readData := rfl
@[simp] theorem setDivider_draws : (s.setDivider p).draws = s.draws := rfl

end

section
variable (s : State)

@[simp] theorem nextDraw_params : (s.nextDraw).params = s.params := rfl
@[simp] theorem nextDraw_cmd : (s.nextDraw).cmd = s.cmd := rfl
@[simp] theorem nextDraw_key : (s.nextDraw).key = s.key := rfl
@[simp] theorem nextDraw_val : (s.nextDraw).val = s.val := rfl
@[simp] theorem nextDraw_base : (s.nextDraw).base = s.base := rfl
@[simp] theorem nextDraw_busy : (s.nextDraw).busy = s.busy := rfl
@[simp] theorem nextDraw_fault : (s.nextDraw).fault = s.fault := rfl
@[simp] theorem nextDraw_result : (s.nextDraw).result = s.result := rfl
@[simp] theorem nextDraw_errCode : (s.nextDraw).errCode = s.errCode := rfl
@[simp] theorem nextDraw_errInfo : (s.nextDraw).errInfo = s.errInfo := rfl
@[simp] theorem nextDraw_errCmd : (s.nextDraw).errCmd = s.errCmd := rfl
@[simp] theorem nextDraw_results : (s.nextDraw).results = s.results := rfl
@[simp] theorem nextDraw_divKey : (s.nextDraw).divKey = s.divKey := rfl
@[simp] theorem nextDraw_divVal : (s.nextDraw).divVal = s.divVal := rfl
@[simp] theorem nextDraw_ctxs : (s.nextDraw).ctxs = s.ctxs := rfl
@[simp] theorem nextDraw_lcmd : (s.nextDraw).lcmd = s.lcmd := rfl
@[simp] theorem nextDraw_lkey : (s.nextDraw).lkey = s.lkey := rfl
@[simp] theorem nextDraw_lval : (s.nextDraw).lval = s.lval := rfl
@[simp] theorem nextDraw_lbase : (s.nextDraw).lbase = s.lbase := rfl
@[simp] theorem nextDraw_mem : (s.nextDraw).mem = s.mem := rfl
@[simp] theorem nextDraw_agenda : (s.nextDraw).agenda = s.agenda := rfl
@[simp] theorem nextDraw_readData : (s.nextDraw).readData = s.readData := rfl
@[simp] theorem nextDraw_draws : (s.nextDraw).draws = s.draws + 1 := rfl

end

section
variable (s : State) (r : Result) (code : ErrCode) (info : BitVec 8) (word : Reg) (vals : List Value)

@[simp] theorem endCommand_params : (s.endCommand r code info word vals).params = s.params := rfl
@[simp] theorem endCommand_cmd : (s.endCommand r code info word vals).cmd = s.cmd := rfl
@[simp] theorem endCommand_key : (s.endCommand r code info word vals).key = s.key := rfl
@[simp] theorem endCommand_val : (s.endCommand r code info word vals).val = s.val := rfl
@[simp] theorem endCommand_base : (s.endCommand r code info word vals).base = s.base := rfl
@[simp] theorem endCommand_busy : (s.endCommand r code info word vals).busy = false := rfl
@[simp] theorem endCommand_fault : (s.endCommand r code info word vals).fault = s.fault := rfl
@[simp] theorem endCommand_result : (s.endCommand r code info word vals).result = r := rfl
@[simp] theorem endCommand_errCode : (s.endCommand r code info word vals).errCode = code := rfl
@[simp] theorem endCommand_errInfo : (s.endCommand r code info word vals).errInfo = info := rfl
@[simp] theorem endCommand_errCmd : (s.endCommand r code info word vals).errCmd = word.extractLsb' 0 32 := rfl
@[simp] theorem endCommand_results : (s.endCommand r code info word vals).results = vals := rfl
@[simp] theorem endCommand_divKey : (s.endCommand r code info word vals).divKey = s.divKey := rfl
@[simp] theorem endCommand_divVal : (s.endCommand r code info word vals).divVal = s.divVal := rfl
@[simp] theorem endCommand_ctxs : (s.endCommand r code info word vals).ctxs = s.ctxs := rfl
@[simp] theorem endCommand_lcmd : (s.endCommand r code info word vals).lcmd = s.lcmd := rfl
@[simp] theorem endCommand_lkey : (s.endCommand r code info word vals).lkey = s.lkey := rfl
@[simp] theorem endCommand_lval : (s.endCommand r code info word vals).lval = s.lval := rfl
@[simp] theorem endCommand_lbase : (s.endCommand r code info word vals).lbase = s.lbase := rfl
@[simp] theorem endCommand_mem : (s.endCommand r code info word vals).mem = s.mem := rfl
@[simp] theorem endCommand_agenda : (s.endCommand r code info word vals).agenda = s.agenda := rfl
@[simp] theorem endCommand_readData : (s.endCommand r code info word vals).readData = s.readData := rfl
@[simp] theorem endCommand_draws : (s.endCommand r code info word vals).draws = s.draws := rfl

end

section
variable (s : State) (code : ErrCode) (info : BitVec 8) (word : Reg)

@[simp] theorem raiseFor_params : (s.raiseFor code info word).params = s.params := rfl
@[simp] theorem raiseFor_cmd : (s.raiseFor code info word).cmd = s.cmd := rfl
@[simp] theorem raiseFor_key : (s.raiseFor code info word).key = s.key := rfl
@[simp] theorem raiseFor_val : (s.raiseFor code info word).val = s.val := rfl
@[simp] theorem raiseFor_base : (s.raiseFor code info word).base = s.base := rfl
@[simp] theorem raiseFor_busy : (s.raiseFor code info word).busy = false := rfl
@[simp] theorem raiseFor_fault : (s.raiseFor code info word).fault = true := rfl
@[simp] theorem raiseFor_result : (s.raiseFor code info word).result = .faulted := rfl
@[simp] theorem raiseFor_errCode : (s.raiseFor code info word).errCode = code := rfl
@[simp] theorem raiseFor_errInfo : (s.raiseFor code info word).errInfo = info := rfl
@[simp] theorem raiseFor_errCmd : (s.raiseFor code info word).errCmd = word.extractLsb' 0 32 := rfl
@[simp] theorem raiseFor_results : (s.raiseFor code info word).results = [] := rfl
@[simp] theorem raiseFor_divKey : (s.raiseFor code info word).divKey = s.divKey := rfl
@[simp] theorem raiseFor_divVal : (s.raiseFor code info word).divVal = s.divVal := rfl
@[simp] theorem raiseFor_ctxs : (s.raiseFor code info word).ctxs = s.ctxs := rfl
@[simp] theorem raiseFor_lcmd : (s.raiseFor code info word).lcmd = s.lcmd := rfl
@[simp] theorem raiseFor_lkey : (s.raiseFor code info word).lkey = s.lkey := rfl
@[simp] theorem raiseFor_lval : (s.raiseFor code info word).lval = s.lval := rfl
@[simp] theorem raiseFor_lbase : (s.raiseFor code info word).lbase = s.lbase := rfl
@[simp] theorem raiseFor_mem : (s.raiseFor code info word).mem = s.mem := rfl
@[simp] theorem raiseFor_agenda : (s.raiseFor code info word).agenda = s.agenda := rfl
@[simp] theorem raiseFor_readData : (s.raiseFor code info word).readData = s.readData := rfl
@[simp] theorem raiseFor_draws : (s.raiseFor code info word).draws = s.draws := rfl

end

section
variable (s : State) (word : Reg)

@[simp] theorem issue_params : (s.issue word).params = s.params := rfl
@[simp] theorem issue_cmd : (s.issue word).cmd = word := rfl
@[simp] theorem issue_key : (s.issue word).key = s.key := rfl
@[simp] theorem issue_val : (s.issue word).val = s.val := rfl
@[simp] theorem issue_base : (s.issue word).base = s.base := rfl
@[simp] theorem issue_busy : (s.issue word).busy = true := rfl
@[simp] theorem issue_fault : (s.issue word).fault = s.fault := rfl
@[simp] theorem issue_result : (s.issue word).result = .none := rfl
@[simp] theorem issue_errCode : (s.issue word).errCode = s.errCode := rfl
@[simp] theorem issue_errInfo : (s.issue word).errInfo = s.errInfo := rfl
@[simp] theorem issue_errCmd : (s.issue word).errCmd = s.errCmd := rfl
@[simp] theorem issue_results : (s.issue word).results = s.results := rfl
@[simp] theorem issue_divKey : (s.issue word).divKey = s.divKey := rfl
@[simp] theorem issue_divVal : (s.issue word).divVal = s.divVal := rfl
@[simp] theorem issue_ctxs : (s.issue word).ctxs = s.ctxs := rfl
@[simp] theorem issue_lcmd : (s.issue word).lcmd = word := rfl
@[simp] theorem issue_lkey : (s.issue word).lkey = s.key := rfl
@[simp] theorem issue_lval : (s.issue word).lval = s.val := rfl
@[simp] theorem issue_lbase : (s.issue word).lbase = s.base := rfl
@[simp] theorem issue_mem : (s.issue word).mem = s.mem := rfl
@[simp] theorem issue_agenda : (s.issue word).agenda = s.agenda := rfl
@[simp] theorem issue_readData : (s.issue word).readData = s.readData := rfl
@[simp] theorem issue_draws : (s.issue word).draws = s.draws := rfl

@[simp] theorem abandon_params : (s.abandon word).params = s.params := rfl
@[simp] theorem abandon_cmd : (s.abandon word).cmd = word := rfl
@[simp] theorem abandon_key : (s.abandon word).key = s.key := rfl
@[simp] theorem abandon_val : (s.abandon word).val = s.val := rfl
@[simp] theorem abandon_base : (s.abandon word).base = s.base := rfl
@[simp] theorem abandon_busy : (s.abandon word).busy = true := rfl
@[simp] theorem abandon_fault : (s.abandon word).fault = true := rfl
@[simp] theorem abandon_result : (s.abandon word).result = .faulted := rfl
@[simp] theorem abandon_errCode : (s.abandon word).errCode = .busy := rfl
@[simp] theorem abandon_errInfo : (s.abandon word).errInfo = 0 := rfl
@[simp] theorem abandon_errCmd : (s.abandon word).errCmd = word.extractLsb' 0 32 := rfl
@[simp] theorem abandon_results : (s.abandon word).results = [] := rfl
@[simp] theorem abandon_divKey : (s.abandon word).divKey = s.divKey := rfl
@[simp] theorem abandon_divVal : (s.abandon word).divVal = s.divVal := rfl
@[simp] theorem abandon_ctxs : (s.abandon word).ctxs = s.ctxs := rfl
@[simp] theorem abandon_lcmd : (s.abandon word).lcmd = s.lcmd := rfl
@[simp] theorem abandon_lkey : (s.abandon word).lkey = s.lkey := rfl
@[simp] theorem abandon_lval : (s.abandon word).lval = s.lval := rfl
@[simp] theorem abandon_lbase : (s.abandon word).lbase = s.lbase := rfl
@[simp] theorem abandon_mem : (s.abandon word).mem = s.mem := rfl
@[simp] theorem abandon_agenda : (s.abandon word).agenda = s.agenda := rfl
@[simp] theorem abandon_readData : (s.abandon word).readData = s.readData := rfl
@[simp] theorem abandon_draws : (s.abandon word).draws = s.draws := rfl

end

/-! ### The ends of a command are `endCommand` and `raiseFor` -/

theorem finishWith_eq (s : State) (r : Result) (vals : List Value) : s.finishWith r vals = s.endCommand r .none 0 s.lcmd vals := rfl

theorem finish_eq (s : State) (r : Result) : s.finish r = s.endCommand r .none 0 s.lcmd [] := rfl

theorem reject_eq (s : State) (code : ErrCode) : s.reject code = s.endCommand .rejected code 0 s.lcmd [] := rfl

theorem raise_eq (s : State) (code : ErrCode) (info : BitVec 8) : s.raise code info = s.raiseFor code info s.lcmd := rfl

/-! ### The context file -/

/-- A context of an index at or above NCTX is not VALID. -/
theorem lt_nctx_of_valid {s : State} {c : Nat} (h : (s.ctx c).valid = true) : c < s.nctx := by
  by_contra hc
  have : s.ctxs.length ≤ c := Nat.le_of_not_lt hc
  rw [ctx, List.getD_eq_default _ _ this] at h
  cases h

theorem ctx_congr {s t : State} (h : t.ctxs = s.ctxs) (c : Nat) : t.ctx c = s.ctx c := by simp [ctx, h]

theorem nctx_congr {s t : State} (h : t.ctxs = s.ctxs) : t.nctx = s.nctx := by simp [nctx, h]

@[simp] theorem nctx_setCtx (s : State) (c : Nat) (x : Ctx) : (s.setCtx c x).nctx = s.nctx := by simp [nctx]

/-- Context `c` takes the new contents, and no other context changes. -/
theorem ctx_setCtx (s : State) (c d : Nat) (x : Ctx) :
    (s.setCtx c x).ctx d = if c = d ∧ c < s.nctx then x else s.ctx d := by
  by_cases hc : c < s.ctxs.length
  · by_cases h : c = d
    · subst h; simp [ctx, nctx, hc]
    · simp [ctx, nctx, h, List.getD_eq_getElem?_getD]
  · simp [ctx, nctx, hc, List.set_eq_of_length_le (Nat.le_of_not_lt hc)]

theorem ctx_setCtx_ne (s : State) {c d : Nat} (x : Ctx) (h : d ≠ c) : (s.setCtx c x).ctx d = s.ctx d := by
  rw [ctx_setCtx, if_neg fun hc => h hc.1.symm]

/-- Every context of the file is `CTX[c]` for some c below NCTX. -/
theorem mem_ctxs {s : State} {x : Ctx} (h : x ∈ s.ctxs) : ∃ c < s.nctx, s.ctx c = x := by
  obtain ⟨c, hc, rfl⟩ := List.getElem_of_mem h
  exact ⟨c, hc, by simp [ctx, hc]⟩

theorem ctx_mem {s : State} {c : Nat} (h : c < s.nctx) : s.ctx c ∈ s.ctxs := by
  have h' : c < s.ctxs.length := h
  simp [ctx, h']

@[simp] theorem buffer_order (s : State) (c : Nat) : (s.buffer c).order = s.params.byteOrder := rfl

@[simp] theorem buffer_base (s : State) (c : Nat) : (s.buffer c).base = (s.ctx c).base.toNat := rfl

/-! ### Unspecified contents -/

/-- Unspecifying buffers changes only memory. -/
theorem unspecifyBuffers_eq (s : State) (cs : List Nat) :
    s.unspecifyBuffers cs = { s with mem := (s.unspecifyBuffers cs).mem } := rfl

/-- Unspecifying contexts changes only the context file. -/
theorem unspecifyCtxs_eq (s : State) (cs : List Nat) : s.unspecifyCtxs cs = { s with ctxs := (s.unspecifyCtxs cs).ctxs } := by
  suffices h : ∀ u : State, cs.foldl (fun u c => u.setCtx c (freeCtx s.params.addrW s.draws c)) u =
      { u with ctxs := (cs.foldl (fun u c => u.setCtx c (freeCtx s.params.addrW s.draws c)) u).ctxs } from h s
  induction cs with
  | nil => intro u; rfl
  | cons c rest ih => intro u; rw [List.foldl_cons, ih]; rfl

theorem nctx_unspecifyCtxs (s : State) (cs : List Nat) : (s.unspecifyCtxs cs).nctx = s.nctx := by
  suffices h : ∀ u : State, (cs.foldl (fun u c => u.setCtx c (freeCtx s.params.addrW s.draws c)) u).nctx = u.nctx from h s
  induction cs with
  | nil => intro u; rfl
  | cons c rest ih => intro u; rw [List.foldl_cons, ih, nctx_setCtx]

/-- A context that is not unspecified keeps its fields. -/
theorem ctx_unspecifyCtxs (s : State) {cs : List Nat} {d : Nat} (h : d ∉ cs) : (s.unspecifyCtxs cs).ctx d = s.ctx d := by
  suffices g : ∀ u : State, (cs.foldl (fun u c => u.setCtx c (freeCtx s.params.addrW s.draws c)) u).ctx d = u.ctx d from g s
  induction cs with
  | nil => intro u; rfl
  | cons c rest ih =>
    intro u
    rw [List.foldl_cons, ih (fun hd => h (by simp [hd])), ctx_setCtx_ne _ _ (fun hd => h (by simp [hd]))]

/-- Unspecifying changes memory, contexts and the count of draws, and nothing else. -/
theorem unspecify_eq (s : State) (cs : List Nat) :
    s.unspecify cs = { s with ctxs := (s.unspecify cs).ctxs, mem := (s.unspecify cs).mem, draws := s.draws + 1 } := by
  unfold unspecify
  rw [unspecifyCtxs_eq]
  rfl

@[simp] theorem unspecify_mem (s : State) (cs : List Nat) : (s.unspecify cs).mem = (s.unspecifyBuffers cs).mem := by
  unfold unspecify
  rw [unspecifyCtxs_eq]
  rfl

theorem nctx_unspecify (s : State) (cs : List Nat) : (s.unspecify cs).nctx = s.nctx :=
  nctx_unspecifyCtxs (s.unspecifyBuffers cs) cs

theorem ctx_unspecify (s : State) {cs : List Nat} {d : Nat} (h : d ∉ cs) : (s.unspecify cs).ctx d = s.ctx d :=
  ctx_unspecifyCtxs (s.unspecifyBuffers cs) h

/-- The context file after unspecifying: it depends on the parameters, the draws and the context file alone. -/
theorem unspecify_ctxs (s : State) (cs : List Nat) :
    (s.unspecify cs).ctxs = cs.foldl (fun l c => l.set c (freeCtx s.params.addrW s.draws c)) s.ctxs := by
  suffices h : ∀ u : State, (cs.foldl (fun u c => u.setCtx c (freeCtx s.params.addrW s.draws c)) u).ctxs =
      cs.foldl (fun l c => l.set c (freeCtx s.params.addrW s.draws c)) u.ctxs from h (s.unspecifyBuffers cs)
  induction cs with
  | nil => intro u; rfl
  | cons c rest ih => intro u; rw [List.foldl_cons, List.foldl_cons, ih]; rfl

/-- The stop of the engine changes BUSY, memory, contexts and the count of draws, and nothing else (R166). -/
theorem stopEngine_eq (s : State) :
    s.stopEngine = { s with
      busy := false, ctxs := s.stopEngine.ctxs, mem := s.stopEngine.mem, draws := s.draws + 1 } := by
  unfold stopEngine
  rw [unspecify_eq]

@[simp] theorem stopEngine_params (s : State) : s.stopEngine.params = s.params := by
  unfold stopEngine; rw [unspecify_eq]

@[simp] theorem stopEngine_cmd (s : State) : s.stopEngine.cmd = s.cmd := by
  unfold stopEngine; rw [unspecify_eq]

@[simp] theorem stopEngine_key (s : State) : s.stopEngine.key = s.key := by
  unfold stopEngine; rw [unspecify_eq]

@[simp] theorem stopEngine_val (s : State) : s.stopEngine.val = s.val := by
  unfold stopEngine; rw [unspecify_eq]

@[simp] theorem stopEngine_base (s : State) : s.stopEngine.base = s.base := by
  unfold stopEngine; rw [unspecify_eq]

@[simp] theorem stopEngine_busy (s : State) : s.stopEngine.busy = false := by
  unfold stopEngine; rfl

@[simp] theorem stopEngine_fault (s : State) : s.stopEngine.fault = s.fault := by
  unfold stopEngine; rw [unspecify_eq]

@[simp] theorem stopEngine_result (s : State) : s.stopEngine.result = s.result := by
  unfold stopEngine; rw [unspecify_eq]

@[simp] theorem stopEngine_errCode (s : State) : s.stopEngine.errCode = s.errCode := by
  unfold stopEngine; rw [unspecify_eq]

@[simp] theorem stopEngine_errInfo (s : State) : s.stopEngine.errInfo = s.errInfo := by
  unfold stopEngine; rw [unspecify_eq]

@[simp] theorem stopEngine_errCmd (s : State) : s.stopEngine.errCmd = s.errCmd := by
  unfold stopEngine; rw [unspecify_eq]

@[simp] theorem stopEngine_results (s : State) : s.stopEngine.results = s.results := by
  unfold stopEngine; rw [unspecify_eq]

@[simp] theorem stopEngine_divKey (s : State) : s.stopEngine.divKey = s.divKey := by
  unfold stopEngine; rw [unspecify_eq]

@[simp] theorem stopEngine_divVal (s : State) : s.stopEngine.divVal = s.divVal := by
  unfold stopEngine; rw [unspecify_eq]

@[simp] theorem stopEngine_ctxs (s : State) : s.stopEngine.ctxs = (s.unspecify s.namedCtxs).ctxs := by
  unfold stopEngine; rfl

@[simp] theorem stopEngine_lcmd (s : State) : s.stopEngine.lcmd = s.lcmd := by
  unfold stopEngine; rw [unspecify_eq]

@[simp] theorem stopEngine_lkey (s : State) : s.stopEngine.lkey = s.lkey := by
  unfold stopEngine; rw [unspecify_eq]

@[simp] theorem stopEngine_lval (s : State) : s.stopEngine.lval = s.lval := by
  unfold stopEngine; rw [unspecify_eq]

@[simp] theorem stopEngine_lbase (s : State) : s.stopEngine.lbase = s.lbase := by
  unfold stopEngine; rw [unspecify_eq]

@[simp] theorem stopEngine_mem (s : State) : s.stopEngine.mem = (s.unspecifyBuffers s.namedCtxs).mem := by
  unfold stopEngine; simp only [unspecify_mem]

@[simp] theorem stopEngine_agenda (s : State) : s.stopEngine.agenda = s.agenda := by
  unfold stopEngine; rw [unspecify_eq]

@[simp] theorem stopEngine_readData (s : State) : s.stopEngine.readData = s.readData := by
  unfold stopEngine; rw [unspecify_eq]

@[simp] theorem stopEngine_draws (s : State) : s.stopEngine.draws = s.draws + 1 := by
  unfold stopEngine; rw [unspecify_eq]

/-- A reset leaves the parameters, the number of contexts and the model's own agenda and read data as they are. -/
theorem hardReset_eq (s : State) :
    s.hardReset = { s with
      cmd := 0, key := 0, val := 0, base := 0, busy := false, fault := false, result := .none
      errCode := .none, errInfo := 0, errCmd := 0, results := [], divKey := 0, divVal := 0
      ctxs := s.ctxs.map fun _ => Ctx.unbound
      lcmd := Config.freeReg s.draws 0, lkey := Config.freeReg s.draws 1
      lval := Config.freeReg s.draws 2, lbase := Config.freeReg s.draws 3
      mem := if s.busy then (s.unspecifyBuffers s.namedCtxs).mem else s.mem
      draws := s.draws + 1 } := by
  unfold hardReset
  cases s.busy <;> rfl

end Sys2Proof.Machine.State
end

