-- ==== Sys2Proof/Laws/Commands.lean ====
section
/-! SUPPORT. What each meaning can answer, said once: every command ends in a next state, which is one of the ends the spec lists for it. -/

namespace Sys2Proof.Machine

/-- Every command ends in a next state (R162). -/
theorem exec_next (i : Instr) (s : State) : ∃ t, exec i s = .next t := by
  cases i <;> exact ⟨_, rfl⟩

/-- The ends of BIND (R120). -/
theorem execBind_cases {c : Nat} {s t : State} (h : exec (.bind c) s = .next t) :
    (s.nctx ≤ c ∧ t = s.raise .badCtx 0) ∨
    (c < s.nctx ∧ baseInRange s.params.addrW s.lbase = false ∧ t = s.raise .badBase 0) ∨
    (c < s.nctx ∧ baseInRange s.params.addrW s.lbase = true ∧
      t = (s.setCtx c ⟨true, State.truncAddr s.params.addrW s.lbase, .normal, 0, 0⟩).finish .success) := by
  simp only [exec, execBind, Host.Outcome.next.injEq] at h
  split at h
  · exact .inl ⟨‹_›, h.symm⟩
  · cases hb : baseInRange s.params.addrW s.lbase <;> simp only [hb] at h
    · exact .inr (.inl ⟨by omega, rfl, h.symm⟩)
    · exact .inr (.inr ⟨by omega, rfl, h.symm⟩)

/-- The ends of UNBIND (R123). -/
theorem execUnbind_cases {c : Nat} {s t : State} (h : exec (.unbind c) s = .next t) :
    (s.nctx ≤ c ∧ t = s.raise .badCtx 0) ∨
    (c < s.nctx ∧ t = (s.setCtx c ⟨false, 0, .normal, 0, 0⟩).finish .success) := by
  simp only [exec, execUnbind, Host.Outcome.next.injEq] at h
  split at h
  · exact .inl ⟨‹_›, h.symm⟩
  · exact .inr ⟨by omega, h.symm⟩

/-- The ends of INSERT (R125). -/
theorem execInsert_cases {c : Nat} {s t : State} (h : exec (.insert c) s = .next t) :
    (s.nctx ≤ c ∧ t = s.raise .badCtx 0) ∨
    (c < s.nctx ∧ (s.ctx c).valid = false ∧ t = s.raise .unbound 0) ∨
    ((s.ctx c).valid = true ∧ (s.ctx c).mode = .full ∧ t = s.raise .insertFull 0) ∨
    ((s.ctx c).valid = true ∧ (s.ctx c).mode = .normal ∧ valueLegal s.lval = false ∧ t = s.raise .badValue 0) ∨
    ((s.ctx c).valid = true ∧ (s.ctx c).mode = .normal ∧ valueLegal s.lval = true ∧
      ((∃ m, insertCore (s.buffer c) s.params.maxRounds s.mem s.operand = .success m ∧ t = (s.setMem m).finish .success) ∨
        ∃ m p, insertCore (s.buffer c) s.params.maxRounds s.mem s.operand = .full m p ∧
          t = ((s.setMem m).setCtx c (markFull (s.ctx c) p)).finish .full)) := by
  simp only [exec, execInsert, Host.Outcome.next.injEq] at h
  split at h
  · exact .inl ⟨‹_›, h.symm⟩
  · cases hv : (s.ctx c).valid <;> simp only [hv] at h
    · exact .inr (.inl ⟨by omega, rfl, h.symm⟩)
    · cases hm : (s.ctx c).mode <;> simp [hm] at h
      · cases hl : valueLegal s.lval <;> simp [hl] at h
        · exact .inr (.inr (.inr (.inl ⟨rfl, rfl, rfl, h.symm⟩)))
        · refine .inr (.inr (.inr (.inr ⟨rfl, rfl, rfl, ?_⟩)))
          split at h
          · exact .inl ⟨_, ‹_›, h.symm⟩
          · exact .inr ⟨_, _, ‹_›, h.symm⟩
      · exact .inr (.inr (.inl ⟨rfl, rfl, h.symm⟩))

/-- The ends of LOOKUP (R135). -/
theorem execLookup_cases {c : Nat} {s t : State} (h : exec (.lookup c) s = .next t) :
    (s.nctx ≤ c ∧ t = s.raise .badCtx 0) ∨
    (c < s.nctx ∧ (s.ctx c).valid = false ∧ t = s.raise .unbound 0) ∨
    ((s.ctx c).valid = true ∧
      t = (s.finishWith (if lookupMatches (s.buffer c) s.mem s.lkey = [] then .notFound else .success)
        (shuffle s.draws (lookupMatches (s.buffer c) s.mem s.lkey))).nextDraw) := by
  simp only [exec, execLookup, Host.Outcome.next.injEq] at h
  split at h
  · exact .inl ⟨‹_›, h.symm⟩
  · cases hv : (s.ctx c).valid <;> simp only [hv] at h
    · exact .inr (.inl ⟨by omega, rfl, h.symm⟩)
    · exact .inr (.inr ⟨rfl, h.symm⟩)

/-- The ends of REMOVE (R140). -/
theorem execRemove_cases {c : Nat} {s t : State} (h : exec (.remove c) s = .next t) :
    (s.nctx ≤ c ∧ t = s.raise .badCtx 0) ∨
    (c < s.nctx ∧ (s.ctx c).valid = false ∧ t = s.raise .unbound 0) ∨
    ((s.ctx c).valid = true ∧ valueLegal s.lval = false ∧ t = s.raise .badValue 0) ∨
    ((s.ctx c).valid = true ∧ valueLegal s.lval = true ∧
      t = (s.setMem (removeCore s.params.removePolicy (s.buffer c) s.mem s.operand).1).finish
        (if (removeCore s.params.removePolicy (s.buffer c) s.mem s.operand).2 then .success else .notFound)) := by
  simp only [exec, execRemove, Host.Outcome.next.injEq] at h
  split at h
  · exact .inl ⟨‹_›, h.symm⟩
  · cases hv : (s.ctx c).valid <;> simp only [hv] at h
    · exact .inr (.inl ⟨by omega, rfl, h.symm⟩)
    · cases hl : valueLegal s.lval <;> simp [hl] at h
      · exact .inr (.inr (.inl ⟨rfl, rfl, h.symm⟩))
      · exact .inr (.inr (.inr ⟨rfl, rfl, h.symm⟩))

/-- The checks of SPLIT that precede every buffer access (R148, R167). -/
structure SplitChecks (s : State) (c ca cb : Nat) : Prop where
  lt    : c < s.nctx ∧ ca < s.nctx ∧ cb < s.nctx
  ne    : c ≠ ca ∧ c ≠ cb ∧ ca ≠ cb
  valid : (s.ctx c).valid = true ∧ (s.ctx ca).valid = true ∧ (s.ctx cb).valid = true
  mode  : (s.ctx ca).mode = .normal ∧ (s.ctx cb).mode = .normal
  apart : overlap (s.buffer c) (s.buffer ca) = false ∧ overlap (s.buffer c) (s.buffer cb) = false ∧
    overlap (s.buffer ca) (s.buffer cb) = false

/-- SPLIT with its checks passed is `splitCore`. -/
theorem execSplit_of_checks {s : State} {c ca cb : Nat} (h : SplitChecks s c ca cb) :
    exec (.split c ca cb) s = .next (splitCore c ca cb s) := by
  simp only [exec, execSplit]
  rw [if_neg (by have := h.lt; omega), if_neg (by have := h.ne; omega), if_neg (by simp [h.valid]),
    if_neg (by simp [h.mode]), if_neg (by simp [h.apart])]

/-- The ends of SPLIT (R148). -/
theorem execSplit_cases {c ca cb : Nat} {s t : State} (h : exec (.split c ca cb) s = .next t) :
    ((s.nctx ≤ c ∨ s.nctx ≤ ca ∨ s.nctx ≤ cb) ∧ t = s.raise .badCtx 0) ∨
    ((c = ca ∨ c = cb ∨ ca = cb) ∧ t = s.raise .badCtx 1) ∨
    (((s.ctx c).valid = false ∨ (s.ctx ca).valid = false ∨ (s.ctx cb).valid = false) ∧ t = s.raise .unbound 0) ∨
    (((s.ctx ca).mode = .full ∨ (s.ctx cb).mode = .full) ∧ t = s.raise .destState 0) ∨
    ((overlap (s.buffer c) (s.buffer ca) = true ∨ overlap (s.buffer c) (s.buffer cb) = true ∨ overlap (s.buffer ca) (s.buffer cb) = true) ∧
      t = s.raise .overlap 0) ∨
    (SplitChecks s c ca cb ∧ t = splitCore c ca cb s) := by
  simp only [exec, execSplit, Host.Outcome.next.injEq] at h
  split at h
  · exact .inl ⟨‹_›, h.symm⟩
  split at h
  · exact .inr (.inl ⟨‹_›, h.symm⟩)
  split at h
  · rename_i hv
    refine .inr (.inr (.inl ⟨?_, h.symm⟩))
    revert hv
    cases (s.ctx c).valid <;> cases (s.ctx ca).valid <;> cases (s.ctx cb).valid <;> simp
  split at h
  · exact .inr (.inr (.inr (.inl ⟨‹_›, h.symm⟩)))
  split at h
  · rename_i h5
    refine .inr (.inr (.inr (.inr (.inl ⟨?_, h.symm⟩))))
    simpa only [Bool.or_eq_true, or_assoc] using h5
  · rename_i h1 h2 h3 h4 h5
    have mode : ∀ x : Mode, ¬x = .full → x = .normal := by intro x; cases x <;> simp
    refine .inr (.inr (.inr (.inr (.inr ⟨⟨by omega, by omega, ?_, ?_, ?_⟩, h.symm⟩))))
    · revert h3
      cases (s.ctx c).valid <;> cases (s.ctx ca).valid <;> cases (s.ctx cb).valid <;> simp
    · exact ⟨mode _ fun hf => h4 (.inl hf), mode _ fun hf => h4 (.inr hf)⟩
    · revert h5
      cases overlap (s.buffer c) (s.buffer ca) <;> cases overlap (s.buffer c) (s.buffer cb) <;>
        cases overlap (s.buffer ca) (s.buffer cb) <;> simp

/-- The ends of SPLIT after its checks (R148): nothing collected, a destination FULL, or both halves distributed. -/
theorem splitCore_cases (c ca cb : Nat) (s : State) :
    (sortPairs (collect s c) = [] ∧ splitCore c ca cb s = s.reject .splitEmpty) ∨
    (∃ upper : Bool,
      distribute s.params.maxRounds (s.buffer ca) (s.buffer cb) ((sortPairs (collect s c)).length / 2) 0 (sortPairs (collect s c)) s.mem =
          .destFull upper ∧
        splitCore c ca cb s = (s.unspecify [ca, cb]).raise .splitDestFull (if upper then 1 else 0)) ∨
    (∃ m p, sortPairs (collect s c) ≠ [] ∧ (sortPairs (collect s c))[(sortPairs (collect s c)).length / 2]? = some p ∧
      distribute s.params.maxRounds (s.buffer ca) (s.buffer cb) ((sortPairs (collect s c)).length / 2) 0 (sortPairs (collect s c)) s.mem =
          .done m ∧
        splitCore c ca cb s = ((s.setMem m).setDivider p).finish .success) := by
  unfold splitCore
  generalize sortPairs (collect s c) = l
  by_cases hl : l = []
  · exact .inl ⟨hl, by simp [hl]⟩
  · have hpos : 0 < l.length := List.length_pos_iff.mpr hl
    have hget : l[l.length / 2]? = some (l.getD (l.length / 2) default) := by
      have hlt : l.length / 2 < l.length := by omega
      simp [hlt]
    simp only [show l.length ≠ 0 by omega, if_false]
    cases hd : distribute s.params.maxRounds (s.buffer ca) (s.buffer cb) (l.length / 2) 0 l s.mem with
    | destFull upper => exact .inr (.inl ⟨upper, rfl, rfl⟩)
    | done m => exact .inr (.inr ⟨m, _, hl, hget, rfl, rfl⟩)

/-- What no command changes (R90): the parameters, the host's registers, the latched copy, the number of contexts and the model's own agenda and
read data; and every command ends with BUSY = 0 and its own word in ERRCMD (R31). -/
theorem exec_frame {i : Instr} {s t : State} (h : exec i s = .next t) :
    t = { s with
      busy := false, fault := t.fault, result := t.result, errCode := t.errCode, errInfo := t.errInfo
      errCmd := s.lcmd.extractLsb' 0 32, results := t.results, divKey := t.divKey, divVal := t.divVal
      ctxs := t.ctxs, mem := t.mem, draws := t.draws } ∧ t.nctx = s.nctx := by
  cases i with
  | bind c => rcases execBind_cases h with ⟨_, rfl⟩ | ⟨_, _, rfl⟩ | ⟨_, _, rfl⟩ <;> exact ⟨rfl, by simp [State.raise_eq, State.finish_eq, State.nctx]⟩
  | unbind c => rcases execUnbind_cases h with ⟨_, rfl⟩ | ⟨_, rfl⟩ <;> exact ⟨rfl, by simp [State.raise_eq, State.finish_eq, State.nctx]⟩
  | insert c =>
    rcases execInsert_cases h with ⟨_, rfl⟩ | ⟨_, _, rfl⟩ | ⟨_, _, rfl⟩ | ⟨_, _, _, rfl⟩ | ⟨_, _, _, ⟨m, _, rfl⟩ | ⟨m, p, _, rfl⟩⟩ <;>
      exact ⟨rfl, by simp [State.raise_eq, State.finish_eq, State.nctx]⟩
  | lookup c => rcases execLookup_cases h with ⟨_, rfl⟩ | ⟨_, _, rfl⟩ | ⟨_, rfl⟩ <;> exact ⟨rfl, rfl⟩
  | remove c =>
    rcases execRemove_cases h with ⟨_, rfl⟩ | ⟨_, _, rfl⟩ | ⟨_, _, rfl⟩ | ⟨_, _, rfl⟩ <;> exact ⟨rfl, rfl⟩
  | split c ca cb =>
    rcases execSplit_cases h with ⟨_, rfl⟩ | ⟨_, rfl⟩ | ⟨_, rfl⟩ | ⟨_, rfl⟩ | ⟨_, rfl⟩ | ⟨_, rfl⟩
    iterate 5 exact ⟨rfl, rfl⟩
    rcases splitCore_cases c ca cb s with ⟨_, e⟩ | ⟨u, _, e⟩ | ⟨m, p, _, _, _, e⟩ <;> rw [e]
    · exact ⟨rfl, rfl⟩
    · refine ⟨?_, s.nctx_unspecify [ca, cb]⟩
      rw [State.unspecify_eq]; rfl
    · exact ⟨rfl, rfl⟩

end Sys2Proof.Machine
end

