-- ==== Sys2Proof/Laws/Occupancy.lean ====
section
/-! SUPPORT. How often a buffer holds an association, and what a slot write and an insertion do to that number (R133). -/

namespace Sys2Proof.Machine

/-- Every slot of a buffer once, as (table, bucket, slot). -/
@[irreducible] def allSlots : List (Table × BucketIx × Nat) :=
  [Table.t1, Table.t2].flatMap fun t => (List.range 65536).flatMap fun b => (List.range 5).map fun i => (t, BitVec.ofNat 16 b, i)

theorem mem_allSlots {t : Table} {b : BucketIx} {i : Nat} : (t, b, i) ∈ allSlots ↔ i < 5 := by
  have hb := b.isLt
  have htab : t ∈ [Table.t1, Table.t2] := by cases t <;> simp
  constructor
  · unfold allSlots
    intro h
    obtain ⟨_, _, h⟩ := List.mem_flatMap.mp h
    obtain ⟨_, _, h⟩ := List.mem_flatMap.mp h
    obtain ⟨_, hi, h⟩ := List.mem_map.mp h
    cases h; exact List.mem_range.mp hi
  · unfold allSlots
    intro h
    refine List.mem_flatMap.mpr ⟨t, htab, List.mem_flatMap.mpr ⟨b.toNat, List.mem_range.mpr (by omega), ?_⟩⟩
    exact List.mem_map.mpr ⟨i, List.mem_range.mpr h, by rw [BitVec.ofNat_toNat, BitVec.setWidth_eq]⟩

theorem nodup_allSlots : allSlots.Nodup := by
  unfold allSlots
  refine List.nodup_flatMap.mpr ⟨fun t _ => List.nodup_flatMap.mpr ⟨fun b _ => ?_, ?_⟩, ?_⟩
  · refine List.Nodup.map (fun i j h => ?_) List.nodup_range
    injection h with _ h; injection h
  · refine (List.nodup_range (n := 65536)).pairwise_of_forall_ne fun b hb c hc hbc x hx hy => ?_
    obtain ⟨i, -, rfl⟩ := List.mem_map.mp hx
    obtain ⟨j, -, h⟩ := List.mem_map.mp hy
    have hb := List.mem_range.mp hb
    have hc := List.mem_range.mp hc
    have heq : BitVec.ofNat 16 c = BitVec.ofNat 16 b := by injection h with _ h; injection h
    have := congrArg BitVec.toNat heq
    rw [BitVec.toNat_ofNat, BitVec.toNat_ofNat] at this
    omega
  · refine List.pairwise_pair.mpr fun x hx hy => ?_
    obtain ⟨_, -, hx⟩ := List.mem_flatMap.mp hx
    obtain ⟨_, -, hx⟩ := List.mem_map.mp hx
    obtain ⟨_, -, hy⟩ := List.mem_flatMap.mp hy
    obtain ⟨_, -, hy⟩ := List.mem_map.mp hy
    rw [← hx] at hy
    injection hy with h; cases h

/-- The slot is live and decodes to `p` (R151). -/
def holds (g : Buffer) (m : Memory) (p : Assoc) (x : Table × BucketIx × Nat) : Bool :=
  decide (readSlot g m x.1 x.2.1 x.2.2 ≠ emptyEntry ∧ decodeSlot x.1 x.2.1 (readSlot g m x.1 x.2.1 x.2.2) = p)

/-- In how many slots of the buffer `p` is stored. -/
def occurrences (g : Buffer) (m : Memory) (p : Assoc) : Nat := allSlots.countP (holds g m p)

/-- Changing a predicate at one element of a list without repeats. -/
theorem countP_change {α : Type} {l : List α} (hl : l.Nodup) {P Q : α → Bool} {x : α} (hx : x ∈ l) (h : ∀ y ∈ l, y ≠ x → P y = Q y) :
    l.countP P + (Q x).toNat = l.countP Q + (P x).toNat := by
  induction l with
  | nil => cases hx
  | cons y rest ih =>
    have hn := List.nodup_cons.mp hl
    have val : ∀ (R : α → Bool) (z : α) (l : List α), (z :: l).countP R = l.countP R + (R z).toNat := by
      intro R z l; rw [List.countP_cons]; cases R z <;> rfl
    rw [val, val]
    by_cases hxy : x = y
    · subst hxy
      have : rest.countP P = rest.countP Q :=
        List.countP_congr fun z hz => by rw [h z (by simp [hz]) (fun hzx => hn.1 (hzx ▸ hz))]
      omega
    · have hx' : x ∈ rest := by simpa [hxy] using hx
      have := ih hn.2 hx' fun z hz hzx => h z (by simp [hz]) hzx
      have := h y (by simp) (fun hyx => hxy hyx.symm)
      rw [this]; omega

/-- A slot write takes out what the slot held and puts in what it now holds. -/
theorem occurrences_writeSlot (g : Buffer) (m : Memory) (t : Table) (b : BucketIx) {i : Nat} (hi : i < 5) (e : Entry) (p : Assoc) :
    occurrences g (writeSlot g m t b i e) p + (decide (readSlot g m t b i ≠ emptyEntry ∧ decodeSlot t b (readSlot g m t b i) = p)).toNat =
      occurrences g m p + (decide (e ≠ emptyEntry ∧ decodeSlot t b e = p)).toNat := by
  have h := countP_change nodup_allSlots (P := holds g (writeSlot g m t b i e) p) (Q := holds g m p) (x := (t, b, i)) (mem_allSlots.mpr hi)
    (fun y hy hne => by
      obtain ⟨t', b', i'⟩ := y
      have hi' := mem_allSlots.mp hy
      have : ¬(t' = t ∧ b' = b ∧ i' = i) := fun h => hne (by rw [h.1, h.2.1, h.2.2])
      simp only [holds, readSlot_writeSlot g m e hi hi', if_neg this])
  simpa only [holds, occurrences, readSlot_writeSlot g m e hi hi, and_self, if_true] using h

/-- An insertion's left-over association, if it has one. -/
def Insertion.leftOver : Insertion → Option Assoc
  | .success _ => none
  | .full _ p => some p

/-- Placing a pair with a nonzero value in a live or empty slot of its bucket (R127, R128). -/
theorem occurrences_place (g : Buffer) (m : Memory) (t : Table) (q : Assoc) {i : Nat} (hi : i < 5) {p : Assoc} (hp : p.val ≠ 0) :
    occurrences g (writeSlot g m t (index t q.key) i (enc t q)) p +
        (decide (readSlot g m t (index t q.key) i ≠ emptyEntry ∧ decodeSlot t (index t q.key) (readSlot g m t (index t q.key) i) = p)).toNat =
      occurrences g m p + (decide (q = p)).toNat := by
  rw [occurrences_writeSlot g m t _ hi, decodeSlot_enc]
  congr 2
  refine decide_eq_decide.mpr ⟨fun h => h.2, fun h => ⟨?_, h⟩⟩
  subst h
  exact ne_emptyEntry_of_val (t := t) (b := index t q.key) (by rw [decodeSlot_enc]; exact hp)

/-- The displacement rounds keep every association of nonzero value, but for the one that is left over (R133). -/
theorem occurrences_displace (g : Buffer) (n : Nat) (m : Memory) (t : Table) (q : Assoc) {p : Assoc} (hp : p.val ≠ 0) :
    occurrences g (displace g n m t q).memory p + (decide ((displace g n m t q).leftOver = some p)).toNat =
      occurrences g m p + (decide (q = p)).toNat := by
  induction n generalizing m t q with
  | zero => simp [displace, Insertion.memory, Insertion.leftOver]
  | succ n ih =>
    have h := occurrences_place g m t q (show 0 < 5 by decide) hp
    simp only [displace]
    split
    · rename_i he
      rw [isEmpty_iff] at he
      simpa [he, Insertion.memory, Insertion.leftOver] using h
    · rename_i he
      rw [isEmpty_iff] at he
      rw [ih, ← h]
      simp [he]

/-- An insertion keeps every association of nonzero value and adds its own, but for the one that is left over (R133). -/
theorem occurrences_insertCore (g : Buffer) (rounds : Nat) (m : Memory) (q : Assoc) {p : Assoc} (hp : p.val ≠ 0) :
    occurrences g (insertCore g rounds m q).memory p + (decide ((insertCore g rounds m q).leftOver = some p)).toNat =
      occurrences g m p + (decide (q = p)).toNat := by
  have placed : ∀ (t : Table) (m' : Memory), placeIn g m t q = some m' → occurrences g m' p = occurrences g m p + (decide (q = p)).toNat := by
    intro t m' h
    obtain ⟨i, hi, rfl⟩ := Option.map_eq_some_iff.mp h
    have hi5 : i < 5 := by simpa using List.mem_of_find?_eq_some hi
    have he : readSlot g m t (index t q.key) i = emptyEntry := (isEmpty_iff _).mp (by simpa using List.find?_some hi)
    have h := occurrences_place g m t q hi5 hp
    simpa [he] using h
  unfold insertCore
  split
  · simpa [Insertion.memory, Insertion.leftOver] using placed .t1 _ ‹_›
  · split
    · simpa [Insertion.memory, Insertion.leftOver] using placed .t2 _ ‹_›
    · exact occurrences_displace g rounds m .t1 q hp

end Sys2Proof.Machine
end

