-- ==== Sys2Proof/Laws/PerInstr.lean ====
section
/-! SUPPORT. Statements about every instruction as syntax, one lemma per constructor. -/

namespace Sys2Proof.Laws.WordShape

/-- The bits of the instruction's format that may be nonzero: [7:0] for the C-form, [15:0] for the S-form (R88). -/
def width : Instr → Nat
  | .bind _ => 8
  | .unbind _ => 8
  | .insert _ => 8
  | .lookup _ => 8
  | .remove _ => 8
  | .split _ _ _ => 16

/-- A well-formed instruction's word has the instruction's opcode in [3:0] and 0 in every must-be-0 bit of its format (R88). -/
def Statement (i : Instr) : Prop := i.WellFormed → opField (encode i) = i.op ∧ (encode i).toNat < 2 ^ width i

/-- The word of a C-form command. -/
theorem cForm {op c : Nat} (hop : op < 16) (hc : fitsField c = true) :
    opField (BitVec.ofNat 64 (op + 16 * c + 256 * 0 + 4096 * 0)) = op ∧
      (BitVec.ofNat 64 (op + 16 * c + 256 * 0 + 4096 * 0)).toNat < 2 ^ 8 := by
  have := of_decide_eq_true hc
  rw [opField_eq, BitVec.toNat_ofNat]; omega

theorem bind (c : Nat) : Statement (.bind c) := cForm (op := 1) (by decide)

theorem unbind (c : Nat) : Statement (.unbind c) := cForm (op := 2) (by decide)

theorem insert (c : Nat) : Statement (.insert c) := cForm (op := 3) (by decide)

theorem lookup (c : Nat) : Statement (.lookup c) := cForm (op := 4) (by decide)

theorem remove (c : Nat) : Statement (.remove c) := cForm (op := 5) (by decide)

theorem split (c ca cb : Nat) : Statement (.split c ca cb) := by
  intro h
  simp only [Instr.WellFormed, Instr.wellFormed, fitsField, Bool.and_eq_true, decide_eq_true_eq] at h
  simp only [opField_eq, encode, Instr.op, Instr.fields, width, BitVec.toNat_ofNat]; omega

end Sys2Proof.Laws.WordShape
end

