-- ==== Sys2Proof/Laws/Registers.lean ====
section
/-! SUPPORT. The register window: which register an offset names, what a read or a write of it can do, and the images as numbers. -/

namespace Sys2Proof.Machine

/-- An aligned 64-bit write is the register's write (R23). -/
theorem hostStep_write (s : State) {off : Nat} (v : Reg) (h : off % 8 = 0) :
    hostStep (.writeReg off 8 v) s = .next (s.hostWriteReg (regAt s.nctx off) v) := by simp [hostStep, regAccessOk, h]

/-- An aligned 64-bit read is the register's read (R23). -/
theorem hostStep_read (s : State) {off : Nat} (h : off % 8 = 0) :
    hostStep (.readReg off 8) s = .next (s.hostReadReg (regAt s.nctx off)) := by simp [hostStep, regAccessOk, h]

/-- The read-only and unmapped registers. -/
def RegName.readOnly (r : RegName) : Prop := r ≠ .cmd ∧ r ≠ .key ∧ r ≠ .val ∧ r ≠ .base

theorem ctxRegAt_readOnly (n byte : Nat) : (ctxRegAt n byte).readOnly := by
  unfold ctxRegAt RegName.readOnly; split_ifs <;> simp

/-- Every offset from STATUS on is read-only or unmapped (10_state section 2). -/
theorem regAt_readOnly {n off : Nat} (h : 0x020 ≤ off) : (regAt n off).readOnly := by
  have simple : ∀ (p : Prop) [Decidable p] (r x : RegName), r.readOnly → x.readOnly → (if p then r else x).readOnly := by
    intro p _ r x hr hx; split <;> assumption
  unfold regAt
  rw [if_neg (by omega), if_neg (by omega), if_neg (by omega), if_neg (by omega)]
  iterate 6 refine simple _ _ _ (by simp [RegName.readOnly]) ?_
  refine simple _ _ _ (by simp [RegName.readOnly]) (simple _ _ _ (by simp [RegName.readOnly]) ?_)
  exact simple _ _ _ (ctxRegAt_readOnly _ _) (by simp [RegName.readOnly])

/-- The result registers (10_state section 2). -/
theorem regAt_res {n i : Nat} (h : i < 10) : regAt n (0x050 + 8 * i) = .res i := by
  unfold regAt
  repeat rw [if_neg (by omega)]
  rw [if_pos (by omega), show (0x050 + 8 * i - 0x050) / 8 = i by omega]

/-- The context registers (10_state section 2). -/
theorem regAt_ctx {n c byte : Nat} (hc : c < n) (hb : byte < 0x20) : regAt n (0x100 + 0x20 * c + byte) = ctxRegAt c byte := by
  have hn : (0x100 + 0x20 * c + byte - 0x100) / 0x20 = c := by omega
  have hr : (0x100 + 0x20 * c + byte - 0x100) % 0x20 = byte := by omega
  have hlo : 0x100 ≤ 0x100 + 0x20 * c + byte := by omega
  unfold regAt
  rw [hn, hr]
  clear hn hr
  generalize 0x100 + 0x20 * c + byte = off at hlo
  iterate 12 rw [if_neg (by omega)]
  rw [if_pos hc]

namespace State

/-- Writes to read-only registers change nothing (R24). -/
theorem hostWriteReg_readOnly (s : State) {r : RegName} (v : Reg) (h : r.readOnly) : s.hostWriteReg r v = s := by
  cases r <;> first | rfl | simp [RegName.readOnly] at h

/-- A read changes what the host holds and the count of draws, and nothing else. -/
theorem hostReadReg_eq (s : State) (r : RegName) :
    s.hostReadReg r = { s with readData := (s.hostReadReg r).readData, draws := (s.hostReadReg r).draws } := by
  unfold hostReadReg; split <;> rfl

/-- A write changes CMD, KEY, VAL or BASE, or is the CMD write. -/
theorem hostWriteReg_eq (s : State) (r : RegName) (v : Reg) :
    s.hostWriteReg r v = s.hostWriteCmd v ∨
      s.hostWriteReg r v = { s with key := (s.hostWriteReg r v).key, val := (s.hostWriteReg r v).val, base := (s.hostWriteReg r v).base } := by
  cases r <;> first | exact .inl rfl | exact .inr rfl

theorem hostReadReg_of_value (s : State) {r : RegName} {v : Reg} (h : s.regValue r = some v) : s.hostReadReg r = { s with readData := v } := by
  simp [hostReadReg, h]

/-! ### The images as numbers -/

/-- STATUS = RESULT·16 + FAULT·2 + BUSY (R29). -/
theorem statusImage_toNat (s : State) : s.statusImage.toNat = s.busy.toNat + 2 * s.fault.toNat + 16 * s.result.code.toNat := by
  unfold statusImage
  cases s.busy <;> cases s.fault <;> cases s.result <;> rfl

/-- ERR = ERRCMD·2^32 + ERRINFO·2^8 + ERRCODE (R31). -/
theorem errImage_toNat (s : State) :
    s.errImage.toNat = s.errCode.code.toNat + 2 ^ 8 * s.errInfo.toNat + 2 ^ 32 * s.errCmd.toNat := by
  have h : s.errImage.toNat = ((s.errCmd.toNat * 2 ^ 16 + 0) * 2 ^ 8 + s.errInfo.toNat) * 2 ^ 8 + s.errCode.code.toNat := by
    unfold errImage
    refine (append_toNat _ _).trans ?_
    rw [append_toNat, append_toNat]; rfl
  omega

theorem rcountImage_toNat (s : State) : s.rcountImage.toNat = s.results.length % 16 := by
  unfold rcountImage
  refine (append_toNat _ _).trans ?_
  rw [BitVec.toNat_ofNat]; simp

/-- CFG (R33), before the ranges of the parameters are used. -/
theorem cfgImage_toNat (s : State) :
    s.cfgImage.toNat = s.nctx % 2 ^ 8 + 2 ^ 8 * (s.params.maxRounds % 2 ^ 8) + 2 ^ 16 * (removePolicyCode s.params.removePolicy).toNat +
      2 ^ 18 * (splitScanCode s.params.splitScan).toNat + 2 ^ 24 * (s.params.addrW % 2 ^ 8) + 2 ^ 32 * 5 + 2 ^ 36 * 3 + 2 ^ 40 * 16 +
      2 ^ 48 * 16 := by
  have h : s.cfgImage.toNat = (((((((((0 * 2 ^ 8 + 16) * 2 ^ 8 + 16) * 2 ^ 4 + 3) * 2 ^ 4 + 5) * 2 ^ 8 + s.params.addrW % 2 ^ 8) * 2 ^ 5 +
      0) * 2 ^ 1 + (splitScanCode s.params.splitScan).toNat) * 2 ^ 2 + (removePolicyCode s.params.removePolicy).toNat) * 2 ^ 8 +
      s.params.maxRounds % 2 ^ 8) * 2 ^ 8 + s.nctx % 2 ^ 8 := by
    unfold cfgImage
    refine (append_toNat _ _).trans ?_
    rw [append_toNat, append_toNat, append_toNat, append_toNat, append_toNat, append_toNat, append_toNat, append_toNat, append_toNat]
    rfl
  omega

end State

/-- CTXn_STATE (R37). -/
theorem Ctx.stateImage_toNat (x : Ctx) : x.stateImage.toNat = x.valid.toNat + (if x.mode = .full then 2 else 0) := by
  unfold Ctx.stateImage
  cases x.valid <;> cases x.mode <;> rfl

end Sys2Proof.Machine
end

