-- ==== Sys2Proof/Laws/Results.lean ====
section
/-! SUPPORT. The lists of a LOOKUP: the drawn order is a permutation, and ten slots give at most ten values. -/

namespace Sys2Proof.Machine

/-- Whatever the free positions are, the drawn order is a permutation of the values (R138). -/
theorem shuffle_perm (n : Nat) (l : List Value) : (shuffle n l).Perm l := by
  induction l with
  | nil => exact List.Perm.refl _
  | cons v rest ih =>
    cases rest with
    | nil => exact List.Perm.refl _
    | cons w rest =>
      have hlen : (shuffle n (w :: rest)).length = rest.length + 1 := by simpa using ih.length_eq
      have hpos : Config.freePosition n rest.length % (rest.length + 2) ≤ (shuffle n (w :: rest)).length := by
        have := Nat.mod_lt (Config.freePosition n rest.length) (show 0 < rest.length + 2 by omega)
        omega
      exact (List.perm_insertIdx v _ hpos).trans (ih.cons v)

theorem length_readBucket (g : Buffer) (m : Memory) (t : Table) (b : BucketIx) : (readBucket g m t b).length = 5 := by
  simp [readBucket]

theorem mem_readBucket {g : Buffer} {m : Memory} {t : Table} {b : BucketIx} {e : Entry} :
    e ∈ readBucket g m t b ↔ ∃ i < 5, readSlot g m t b i = e := by simp [readBucket]

/-- At most ten values match (R138). -/
theorem length_lookupMatches (g : Buffer) (m : Memory) (k : Key) : (lookupMatches g m k).length ≤ 10 := by
  have h (t : Table) : (matchesIn g m t k).length ≤ 5 := by
    have := List.length_filterMap_le (slotMatch t (index t k) k) (readBucket g m t (index t k))
    rw [length_readBucket] at this
    exact this
  have h1 := h .t1
  have h2 := h .t2
  rw [lookupMatches, List.length_append]; omega

/-- No returned value is 0 (R136 (b)). -/
theorem zero_not_mem_lookupMatches (g : Buffer) (m : Memory) (k : Key) : 0 ∉ lookupMatches g m k := by
  have h (t : Table) : 0 ∉ matchesIn g m t k := by
    intro hz
    obtain ⟨e, -, he⟩ := List.mem_filterMap.mp hz
    unfold slotMatch at he
    split at he
    · rename_i hm; exact hm.2 (Option.some.inj he)
    · cases he
  rw [lookupMatches, List.mem_append]
  exact fun hz => hz.elim (h .t1) (h .t2)

end Sys2Proof.Machine
end

