-- ==== Sys2Proof/Laws/Removal.lean ====
section
/-! SUPPORT. Removal on a bucket as a list of five entries: what the three scans do to the list, and that they leave every other bucket alone. -/

namespace Sys2Proof.Machine

/-! ### Buckets as lists -/

/-- A slot write on the bucket as a list; every other bucket is kept. -/
theorem readBucket_writeSlot (g : Buffer) (m : Memory) {t t' : Table} {b b' : BucketIx} {i : Nat} (e : Entry) (hi : i < 5) :
    readBucket g (writeSlot g m t b i e) t' b' = if t' = t ∧ b' = b then (readBucket g m t b).set i e else readBucket g m t' b' := by
  refine List.ext_getElem (by split <;> simp [readBucket]) fun j hj _ => ?_
  have hj5 : j < 5 := by simpa [readBucket] using hj
  have hslot := readSlot_writeSlot g m (t := t) (t' := t') (b := b) (b' := b') e hi hj5
  split
  · rename_i hc
    obtain ⟨rfl, rfl⟩ := hc
    simp only [readBucket, List.getElem_map, List.getElem_range, List.getElem_set, hslot]
    by_cases hij : i = j
    · subst hij; simp
    · simp [hij, Ne.symm hij]
  · rename_i hc
    simp only [readBucket, List.getElem_map, List.getElem_range, hslot]
    rw [if_neg fun h => hc ⟨h.1, h.2.1⟩]

theorem readSlot_eq_getElem (g : Buffer) (m : Memory) (t : Table) (b : BucketIx) {i : Nat} (hi : i < 5) :
    readSlot g m t b i = (readBucket g m t b)[i]'(by simpa [readBucket] using hi) := by simp [readBucket]

/-- Swap-with-last on the list. -/
def swapLastIn (l : List Entry) (i : Nat) : List Entry := (l.set i (l.getD lastSlot emptyEntry)).set lastSlot emptyEntry

theorem readBucket_swapLast (g : Buffer) (m : Memory) {t t' : Table} {b b' : BucketIx} {i : Nat} (hi : i < 5) :
    readBucket g (swapLast g m t b i) t' b' = if t' = t ∧ b' = b then swapLastIn (readBucket g m t b) i else readBucket g m t' b' := by
  have h4 : readSlot g m t b lastSlot = (readBucket g m t b).getD lastSlot emptyEntry := by
    simp [readBucket, lastSlot]
  simp only [swapLast, readBucket_writeSlot g _ _ (show lastSlot < 5 by decide), readBucket_writeSlot g _ _ hi, h4, and_self, if_true]
  split <;> simp_all [swapLastIn]

theorem readBucket_shiftFrom (g : Buffer) (m : Memory) {t t' : Table} {b b' : BucketIx} {i : Nat} (hi : i < 5) :
    readBucket g (shiftFrom g m t b i) t' b' =
      if t' = t ∧ b' = b then (readBucket g m t b).eraseIdx i ++ [emptyEntry] else readBucket g m t' b' := by
  have h5 := length_readBucket g m t b
  have hslot : ∀ j (hj : j < 5), readSlot g m t b j = (readBucket g m t b)[j]'(by rw [h5]; exact hj) :=
    fun j hj => readSlot_eq_getElem g m t b hj
  have hw := fun (u : Memory) (j : Nat) (e : Entry) (hj : j < 5) => readBucket_writeSlot g u (t := t) (t' := t') (b := b) (b' := b') e hj
  have hr := fun (u : Memory) (j k : Nat) (e : Entry) (hj : j < 5) (hk : k < 5) =>
    readSlot_writeSlot g u (t := t) (t' := t) (b := b) (b' := b) e hj hk
  have hw' := fun (u : Memory) (j : Nat) (e : Entry) (hj : j < 5) => readBucket_writeSlot g u (t := t) (t' := t) (b := b) (b' := b) e hj
  have cases5 : i = 0 ∨ i = 1 ∨ i = 2 ∨ i = 3 ∨ i = 4 := by omega
  unfold shiftFrom lastSlot
  generalize hl : readBucket g m t b = l at *
  match l, h5 with
  | [a0, a1, a2, a3, a4], _ =>
    rcases cases5 with rfl | rfl | rfl | rfl | rfl <;>
      (simp only [List.range', List.foldl_cons, List.foldl_nil, Nat.reduceSub, Nat.reduceAdd]
       simp (disch := decide) only [hw, hw', hr, hslot, hl]
       split <;> simp_all)

/-! ### The scans on the list -/

/-- SWAP_LAST_CONTINUE on the list (R142). -/
def continueIn (e : Entry) : List Nat → List Entry × Bool → List Entry × Bool
  | [], r => r
  | i :: rest, (l, found) => continueIn e rest (if l.getD i emptyEntry = e then (swapLastIn l i, true) else (l, found))

theorem readSlot_eq_getD (g : Buffer) (m : Memory) (t : Table) (b : BucketIx) {i : Nat} (hi : i < 5) :
    readSlot g m t b i = (readBucket g m t b).getD i emptyEntry := by
  have h : i < (List.range Config.nSlots).length := by simpa using hi
  simp [readBucket, hi]

/-- The scan of memory is the scan of the list, in its own bucket alone. -/
theorem scanContinue_list (g : Buffer) (t : Table) (b : BucketIx) (e : Entry) (is : List Nat) (his : ∀ i ∈ is, i < 5) (m : Memory) (f : Bool) :
    (scanContinue g t b e is (m, f)).2 = (continueIn e is (readBucket g m t b, f)).2 ∧
    readBucket g (scanContinue g t b e is (m, f)).1 t b = (continueIn e is (readBucket g m t b, f)).1 ∧
    ∀ t' b', ¬(t' = t ∧ b' = b) → readBucket g (scanContinue g t b e is (m, f)).1 t' b' = readBucket g m t' b' := by
  induction is generalizing m f with
  | nil => exact ⟨rfl, rfl, fun _ _ _ => rfl⟩
  | cons i rest ih =>
    have hi := his i (by simp)
    have ih := ih fun j hj => his j (by simp [hj])
    simp only [scanContinue, continueIn, readSlot_eq_getD g m t b hi]
    split
    · have h := ih (swapLast g m t b i) true
      have hs := readBucket_swapLast g m (t := t) (t' := t) (b := b) (b' := b) hi
      simp only [and_self, if_true] at hs
      rw [hs] at h
      exact ⟨h.1, h.2.1, fun t' b' hne => (h.2.2 t' b' hne).trans ((readBucket_swapLast g m hi).trans (if_neg hne))⟩
    · exact ih m f

/-- SWAP_LAST_RESTART on the list (R143). -/
def restartIn (e : Entry) : Nat → List Entry × Bool → List Entry × Bool
  | 0, r => r
  | n + 1, (l, found) =>
    match (List.range 5).find? (fun i => l.getD i emptyEntry = e) with
    | none => (l, found)
    | some i => restartIn e n (swapLastIn l i, true)

theorem scanRestart_list (g : Buffer) (t : Table) (b : BucketIx) (e : Entry) (n : Nat) (m : Memory) (f : Bool) :
    (scanRestart g t b e n (m, f)).2 = (restartIn e n (readBucket g m t b, f)).2 ∧
    readBucket g (scanRestart g t b e n (m, f)).1 t b = (restartIn e n (readBucket g m t b, f)).1 ∧
    ∀ t' b', ¬(t' = t ∧ b' = b) → readBucket g (scanRestart g t b e n (m, f)).1 t' b' = readBucket g m t' b' := by
  induction n generalizing m f with
  | zero => exact ⟨rfl, rfl, fun _ _ _ => rfl⟩
  | succ n ih =>
    have hfind : (List.range Config.nSlots).find? (fun i => decide (readSlot g m t b i = e)) =
        (List.range 5).find? (fun i => decide ((readBucket g m t b).getD i emptyEntry = e)) := by
      have : ∀ l : List Nat, (∀ i ∈ l, i < 5) → l.find? (fun i => decide (readSlot g m t b i = e)) =
          l.find? (fun i => decide ((readBucket g m t b).getD i emptyEntry = e)) := by
        intro l hl
        induction l with
        | nil => rfl
        | cons i rest ih =>
          rw [List.find?_cons, List.find?_cons, readSlot_eq_getD g m t b (hl i (by simp)), ih fun j hj => hl j (by simp [hj])]
      exact this _ (by simp)
    simp only [scanRestart, restartIn, hfind]
    cases hf : (List.range 5).find? (fun i => decide ((readBucket g m t b).getD i emptyEntry = e)) with
    | none => exact ⟨rfl, rfl, fun _ _ _ => rfl⟩
    | some i =>
      have hi : i < 5 := by simpa using List.mem_of_find?_eq_some hf
      have h := ih (swapLast g m t b i) true
      have hs := readBucket_swapLast g m (t := t) (t' := t) (b := b) (b' := b) hi
      simp only [and_self, if_true] at hs
      rw [hs] at h
      exact ⟨h.1, h.2.1, fun t' b' hne => (h.2.2 t' b' hne).trans ((readBucket_swapLast g m hi).trans (if_neg hne))⟩

/-- SHIFT_DOWN from slot i on: the slots before i stay, and after them come the others without the entry, then Z fill (R144). -/
theorem scanShift_list (g : Buffer) (t : Table) (b : BucketIx) (e : Entry) (he : e ≠ emptyEntry) (n i : Nat) (m : Memory) (f : Bool)
    (hi : i ≤ 5) (hn : 5 - i + ((readBucket g m t b).drop i).count e ≤ n) :
    (scanShift g t b e n i (m, f)).2 = (f || decide (0 < ((readBucket g m t b).drop i).count e)) ∧
    readBucket g (scanShift g t b e n i (m, f)).1 t b = (readBucket g m t b).take i ++
      ((readBucket g m t b).drop i).filter (fun x => x ≠ e) ++ List.replicate (((readBucket g m t b).drop i).count e) emptyEntry ∧
    ∀ t' b', ¬(t' = t ∧ b' = b) → readBucket g (scanShift g t b e n i (m, f)).1 t' b' = readBucket g m t' b' := by
  induction n generalizing i m f with
  | zero =>
    have h5 := length_readBucket g m t b
    have hi5 : i = 5 := by omega
    subst hi5
    have hd : (readBucket g m t b).drop 5 = [] := List.drop_eq_nil_of_le (by omega)
    simp [scanShift, hd, List.take_of_length_le, h5]
  | succ n ih =>
    have h5 := length_readBucket g m t b
    by_cases hlast : lastSlot < i
    · have hi5 : i = 5 := by simp only [lastSlot] at hlast; omega
      subst hi5
      have hd : (readBucket g m t b).drop 5 = [] := List.drop_eq_nil_of_le (by omega)
      simp [scanShift, hlast, hd, List.take_of_length_le, h5]
    · have hi5 : i < 5 := by simp only [lastSlot] at hlast; omega
      have hdrop : (readBucket g m t b).drop i = readSlot g m t b i :: (readBucket g m t b).drop (i + 1) := by
        rw [readSlot_eq_getElem g m t b hi5]
        exact List.drop_eq_getElem_cons (by omega)
      simp only [scanShift, hlast, if_false]
      split
      · rename_i heq
        have hs := readBucket_shiftFrom g m (t := t) (t' := t) (b := b) (b' := b) hi5
        simp only [and_self, if_true] at hs
        have htake : (readBucket g (shiftFrom g m t b i) t b).take i = (readBucket g m t b).take i := by
          rw [hs, List.take_append_of_le_length (by rw [List.length_eraseIdx_of_lt (by omega)]; omega), List.take_eraseIdx_eq_take_of_le _ _ _ (le_refl i)]
        have hdrop' : (readBucket g (shiftFrom g m t b i) t b).drop i = (readBucket g m t b).drop (i + 1) ++ [emptyEntry] := by
          rw [hs, List.drop_append_of_le_length (by rw [List.length_eraseIdx_of_lt (by omega)]; omega)]
          congr 1
          rw [List.eraseIdx_eq_take_drop_succ, List.drop_append_of_le_length (by simp; omega), List.drop_take]
          simp
        have hcount : ((readBucket g m t b).drop i).count e = ((readBucket g m t b).drop (i + 1)).count e + 1 := by
          rw [hdrop, heq, List.count_cons_self]
        have hcount' : ((readBucket g (shiftFrom g m t b i) t b).drop i).count e = ((readBucket g m t b).drop (i + 1)).count e := by
          rw [hdrop', List.count_append]; simp [Ne.symm he]
        have h := ih i (shiftFrom g m t b i) true hi (by rw [hcount']; omega)
        rw [hcount', htake, hdrop'] at h
        refine ⟨?_, ?_, fun t' b' hne => (h.2.2 t' b' hne).trans ((readBucket_shiftFrom g m hi5).trans (if_neg hne))⟩
        · rw [h.1, hcount]; simp
        · rw [h.2.1, hcount, hdrop, heq]
          simp [Ne.symm he, List.filter_append, List.replicate_succ]
      · rename_i hne
        have h := ih (i + 1) m f (by omega) (by
          have : ((readBucket g m t b).drop i).count e = ((readBucket g m t b).drop (i + 1)).count e := by
            rw [hdrop, List.count_cons_of_ne hne]
          omega)
        have hcount : ((readBucket g m t b).drop i).count e = ((readBucket g m t b).drop (i + 1)).count e := by
          rw [hdrop, List.count_cons_of_ne hne]
        refine ⟨by rw [h.1, hcount], ?_, h.2.2⟩
        rw [h.2.1, hcount, hdrop, List.filter_cons_of_pos (by simpa using hne), List.take_succ_eq_append_getElem (by omega),
          readSlot_eq_getElem g m t b hi5]
        simp only [List.append_assoc, List.cons_append, List.nil_append]

end Sys2Proof.Machine
end

