-- ==== Sys2Proof/Laws/Step.lean ====
section
/-! SUPPORT. What a step can do, said once: whose move it is, and what each move can answer. -/

namespace Sys2Proof.Machine

/-- `s` with its agenda's first move taken off, if it has one. -/
def State.popped (s : State) : State := { s with agenda := s.agenda.tail }

/-- A step is the move of one agent (R18): the engine's, or one access of the host. -/
theorem step_cases {s : State} {o : Host.Outcome State Fault Refusal} (h : step s = o) :
    ((s.agenda = [] ∨ ∃ rest, s.agenda = .engine :: rest) ∧ engineStep s.popped = o) ∨
    ∃ a rest, s.agenda = .host a :: rest ∧ hostStep a s.popped = o := by
  unfold step at h
  split at h
  · rename_i ha
    have : s.popped = s := by cases s; simp only at ha; subst ha; rfl
    exact .inl ⟨.inl ha, by rw [this]; exact h⟩
  · rename_i rest ha
    exact .inl ⟨.inr ⟨rest, ha⟩, by rw [State.popped, ha]; exact h⟩
  · rename_i a rest ha
    exact .inr ⟨a, rest, ha, by rw [State.popped, ha]; exact h⟩

/-- What the engine's move answers (R18, R88, R166): nothing happens while idle; after E_BUSY the engine stops; a command runs to its end; an illegal
word raises E_BAD_OP. -/
theorem engineStep_cases {s t : State} (h : engineStep s = .next t) :
    (s.busy = false ∧ t = s) ∨
    (s.busy = true ∧ s.fault = true ∧ t = s.stopEngine) ∨
    (s.busy = true ∧ s.fault = false ∧ ∃ i, decode s.lcmd = .command i ∧ exec i s = .next t) ∨
    (s.busy = true ∧ s.fault = false ∧ (∃ r, decode s.lcmd = .illegal r) ∧ t = s.raise .badOp 0) := by
  unfold engineStep at h
  cases hb : s.busy
  · simp only [hb] at h; cases h; exact .inl ⟨rfl, rfl⟩
  · cases hf : s.fault
    · simp only [hb, hf, if_true] at h
      cases hd : decode s.lcmd with
      | command i => simp only [hd] at h; exact .inr (.inr (.inl ⟨rfl, rfl, i, rfl, h⟩))
      | illegal r => simp only [hd] at h; cases h; exact .inr (.inr (.inr ⟨rfl, rfl, ⟨r, rfl⟩, rfl⟩))
    · simp only [hb, hf, if_true] at h; cases h; exact .inr (.inl ⟨rfl, rfl, rfl⟩)

/-- What a CMD write leaves (R85): stored only, while FAULT; E_BUSY, while BUSY; an issue, else. -/
theorem hostWriteCmd_cases (s : State) (v : Reg) :
    (s.fault = true ∧ s.hostWriteCmd v = { s with cmd := v }) ∨
    (s.fault = false ∧ s.busy = true ∧ s.hostWriteCmd v = s.abandon v) ∨
    (s.fault = false ∧ s.busy = false ∧ s.hostWriteCmd v = s.issue v) := by
  unfold State.hostWriteCmd
  cases s.fault
  · cases s.busy
    · exact .inr (.inr ⟨rfl, rfl, rfl⟩)
    · exact .inr (.inl ⟨rfl, rfl, rfl⟩)
  · exact .inl ⟨rfl, rfl⟩

/-- What a host access answers when it answers a next state (R185): a CMD write, a write of KEY, VAL or BASE (or of nothing), a read, a memory write
outside the words the running command names, or a reset. -/
theorem hostStep_cases {a : HostAccess} {s t : State} (h : hostStep a s = .next t) :
    (∃ v, a = .writeReg 0 8 v ∧ t = s.hostWriteCmd v) ∨
    (∃ off v, a = .writeReg off 8 v ∧ off ≠ 0 ∧ ∃ k v' b, t = { s with key := k, val := v', base := b }) ∨
    (t = { s with readData := t.readData, draws := t.draws } ∧
      ((∃ off, a = .readReg off 8) ∨ (∃ wa, a = .readWord wa) ∨ ∃ ba, a = .readByte ba)) ∨
    (∃ wa w, a = .writeWord wa w ∧ wa < 2 ^ s.params.addrW ∧ (s.busy = true → s.namesWord wa = false) ∧
      t = s.setMem (s.mem.writeWord s.params.byteOrder wa w)) ∨
    (∃ ba b, a = .writeByte ba b ∧ ba / 4 < 2 ^ s.params.addrW ∧ (s.busy = true → s.namesWord (ba / 4) = false) ∧
      t = s.setMem (s.mem.put ba b)) ∨
    (a = .reset ∧ t = s.hardReset) := by
  have guarded : ∀ {wa : Nat} {k : State}, s.guardWord wa k = .next t →
      wa < 2 ^ s.params.addrW ∧ (s.busy = true → s.namesWord wa = false) ∧ t = k := by
    intro wa k hk
    unfold State.guardWord at hk
    split at hk
    · cases hk
    · split at hk
      · cases hk
      · rename_i h1 h2
        cases hk
        exact ⟨by omega, by revert h2; cases s.busy <;> cases s.namesWord wa <;> simp, rfl⟩
  cases a with
  | writeReg off size v =>
    simp only [hostStep] at h
    split at h
    · rename_i hok
      have hok' : size = 8 ∧ off % 8 = 0 := of_decide_eq_true hok
      obtain ⟨rfl, h8⟩ := hok'
      cases h
      by_cases h0 : off = 0
      · subst h0; exact .inl ⟨v, rfl, rfl⟩
      · refine .inr (.inl ⟨off, v, rfl, h0, ?_⟩)
        have hne : regAt s.nctx off ≠ .cmd := by
          by_cases h32 : 0x020 ≤ off
          · exact (regAt_readOnly h32).1
          · have : off = 8 ∨ off = 16 ∨ off = 24 := by omega
            rcases this with rfl | rfl | rfl <;> simp [regAt]
        generalize regAt s.nctx off = r at hne
        cases r <;> first | exact absurd rfl hne | exact ⟨_, _, _, rfl⟩
    · cases h
  | readReg off size =>
    simp only [hostStep] at h
    split at h
    · rename_i hok
      have hok' : size = 8 ∧ off % 8 = 0 := of_decide_eq_true hok
      obtain ⟨rfl, -⟩ := hok'
      cases h
      exact .inr (.inr (.inl ⟨s.hostReadReg_eq _, .inl ⟨off, rfl⟩⟩))
    · cases h
  | writeWord wa w =>
    obtain ⟨h1, h2, h3⟩ := guarded h
    exact .inr (.inr (.inr (.inl ⟨wa, w, rfl, h1, h2, h3⟩)))
  | readWord wa =>
    obtain ⟨-, -, rfl⟩ := guarded h
    exact .inr (.inr (.inl ⟨rfl, .inr (.inl ⟨wa, rfl⟩)⟩))
  | writeByte ba b =>
    obtain ⟨h1, h2, h3⟩ := guarded h
    exact .inr (.inr (.inr (.inr (.inl ⟨ba, b, rfl, h1, h2, h3⟩))))
  | readByte ba =>
    obtain ⟨-, -, rfl⟩ := guarded h
    exact .inr (.inr (.inl ⟨rfl, .inr (.inr ⟨ba, rfl⟩)⟩))
  | reset => cases h; exact .inr (.inr (.inr (.inr (.inr ⟨rfl, rfl⟩))))

end Sys2Proof.Machine
end

