-- ==== Sys2Proof/Laws/Store.lean ====
section
/-! SUPPORT. Memories written slot by slot: what every slot of such a memory reads as, and what a collection finds in it. For small states whose
buffers are known whole, without visiting 655360 slots. -/

namespace Sys2Proof.Machine

/-- The memory with the listed entries in the listed slots of a buffer, and nothing else. -/
def store (g : Buffer) : List ((Table × BucketIx × Nat) × Entry) → Memory
  | [] => []
  | (x, e) :: rest => writeSlot g (store g rest) x.1 x.2.1 x.2.2 e

/-- What the list says of a slot. -/
def stored : List ((Table × BucketIx × Nat) × Entry) → Table × BucketIx × Nat → Entry
  | [], _ => emptyEntry
  | (y, e) :: rest, x => if x = y then e else stored rest x

variable {g : Buffer} {l : List ((Table × BucketIx × Nat) × Entry)}

theorem readSlot_store (hl : ∀ y ∈ l, y.1.2.2 < 5) (t : Table) (b : BucketIx) {i : Nat} (hi : i < 5) :
    readSlot g (store g l) t b i = stored l (t, b, i) := by
  induction l with
  | nil => exact readSlot_nil g t b i
  | cons y rest ih =>
    obtain ⟨⟨t', b', i'⟩, e⟩ := y
    have hi' : i' < 5 := hl _ (List.mem_cons_self ..)
    simp only [store, stored, readSlot_writeSlot g _ e hi' hi, ih fun z hz => hl z (List.mem_cons_of_mem _ hz), Prod.mk.injEq]

/-- A live slot is a listed one. -/
theorem mem_of_stored {x : Table × BucketIx × Nat} (h : stored l x ≠ emptyEntry) : (x, stored l x) ∈ l := by
  induction l with
  | nil => exact absurd rfl h
  | cons y rest ih =>
    obtain ⟨y, e⟩ := y
    simp only [stored] at h ⊢
    split
    · rename_i hxy; simp [hxy]
    · rename_i hxy; rw [if_neg hxy] at h; exact List.mem_cons_of_mem _ (ih h)

theorem store_writes (hl : ∀ y ∈ l, y.1.2.2 < 5) : SlotWrites (· = g) [] (store g l) := by
  induction l with
  | nil => exact .refl _
  | cons y rest ih =>
    exact (ih fun z hz => hl z (List.mem_cons_of_mem _ hz)).trans (.single _ _ _ rfl (hl y (List.mem_cons_self ..)))

/-- A buffer apart from the written one is empty. -/
theorem readSlot_store_apart (hl : ∀ y ∈ l, y.1.2.2 < 5) {h : Buffer}
    (hgh : g.base + Config.bufWords ≤ h.base ∨ h.base + Config.bufWords ≤ g.base) (t : Table) (b : BucketIx) {i : Nat} (hi : i < 5) :
    readSlot h (store g l) t b i = emptyEntry := by
  rw [← readSlot_nil h t b i]
  refine readSlot_congr h t b i fun x h1 h2 => (store_writes hl).byteAt_outside ?_
  rintro _ rfl ⟨h3, h4⟩
  have a0 := slotAddr_bounds h t b hi (show 0 < 3 by omega)
  have a2 := slotAddr_bounds h t b hi (show 2 < 3 by omega)
  have := slotAddr_word h t b i 2
  generalize Config.bufWords = n at *
  omega

/-- Past the buckets below `k`, which hold every live slot of a table, nothing is gathered. -/
theorem flatMap_range_low {α : Type} (f : Nat → List α) (k n : Nat) (hk : k ≤ n) (h : ∀ b, k ≤ b → b < n → f b = []) :
    (List.range n).flatMap f = (List.range k).flatMap f := by
  obtain ⟨d, rfl⟩ := Nat.exists_eq_add_of_le hk
  rw [List.range_add, List.flatMap_append]
  refine (congrArg _ (List.flatMap_eq_nil_iff.mpr fun b hb => ?_)).trans (List.append_nil _)
  obtain ⟨c, hc, rfl⟩ := List.mem_map.mp hb
  have := List.mem_range.mp hc
  exact h _ (by omega) (by omega)

theorem readBucket_of_empty {m : Memory} {t : Table} {b : BucketIx} (h : ∀ i < 5, readSlot g m t b i = emptyEntry) :
    readBucket g m t b = List.replicate 5 emptyEntry := by
  refine List.eq_replicate_iff.mpr ⟨by simp [readBucket], fun e he => ?_⟩
  obtain ⟨i, hi, rfl⟩ := List.mem_map.mp he
  exact h i (List.mem_range.mp hi)

theorem collectBucket_of_empty {m : Memory} {t : Table} {b : BucketIx} (scan : SplitScan)
    (h : ∀ i < 5, readSlot g m t b i = emptyEntry) : collectBucket scan g m t b = [] := by
  rw [collectBucket, readBucket_of_empty h]
  cases scan <;> rfl

/-- The collection of a table whose live slots are in the buckets below `k`. -/
theorem collectTable_low (scan : SplitScan) (m : Memory) (t : Table) (k : Nat) (hk : k ≤ 65536)
    (h : ∀ b : BucketIx, k ≤ b.toNat → ∀ i < 5, readSlot g m t b i = emptyEntry) :
    collectTable scan g m t = (List.range k).flatMap fun b => collectBucket scan g m t (BitVec.ofNat 16 b) := by
  refine flatMap_range_low _ k 65536 hk fun b h1 h2 => collectBucket_of_empty scan (h _ ?_)
  rw [BitVec.toNat_ofNat, Nat.mod_eq_of_lt h2]; exact h1

theorem stored_high {k : Nat} {t : Table} (hk : ∀ y ∈ l, y.1.1 = t → y.1.2.1.toNat < k) {b : BucketIx} (hb : k ≤ b.toNat) (i : Nat) :
    stored l (t, b, i) = emptyEntry := by
  by_contra h
  have := hk _ (mem_of_stored h) rfl
  dsimp only at this
  omega

/-- What SPLIT collects from a buffer known whole. -/
theorem collect_store {s : State} {c : Nat} (hm : s.mem = store (s.buffer c) l) (hl : ∀ y ∈ l, y.1.2.2 < 5) (k : Nat) (hk : k ≤ 65536)
    (h : ∀ y ∈ l, y.1.2.1.toNat < k) :
    collect s c = overflowOf (s.ctx c) ++
      ((List.range k).flatMap fun b => collectBucket s.params.splitScan (s.buffer c) s.mem .t1 (BitVec.ofNat 16 b)) ++
      ((List.range k).flatMap fun b => collectBucket s.params.splitScan (s.buffer c) s.mem .t2 (BitVec.ofNat 16 b)) := by
  have high : ∀ (t : Table) (b : BucketIx), k ≤ b.toNat → ∀ i < 5, readSlot (s.buffer c) s.mem t b i = emptyEntry := by
    intro t b hb i hi
    rw [hm, readSlot_store hl t b hi]
    exact stored_high (fun y hy _ => h y hy) hb i
  rw [collect, collectTable_low _ _ _ k hk (high .t1), collectTable_low _ _ _ k hk (high .t2)]

end Sys2Proof.Machine
end

