-- ==== Sys2Proof/Laws/Unspecified.lean ====
section
/-! SUPPORT. What unspecified contents can and cannot change (R158, R166, R180), and which contexts and words a command names (R61). -/

namespace Sys2Proof.Machine.State

theorem mem_boundOf {s : State} {cs : List Nat} {c : Nat} : c ∈ s.boundOf cs ↔ c ∈ cs ∧ (s.ctx c).valid = true := by
  simp [boundOf]

/-- Every property of memory that unspecifying one bound buffer keeps, unspecifying several keeps. -/
theorem unspecifyBuffers_induct {s : State} {cs : List Nat} (P : Memory → Prop) (h0 : P s.mem)
    (hstep : ∀ m c, c ∈ cs → (s.ctx c).valid = true → P m → P (s.unspecifyBuffer m c)) :
    P (s.unspecifyBuffers cs).mem := by
  show P ((s.boundOf cs).foldl _ s.mem)
  have hsub : ∀ c ∈ s.boundOf cs, c ∈ cs ∧ (s.ctx c).valid = true := fun c hc => mem_boundOf.mp hc
  generalize s.boundOf cs = l at hsub
  generalize s.mem = m at h0
  induction l generalizing m with
  | nil => exact h0
  | cons c rest ih =>
    exact ih (fun d hd => hsub d (by simp [hd])) _ (hstep m c (hsub c (by simp)).1 (hsub c (by simp)).2 h0)

/-- A byte of a buffer's slot words takes a free value; every other byte, a padding word's too, keeps its value. -/
theorem byteAt_unspecifyBuffer (s : State) (m : Memory) (c x : Nat) :
    (s.unspecifyBuffer m c).byteAt x =
      if (4 * (s.buffer c).base ≤ x ∧ x < 4 * (s.buffer c).base + 4 * Config.bufWords) ∧ isPaddingByte (s.buffer c) x = false then
        Config.freeByte s.draws x
      else m.byteAt x := by
  refine (Memory.byteAt_havoc _ _ _ _ _).trans ?_
  by_cases h : 4 * (s.buffer c).base ≤ x ∧ x < 4 * (s.buffer c).base + 4 * Config.bufWords
  · rw [if_pos h]
    cases isPaddingByte (s.buffer c) x <;> simp only [h, and_self, and_false, if_true, Bool.false_eq_true, if_false, reduceCtorEq]
  · rw [if_neg h, if_neg fun hc => h hc.1]

/-- A byte in no slot word of a named bound buffer keeps its value. -/
theorem byteAt_unspecifyBuffers {s : State} {cs : List Nat} {x : Nat}
    (hx : ∀ c ∈ cs, (s.ctx c).valid = true → ¬(4 * (s.ctx c).base.toNat ≤ x ∧ x < 4 * ((s.ctx c).base.toNat + Config.bufWords)) ∨
      isPaddingByte (s.buffer c) x = true) :
    (s.unspecifyBuffers cs).mem.byteAt x = s.mem.byteAt x := by
  refine unspecifyBuffers_induct (fun m => m.byteAt x = s.mem.byteAt x) rfl fun m c hc hv hm => ?_
  rw [byteAt_unspecifyBuffer, if_neg, hm]
  rintro ⟨h, hp⟩
  rcases hx c hc hv with hout | hpad
  · refine hout ?_
    rw [buffer_base] at h
    generalize Config.bufWords = n at h ⊢; omega
  · rw [hp] at hpad; cases hpad

/-- A byte of a buffer is a slot's or a padding word's (R62, R95). -/
theorem inSlot_of_not_padding {g : Buffer} {x : Nat} (h : 4 * g.base ≤ x ∧ x < 4 * (g.base + Config.bufWords))
    (hp : isPaddingByte g x = false) :
    ∃ t b, ∃ i < 5, 4 * slotAddr g t b i 0 ≤ x ∧ x < 4 * slotAddr g t b i 0 + 12 := by
  have hp : ¬(x / 4 - g.base) % 16 = 15 := of_decide_eq_false hp
  obtain ⟨o, ho⟩ : ∃ o, x / 4 = g.base + o := ⟨x / 4 - g.base, by omega⟩
  have hlt : o < 2097152 := by
    have := h.2
    rw [show Config.bufWords = 2097152 from rfl] at this
    omega
  have hp' : o % 16 ≠ 15 := by rw [ho, Nat.add_sub_cancel_left] at hp; exact hp
  have hb : (BitVec.ofNat 16 (o / 16)).toNat = o / 16 % 65536 := BitVec.toNat_ofNat ..
  by_cases ht : o < 1048576
  · refine ⟨.t1, BitVec.ofNat 16 (o / 16), o % 16 / 3, by omega, ?_⟩
    simp only [slotAddr, tableOffset, hb, Config.bucketWords]
    omega
  · refine ⟨.t2, BitVec.ofNat 16 (o / 16), o % 16 / 3, by omega, ?_⟩
    simp only [slotAddr, tableOffset, hb, Config.bucketWords, Config.tableWords]
    omega

/-- No slot has a byte of a padding word (R63). -/
theorem isPaddingByte_of_inSlot {g : Buffer} {t : Table} {b : BucketIx} {i x : Nat} (hi : i < 5)
    (h : 4 * slotAddr g t b i 0 ≤ x ∧ x < 4 * slotAddr g t b i 0 + 12) : isPaddingByte g x = false := by
  refine decide_eq_false ?_
  obtain ⟨q, hq⟩ : ∃ q, slotAddr g t b i 0 = g.base + (16 * q + 3 * i) := by
    cases t
    · exact ⟨b.toNat, by simp only [slotAddr, tableOffset, Config.bucketWords]; omega⟩
    · exact ⟨65536 + b.toNat, by simp only [slotAddr, tableOffset, Config.bucketWords, Config.tableWords]; omega⟩
  rw [hq] at h
  obtain ⟨j, hj, hx⟩ : ∃ j < 3, x / 4 = g.base + (16 * q + (3 * i + j)) := ⟨x / 4 - (g.base + (16 * q + 3 * i)), by omega, by omega⟩
  rw [hx, Nat.add_sub_cancel_left, Nat.mul_add_mod, Nat.mod_eq_of_lt (by omega)]
  omega

theorem wf_unspecifyBuffers {s : State} {cs : List Nat} (h : s.mem.wf) : (s.unspecifyBuffers cs).mem.wf :=
  unspecifyBuffers_induct Memory.wf h fun _ _ _ _ hm => Memory.wf_havoc hm _ _ _

/-- A listed address was listed, or lies in a bound buffer of the named contexts. -/
theorem listed_unspecifyBuffers {s : State} {cs : List Nat} : ∀ x ∈ (s.unspecifyBuffers cs).mem, x ∈ s.mem ∨
    ∃ c ∈ cs, (s.ctx c).valid = true ∧ 4 * (s.ctx c).base.toNat ≤ x.1 ∧ x.1 < 4 * ((s.ctx c).base.toNat + Config.bufWords) := by
  refine unspecifyBuffers_induct (fun m => ∀ x ∈ m, x ∈ s.mem ∨ ∃ c ∈ cs, (s.ctx c).valid = true ∧
    4 * (s.ctx c).base.toNat ≤ x.1 ∧ x.1 < 4 * ((s.ctx c).base.toNat + Config.bufWords)) (fun x hx => .inl hx) fun m c hc hv hm x hx => ?_
  rcases Memory.mem_havoc hx with h | h
  · rw [buffer_base] at h
    exact .inr ⟨c, hc, hv, h.1, by generalize Config.bufWords = n at h ⊢; omega⟩
  · exact hm x h

/-- With no named context nothing changes. -/
@[simp] theorem unspecifyBuffers_nil (s : State) : s.unspecifyBuffers [] = s := rfl

theorem mem_namedCtxs {s : State} {i : Instr} (h : decode s.lcmd = .command i) {c : Nat} :
    c ∈ s.namedCtxs ↔ c ∈ namedBy i ∧ c < s.nctx := by simp [namedCtxs, h]

theorem namedCtxs_illegal {s : State} {r : IllegalWord} (h : decode s.lcmd = .illegal r) : s.namedCtxs = [] := by
  simp [namedCtxs, h]

/-- A word is named exactly when it lies in the bound buffer of a named context (R61). -/
theorem namesWord_iff {s : State} {wa : Nat} : s.namesWord wa = true ↔ ∃ c ∈ s.namedCtxs, (s.ctx c).valid = true ∧
    (s.ctx c).base.toNat ≤ wa ∧ wa < (s.ctx c).base.toNat + Config.bufWords := by
  simp only [namesWord, List.any_eq_true, mem_boundOf, decide_eq_true_eq, and_assoc]

end Sys2Proof.Machine.State
end

