-- ==== Sys2Proof/Tests/Slice0.lean ====
section
/-! SUPPORT. Small tests whose expected values are the spec's (95_test_vectors.md, 30_encoding.md), and for each statement a witness of its
hypotheses. -/

namespace Sys2Proof.Tests

open Sys2Proof Sys2Proof.Machine Sys2Proof.Claims

/-! ### Small states -/

/-- A NORMAL context over the buffer at `b`. -/
def bound (b : Nat) : Ctx := { valid := true, base := BitVec.ofNat 64 b, mode := .normal, ovfKey := 0, ovfVal := 0 }

/-- The setting of 95_test_vectors.md: contexts 0, 1 and 2 bound at 0, 0x200000 and 0x400000; context 3 unbound. -/
def idle (m : Memory) : State :=
  { State.reset with ctxs := [bound 0, bound 0x200000, bound 0x400000, Ctx.unbound], mem := m, result := .success }

/-- `i` has been issued with the operands KEY, VAL and BASE. -/
def busy (m : Memory) (i : Instr) (k v b : Reg) : State :=
  { idle m with busy := true, result := .none, lcmd := encode i, lkey := k, lval := v, lbase := b }

/-- The same under other parameters. -/
def busyWith (p : Params) (m : Memory) (i : Instr) (k v b : Reg) : State := { busy m i k v b with params := p }

/-- The state an outcome leaves. -/
def after : Host.Outcome State Fault Refusal → Option State
  | .next t => some t
  | .fault _ => none
  | .refused _ => none

/-- The buffer of context 0. -/
def g0 : Buffer := { order := .little, base := 0 }

/-- The association in slot i of its bucket of table 1. -/
def in1 (i : Nat) (k : Key) (v : Value) : (Table × BucketIx × Nat) × Entry := ((.t1, index .t1 k, i), enc .t1 ⟨k, v⟩)

/-- The association in slot i of its bucket of table 2. -/
def in2 (i : Nat) (k : Key) (v : Value) : (Table × BucketIx × Nat) × Entry := ((.t2, index .t2 k, i), enc .t2 ⟨k, v⟩)

/-- Key j · 2^32 + low. -/
def keyAt (j low : Nat) : Key := BitVec.ofNat 64 (j * 2 ^ 32 + low)

/-- INS-5 before K_10: T1[0] and T2[9] full. -/
def ten : List ((Table × BucketIx × Nat) × Entry) :=
  [in1 0 (keyAt 0 0x90000) 1, in1 1 (keyAt 1 0x90000) 2, in1 2 (keyAt 2 0x90000) 3, in1 3 (keyAt 3 0x90000) 4, in1 4 (keyAt 4 0x90000) 5,
   in2 0 (keyAt 5 0x90000) 6, in2 1 (keyAt 6 0x90000) 7, in2 2 (keyAt 7 0x90000) 8, in2 3 (keyAt 8 0x90000) 9, in2 4 (keyAt 9 0x90000) 10]

/-- INS-3 before X, without table 1's bucket 7: A_1..A_5 in T1[0] and B_0..B_4 in T2[9]. -/
def relocatable : List ((Table × BucketIx × Nat) × Entry) :=
  [in1 0 0x10000 1, in1 1 0x20000 1, in1 2 0x30000 1, in1 3 0x40000 1, in1 4 0x50000 1,
   in2 0 (keyAt 0 0x90007) 1, in2 1 (keyAt 1 0x90007) 1, in2 2 (keyAt 2 0x90007) 1, in2 3 (keyAt 3 0x90007) 1, in2 4 (keyAt 4 0x90007) 1]

/-- SPL-1's source. -/
def three : List ((Table × BucketIx × Nat) × Entry) := [in1 0 1 10, in1 0 2 20, in1 0 3 30]

/-- REM-3's bucket [X, X, Y, X, X] with X = (0x10004, 1) and Y = (0x20004, 2). -/
def duplicates : List ((Table × BucketIx × Nat) × Entry) :=
  [in1 0 0x10004 1, in1 1 0x10004 1, in1 2 0x20004 2, in1 3 0x10004 1, in1 4 0x10004 1]

/-- REM-5's bucket, with X = (0x10004, 1) in slot 4 only. -/
def lastOnly : List ((Table × BucketIx × Nat) × Entry) :=
  [in1 0 0x20004 2, in1 1 0x30004 3, in1 2 0x40004 4, in1 3 0x50004 5, in1 4 0x10004 1]

/-- The parameters with another REMOVE_POLICY. -/
def withPolicy (p : RemovePolicy) : Params := { Config.defaults with removePolicy := p }

/-! ### Syntax and decoding -/

/-- Every index is checked: 16 does not fit a 4-bit field (R89). -/
theorem test_ill_formed_refused :
    ¬(Instr.bind 16).WellFormed ∧ ¬(Instr.unbind 16).WellFormed ∧ ¬(Instr.insert 16).WellFormed ∧ ¬(Instr.lookup 16).WellFormed ∧
    ¬(Instr.remove 16).WellFormed ∧ ¬(Instr.split 16 0 0).WellFormed ∧ ¬(Instr.split 0 16 0).WellFormed ∧
    ¬(Instr.split 0 0 16).WellFormed := by decide

/-- Words written out field by field from the table of R87 and the fields of R89: CB, CA, C, OP. -/
theorem test_words_by_bits :
    decode 0b0000_0000_1111_0001 = .command (.bind 15) ∧ decode 0b0000_0000_0001_0010 = .command (.unbind 1) ∧
    decode 0b0000_0000_0100_0011 = .command (.insert 4) ∧ decode 0b0000_0000_1000_0100 = .command (.lookup 8) ∧
    decode 0b0000_0000_0010_0101 = .command (.remove 2) ∧ decode 0b1000_0100_0010_0110 = .command (.split 2 4 8) := by decide

/-- The same words, encoded. -/
theorem test_encode_words :
    encode (.bind 15) = 0xF1 ∧ encode (.unbind 1) = 0x12 ∧ encode (.insert 4) = 0x43 ∧ encode (.lookup 8) = 0x84 ∧
    encode (.remove 2) = 0x25 ∧ encode (.split 0 1 2) = 0x2106 := by decide

/-- Must-be-0 fields up to bit 63, and the reserved opcodes (R91). -/
theorem test_illegal_words :
    decode 0x8000000000000001 = .illegal .mustBeZero ∧ decode 0x1002 = .illegal .mustBeZero ∧ decode 0x10006 = .illegal .mustBeZero ∧
    decode 0xF = .illegal .reservedOp ∧ decode 0x7 = .illegal .reservedOp ∧ decode 0 = .illegal .reservedOp := by decide

theorem test_table_words :
    decodeTableWord 64 0x2106 = some (.split 0 1 2) ∧ decodeTableWord 8 0x12 = some (.unbind 1) ∧ decodeTableWord 64 0x103 = none := by
  decide

/-! ### The codec (COD-1 to COD-10) -/

theorem test_codec_COD1 :
    index .t1 0x0001000200030004 = 4 ∧ index .t2 0x0001000200030004 = 3 ∧
    enc .t1 ⟨0x0001000200030004, 42⟩ = ⟨0x00010002, 0x00030000, 0x2A⟩ ∧
    enc .t2 ⟨0x0001000200030004, 42⟩ = ⟨0x00010002, 0x00040000, 0x2A⟩ := by decide

theorem test_codec_COD4 :
    index .t1 0x123456789ABCDEF0 = 0xDEF0 ∧ index .t2 0x123456789ABCDEF0 = 0x9ABC ∧
    enc .t1 ⟨0x123456789ABCDEF0, 0xBEEFCAFE0001⟩ = ⟨0x12345678, 0x9ABCBEEF, 0xCAFE0001⟩ ∧
    enc .t2 ⟨0x123456789ABCDEF0, 0xBEEFCAFE0001⟩ = ⟨0x12345678, 0xDEF0BEEF, 0xCAFE0001⟩ := by decide

theorem test_codec_extremes :
    enc .t1 ⟨0xFFFFFFFFFFFFFFFF, 0xFFFFFFFFFFFF⟩ = ⟨0xFFFFFFFF, 0xFFFFFFFF, 0xFFFFFFFF⟩ ∧ enc .t2 ⟨0, 1⟩ = ⟨0, 0, 1⟩ ∧
    enc .t1 ⟨0xAAAA555512341234, 7⟩ = enc .t2 ⟨0xAAAA555512341234, 7⟩ ∧ enc .t1 ⟨0x10000, 0⟩ = ⟨0, 0x10000, 0⟩ ∧
    enc .t2 ⟨0x10000, 0⟩ = emptyEntry := by decide

theorem test_decode_entries :
    decKey .t1 5 emptyEntry = 5 ∧ decKey .t2 5 emptyEntry = 0x50000 ∧ decVal emptyEntry = 0 ∧
    decKey .t2 3 ⟨0x00010002, 0x00040000, 0⟩ = 0x0001000200030004 := by decide

/-! ### The commands -/

/-- CTX-4: the highest legal BASE. -/
theorem test_bind_CTX4 :
    (after (engineStep (busy [] (.bind 0) 0 0 0xFFE00000))).map (fun t => (t.statusImage, (t.ctx 0).base, (t.ctx 0).stateImage)) =
      some (0x10, 0xFFE00000, 1) := by decide

/-- CTX-5: one word above it. -/
theorem test_bind_CTX5 :
    (after (engineStep (busy [] (.bind 1) 0 0 0xFFE00001))).map (fun t => (t.statusImage, t.errImage, (t.ctx 1).base)) =
      some (0x52, 0x0000001100000005, 0x200000) := by decide

/-- CTX-2. -/
theorem test_unbind_CTX2 :
    (after (engineStep (busy [] (.unbind 1) 0 0 0))).map (fun t => (t.statusImage, (t.ctx 1).stateImage, (t.ctx 1).base)) =
      some (0x10, 0, 0) := by decide

/-- CTX-3: an unbound context. -/
theorem test_unbind_CTX3 :
    (after (engineStep (busy [] (.unbind 3) 0 0 0))).map (fun t => (t.statusImage, t.ctxs)) = some (0x10, (idle []).ctxs) := by decide

/-- INS-1: words 0x40 to 0x42. -/
theorem test_insert_INS1 :
    (after (engineStep (busy [] (.insert 0) 0x0001000200030004 42 0))).map (fun t =>
      (t.mem.readWord .little 0x40, t.mem.readWord .little 0x41, t.mem.readWord .little 0x42, t.errImage)) =
      some (0x00010002, 0x00030000, 0x2A, 0x0000000300000000) := by decide

/-- INS-5: FULL after 16 rounds, the overflow, and what T1[0].s0 and T2[9].s0 end with. -/
theorem test_insert_INS5 :
    (after (engineStep (busy (store g0 ten) (.insert 0) (keyAt 10 0x90000) 11 0))).map (fun t =>
      (t.statusImage, (t.ctx 0).stateImage, (t.ctx 0).ovfKey, (t.ctx 0).ovfVal,
        decodeSlot .t1 0 (readSlot g0 t.mem .t1 0 0), decodeSlot .t2 9 (readSlot g0 t.mem .t2 9 0))) =
      some (0x20, 3, 0x90000, 1, ⟨keyAt 5 0x90000, 6⟩, ⟨keyAt 10 0x90000, 11⟩) := by decide +kernel

/-- LKP-6: the largest value, zero-extended in RES0. -/
theorem test_lookup_LKP6 :
    ((after (engineStep (busy (store g0 [in1 0 5 0xFFFFFFFFFFFF]) (.lookup 0) 5 0 0))).bind (fun t =>
      after (hostStep (.readReg 0x050 8) t))).map State.readData = some 0x0000FFFFFFFFFFFF := by decide

/-- LKP-2: five empty slots decode to key 5 with value 0. -/
theorem test_lookup_LKP2 :
    (after (engineStep (busy [] (.lookup 0) 5 0 0))).map (fun t => (t.statusImage, t.rcountImage)) = some (0x30, 0) := by decide

/-- REM-3, under the three policies. -/
theorem test_remove_REM3 :
    (after (engineStep (busyWith (withPolicy .swapLastContinue) (store g0 duplicates) (.remove 0) 0x10004 1 0))).map (fun t =>
      readBucket g0 t.mem .t1 4) = some [enc .t1 ⟨0x10004, 1⟩, emptyEntry, enc .t1 ⟨0x20004, 2⟩, emptyEntry, emptyEntry] ∧
    (after (engineStep (busyWith (withPolicy .swapLastRestart) (store g0 duplicates) (.remove 0) 0x10004 1 0))).map (fun t =>
      readBucket g0 t.mem .t1 4) = some [emptyEntry, emptyEntry, enc .t1 ⟨0x20004, 2⟩, emptyEntry, emptyEntry] ∧
    (after (engineStep (busyWith (withPolicy .shiftDown) (store g0 duplicates) (.remove 0) 0x10004 1 0))).map (fun t =>
      readBucket g0 t.mem .t1 4) = some [enc .t1 ⟨0x20004, 2⟩, emptyEntry, emptyEntry, emptyEntry, emptyEntry] := by decide +kernel

/-- REM-5: slot 4 only; words 0x4C to 0x4E become 0. -/
theorem test_remove_REM5 :
    (after (engineStep (busy (store g0 lastOnly) (.remove 0) 0x10004 1 0))).map (fun t =>
      (t.statusImage, t.mem.readWord .little 0x4D, t.mem.readWord .little 0x4E, t.mem.readWord .little 0x4A)) =
      some (0x10, 0, 0, 0x00050000) := by decide +kernel

theorem slots_below_five {l : List ((Table × BucketIx × Nat) × Entry)} (h : l.all (fun y => decide (y.1.2.2 < 5)) = true) :
    ∀ y ∈ l, y.1.2.2 < 5 := by simpa using h

theorem buckets_below {l : List ((Table × BucketIx × Nat) × Entry)} {k : Nat} (h : l.all (fun y => decide (y.1.2.1.toNat < k)) = true) :
    ∀ y ∈ l, y.1.2.1.toNat < k := by simpa using h

theorem engineStep_of_decode {s : State} {i : Instr} (hb : s.busy = true) (hf : s.fault = false) (hd : decode s.lcmd = .command i) :
    engineStep s = exec i s := by
  simp [engineStep, hb, hf, hd]

theorem checks_empty : SplitChecks (busy [] (.split 0 1 2) 0 0 0) 0 1 2 := ⟨by decide, by decide, by decide, by decide, by decide⟩

/-- The engine's SPLIT 0, 1, 2: its checks pass, whatever the memory holds. -/
theorem engineStep_split (m : Memory) :
    engineStep (busy m (.split 0 1 2) 0 0 0) = .next (splitCore 0 1 2 (busy m (.split 0 1 2) 0 0 0)) :=
  (engineStep_of_decode (i := .split 0 1 2) rfl rfl (by simp only [busy]; decide)).trans
    (execSplit_of_checks ⟨checks_empty.lt, checks_empty.ne, checks_empty.valid, checks_empty.mode, checks_empty.apart⟩)

/-- SPL-1's collection. -/
theorem test_collect_SPL1 :
    collect (busy (store g0 three) (.split 0 1 2) 0 0 0) 0 = [⟨1, 10⟩, ⟨2, 20⟩, ⟨3, 30⟩] := by
  rw [collect_store (l := three) rfl (slots_below_five (by decide)) 4 (by decide) (buckets_below (by decide))]
  decide +kernel

/-- SPL-1: divider (2, 20), and the words of both destinations. -/
theorem test_split_SPL1 :
    (after (engineStep (busy (store g0 three) (.split 0 1 2) 0 0 0))).map (fun t =>
      (t.statusImage, t.divKey, t.divVal, t.mem.readWord .little 0x200012, t.mem.readWord .little 0x400022,
        t.mem.readWord .little 0x400032, t.mem.readWord .little 0x22)) = some (0x10, 2, 20, 0xA, 0x14, 0x1E, 0x14) := by
  rw [engineStep_split]
  simp only [after, splitCore, test_collect_SPL1]
  decide +kernel

/-- SPL-2: an empty source. -/
theorem test_split_SPL2 :
    (after (engineStep (busy [] (.split 0 1 2) 0 0 0))).map (fun t => (t.statusImage, t.errImage)) =
      some (0x40, 0x000021060000000A) := by
  have hc : collect (busy [] (.split 0 1 2) 0 0 0) 0 = [] := by
    rw [collect_store (l := []) rfl (by simp) 0 (by decide) (by simp)]; decide
  rw [engineStep_split]
  simp only [after, splitCore, hc]
  decide

/-! ### The host -/

/-- FLT-21: a CMD write while BUSY, read after the engine has stopped. -/
theorem test_busy_FLT21 :
    ((after (hostStep (.writeReg 0 8 0x04) (busy [] (.insert 0) 5 1 0))).bind (fun t => after (engineStep t))).map
      (fun t => (t.statusImage, t.errImage, t.rcountImage)) = some (0x52, 0x0000000400000001, 0) := by decide

/-- R35 (c) in FLT-21 before the engine has stopped: STATUS reads BUSY = 1, FAULT = 0, RESULT = NONE. -/
theorem test_busy_until_stopped :
    ((after (hostStep (.writeReg 0 8 0x04) (busy [] (.insert 0) 5 1 0))).bind (fun t => after (hostStep (.readReg 0x020 8) t))).map
      State.readData = some 0x1 := by decide

/-- FLT-6 and FLT-7: check 4 before check 5. -/
theorem test_priority_FLT6_FLT7 :
    (after (engineStep (busy [] (.split 0 0 1) 0 0 0))).map State.errImage = some 0x0000100600000103 ∧
    (after (engineStep (busy [] (.split 0 0 4) 0 0 0))).map State.errImage = some 0x0000400600000003 := by decide

/-- CFG's image, from R33's bit fields, for the settings of 95_test_vectors.md. -/
theorem test_cfg :
    (after (hostStep (.readReg 0x048 8) (idle []))).map State.readData = some 0x0010103520001004 := by decide

/-- `INSERT.w 0, 1, 10` (R97). -/
theorem test_insert_w :
    insertW 0 1 10 0 = [.host (.writeReg 0x008 8 1), .host (.writeReg 0x010 8 10), .host (.writeReg 0x000 8 0x03), .engine,
      .host (.readReg 0x020 8)] := by decide

/-- CTX-1: from reset, the next step after the issue runs BIND 1. -/
theorem test_step_runs_bind :
    (after (step (State.withFetchWord { State.reset with base := 0x00200000 } 64 0x11))).map (fun t =>
      (t.statusImage, t.errImage, (t.ctx 1).base)) = some (0x10, 0x0000001100000000, 0x00200000) := by decide


/-! ### Witnesses: for each statement, a state and operands that meet its hypotheses -/

theorem witness_EncodedCommandDecodesToItself : (Instr.split 15 15 15).WellFormed ∧ (Instr.bind 15).WellFormed ∧ (Instr.lookup 0).WellFormed := by
  decide

theorem witness_DecodedWordIsTheCommandsWord : decode 0xFFF6 = .command (.split 15 15 15) ∧ decode 0xF1 = .command (.bind 15) := by decide

theorem witness_WordSelectsCommandByMaskAndMatch :
    decode 0xFFF6 = .command (.split 15 15 15) ∧ decode 0x7 = .illegal .reservedOp ∧
    ({ busy [] (.bind 0) 0 0 0 with lcmd := 0x7 } : State).busy = true ∧ (busy [] (.bind 0) 0 0 0).fault = false := by decide

theorem witness_EntryOfNonzeroValueIsLive : (⟨0, 1⟩ : Assoc).val ≠ 0 := by decide

theorem witness_SlotWordsAreDistinctAndMissThePadding :
    (4 < 5 ∧ 2 < 3) ∧ slotAddr g0 .t2 65535 4 2 = slotAddr g0 .t2 65535 4 2 := by decide

/-- The invariant of a state written out, as one finite question over its fields. -/
theorem inv_of_fields {s : State}
    (h : (s.params.legal ∧ 3 ≤ s.nctx ∧ s.nctx ≤ 16) ∧ (s.mem.wf ∧ s.mem.within s.params.addrW) ∧ s.results.length ≤ 10 ∧
      ((s.busy = true → s.fault = true → s.errCode = .busy) ∧ (s.busy = true → s.fault = false → s.result = .none) ∧
        (s.fault = true ↔ s.result = .faulted)) ∧
      (s.fault = false ∨ s.busy = true → ∀ x ∈ s.ctxs, x.sound s.params.addrW)) : s.Inv where
  params := h.1.1
  nctx := h.1.2
  memWf := h.2.1.1
  memIn := h.2.1.2
  results := h.2.2.1
  stopping := h.2.2.2.1.1
  running := h.2.2.2.1.2.1
  faulted := h.2.2.2.1.2.2
  ctxs := h.2.2.2.2

/-- Context 0 bound at the highest legal base. -/
def highest : State := { idle [] with ctxs := [bound 0xFFE00000, Ctx.unbound, Ctx.unbound] }

theorem witness_BoundSlotAddressesStayInThePort :
    highest.Inv ∧ highest.fault = false ∧ (highest.ctx 0).valid = true ∧ 4 < 5 ∧ 2 < 3 :=
  ⟨inv_of_fields (by decide), by decide, by decide, by decide, by decide⟩

/-- The bytes of context 0's buffer. -/
theorem inNamed_zero {i : Instr} (hi : State.namedBy i = [0]) (m : Memory) (k v b : Reg) {a : Nat} (h : inNamed (busy m i k v b) i a) :
    a < 4 * 2097152 := by
  obtain ⟨c, hc, -, -, h⟩ := h
  rw [hi, List.mem_singleton] at hc
  subst hc
  have hb : ((busy m i k v b).buffer 0).base = 0 := rfl
  have h := h.2
  rw [hb, Nat.zero_add] at h
  exact h

/-- Idle, at the port's last word; and while INSERT 0 runs, at the word after buffer 0. -/
theorem witness_HostWordHasTheBytesOfTheByteOrder :
    (2 ^ 32 - 1 < 2 ^ (idle []).params.addrW ∧ (idle []).busy = false) ∧
    (2097152 < 2 ^ (busy [] (.insert 0) 5 1 0).params.addrW ∧
      ∀ i, decode (busy [] (.insert 0) 5 1 0).lcmd = .command i → ¬inNamed (busy [] (.insert 0) 5 1 0) i (4 * 2097152)) := by
  refine ⟨by decide, by decide, fun i hi h => ?_⟩
  rw [show decode (busy [] (.insert 0) 5 1 0).lcmd = .command (.insert 0) by decide] at hi
  cases hi
  exact absurd (inNamed_zero rfl _ _ _ _ h) (by decide)

theorem witness_CommandsAccessOnlyNamedBuffers :
    let s := busy [] (.insert 0) 5 1 0
    (∃ t, exec (.insert 0) s = .next t) ∧ ¬inNamed s (.insert 0) (4 * 2097152) ∧ inNamed s (.insert 0) (4 * 2097152 - 1) ∧
    ∀ a, inNamed s (.insert 0) a → Memory.byteAt [(4 * 2097152, 7)] a = s.mem.byteAt a := by
  refine ⟨⟨_, rfl⟩, fun h => ?_, ⟨0, by decide, by decide, by decide, by unfold inBuffer; decide⟩, fun a h => ?_⟩
  · exact absurd (inNamed_zero rfl _ _ _ _ h) (by decide)
  · have := inNamed_zero rfl _ _ _ _ h
    rw [Memory.byteAt_cons, if_neg (by dsimp only; omega)]; rfl

theorem witness_PaddingWordsSurviveCommands :
    ∃ t, exec (.insert 0) (busy [] (.insert 0) 5 1 0) = .next t ∧ 0 ∈ State.namedBy (.insert 0) ∧
      ((busy [] (.insert 0) 5 1 0).ctx 0).valid = true := ⟨_, rfl, by decide, by decide⟩

/-- Buffers 0 and 1 overlap by one word (FLT-17). -/
def oneWordOverlap : State :=
  { busy [] (.split 0 1 2) 0 0 0 with ctxs := [bound 0, bound 0x1FFFFF, bound 0x400000, Ctx.unbound] }

/-- UNBIND 3, which no check stops. -/
def unbinding : State := busy [] (.unbind 3) 0 0 0

theorem witness_FirstFailingCheckIsReported :
    (∃ row, (checkTable (busy [] (.insert 4) 5 1 0) (.insert 4))[0]? = some row ∧ row.1) ∧
    (∃ row, (checkTable oneWordOverlap (.split 0 1 2))[7]? = some row ∧ row.1 ∧
      ∀ k < 7, ∀ r : Prop × ErrCode × BitVec 8, (checkTable oneWordOverlap (.split 0 1 2))[k]? = some r → ¬r.1) ∧
    (∀ row ∈ checkTable unbinding (.unbind 3), ¬row.1) := by
  refine ⟨⟨_, rfl, 4, by decide, by decide⟩, ⟨_, rfl, ⟨0, 1, 2, rfl, .inl (by unfold overlapping; decide)⟩, ?_⟩, ?_⟩
  · have v : ∀ c ∈ State.namedBy (.split 0 1 2), ¬oneWordOverlap.nctx ≤ c ∧ (oneWordOverlap.ctx c).valid = true := by decide
    have m : (oneWordOverlap.ctx 1).mode = .normal ∧ (oneWordOverlap.ctx 2).mode = .normal := by decide
    intro k hk r hr
    have hk' : k = 0 ∨ k = 1 ∨ k = 2 ∨ k = 3 ∨ k = 4 ∨ k = 5 ∨ k = 6 := by omega
    rcases hk' with rfl | rfl | rfl | rfl | rfl | rfl | rfl <;> cases hr
    · rintro ⟨c, hc, h⟩; exact (v c hc).1 h
    · rintro ⟨c, ca, cb, h, h'⟩; cases h; simp at h'
    · rintro ⟨-, c, hc, h⟩; simp [(v c hc).2] at h
    · rintro ⟨⟨c, h⟩, -⟩; cases h
    · rintro ⟨c, h, -⟩; cases h
    · rintro ⟨⟨c, h | h⟩, -⟩ <;> cases h
    · rintro ⟨c, ca, cb, h, h'⟩; cases h; simp [m] at h'
  · intro row hrow
    have n : 3 < unbinding.nctx := by decide
    simp only [checkTable, List.mem_cons, List.not_mem_nil, or_false] at hrow
    rcases hrow with rfl | rfl | rfl | rfl | rfl | rfl | rfl | rfl <;> simp [State.namedBy, n]

theorem witness_UnboundContextFaultsBeforeAccess :
    let i := Instr.split 0 1 3
    let s := busy [] i 0 0 0
    (∀ c, i ≠ .bind c ∧ i ≠ .unbind c) ∧ (∀ c ∈ State.namedBy i, c < s.nctx) ∧ (State.namedBy i).Nodup ∧
    (∃ c ∈ State.namedBy i, (s.ctx c).valid = false) ∧ ∃ t, exec (.unbind 3) (busy [] (.unbind 3) 0 0 0) = .next t :=
  ⟨by simp, by decide, by decide, ⟨3, by decide, by decide⟩, _, rfl⟩

theorem witness_BindStartsANormalInstance :
    let s := fun b => busy [] (.bind 3) 0 0 b
    (s 0).nctx ≤ 4 ∧ 3 < (s 0).nctx ∧ 2 ^ (s 0).params.addrW < (s 0xFFE00001).lbase.toNat + 2097152 ∧ (s 0).params.legal ∧
    (s 0xFFE00000).lbase.toNat + 2097152 ≤ 2 ^ (s 0).params.addrW := by decide

theorem witness_UnbindClearsTheContext : (busy [] (.unbind 3) 0 0 0).nctx ≤ 4 ∧ 3 < (busy [] (.unbind 3) 0 0 0).nctx := by decide

/-! #### INSERT -/

/-- Four live slots of T1[0], of INS-3's A_1..A_4. -/
def four : List ((Table × BucketIx × Nat) × Entry) := [in1 0 0x10000 1, in1 1 0x20000 1, in1 2 0x30000 1, in1 3 0x40000 1]

theorem witness_InsertPlacesInTheFirstEmptySlot :
    let s := fun l => busy (store g0 l) (.insert 0) 0x90000 0xFFFFFFFFFFFF 0
    (insertReady (s []) 0 ∧ readSlot g0 (s []).mem .t1 0 0 = emptyEntry) ∧
    (insertReady (s four) 0 ∧ (∀ j < 4, liveSlot g0 (s four).mem .t1 0 j) ∧ readSlot g0 (s four).mem .t1 0 4 = emptyEntry) ∧
    (insertReady (s (in1 4 0x50000 1 :: four)) 0 ∧ bucketFull g0 (s (in1 4 0x50000 1 :: four)).mem .t1 0 ∧
      readSlot g0 (s (in1 4 0x50000 1 :: four)).mem .t2 9 0 = emptyEntry) := by
  unfold insertReady bucketFull liveSlot
  decide +kernel

/-- INS-3 with MAX_ROUNDS 2: round 2, the last one, finds an empty slot 0. -/
def relocating : State := busyWith { Config.defaults with maxRounds := 2 } (store g0 relocatable) (.insert 0) 0x90000 0x99 0

/-- INS-5's last INSERT. -/
def pingPong : State := busy (store g0 ten) (.insert 0) (keyAt 10 0x90000) 11 0

theorem relocating_mem : relocating.mem = store g0 relocatable := by simp only [relocating, busyWith, busy, idle]

theorem pingPong_mem : pingPong.mem = store g0 ten := by simp only [pingPong, busy, idle]

theorem witness_InsertDisplacesRoundByRound :
    (insertReady relocating 0 ∧ bucketFull g0 relocating.mem .t1 0 ∧ bucketFull g0 relocating.mem .t2 9 ∧
      (∀ q < 1, nextSlotLive g0 (afterRounds g0 relocating.mem ⟨0x90000, 0x99⟩ q)) ∧
      ¬nextSlotLive g0 (afterRounds g0 relocating.mem ⟨0x90000, 0x99⟩ 1) ∧ ¬inSlot g0 .t1 0 0 12) ∧
    (insertReady pingPong 0 ∧ bucketFull g0 pingPong.mem .t1 0 ∧ bucketFull g0 pingPong.mem .t2 9 ∧
      ∀ q < 16, nextSlotLive g0 (afterRounds g0 pingPong.mem ⟨keyAt 10 0x90000, 11⟩ q)) := by
  unfold insertReady bucketFull nextSlotLive liveSlot afterRounds inSlot
  decide +kernel

theorem witness_InsertFrame :
    (∃ t, exec (.insert 0) pingPong = .next t ∧ t.result = .full) ∧ ∃ t, exec (.insert 0) relocating = .next t ∧ t.result = .success :=
  ⟨⟨_, rfl, by decide +kernel⟩, _, rfl, by decide +kernel⟩

/-- No zero-valued live slot in a buffer known whole. -/
theorem noZeroValues_store {g : Buffer} {l : List ((Table × BucketIx × Nat) × Entry)} (hl : ∀ y ∈ l, y.1.2.2 < 5) (hv : ∀ y ∈ l, decVal y.2 ≠ 0) :
    noZeroValues g (store g l) := by
  intro t b i hi h
  rw [liveSlot, readSlot_store hl t b hi] at h
  rw [readSlot_store hl t b hi]
  have := hv _ (mem_of_stored h)
  exact this

/-- Left-packed buckets in a buffer known whole. -/
theorem leftPacked_store {g : Buffer} {l : List ((Table × BucketIx × Nat) × Entry)} (hl : ∀ y ∈ l, y.1.2.2 < 5)
    (hv : ∀ y ∈ l, ∀ i < y.1.2.2, stored l (y.1.1, y.1.2.1, i) ≠ emptyEntry) (t : Table) (b : BucketIx) : leftPacked g (store g l) t b := by
  intro j hj h i hi
  rw [liveSlot, readSlot_store hl t b hj] at h
  rw [liveSlot, readSlot_store hl t b (by omega)]
  exact hv _ (mem_of_stored h) i hi

theorem ten_slots : ∀ y ∈ ten, y.1.2.2 < 5 := slots_below_five (by decide)

theorem witness_InsertConservesAssociations :
    (insertReady pingPong 0 ∧ noZeroValues g0 pingPong.mem ∧ ∃ t, exec (.insert 0) pingPong = .next t ∧ t.result = .full) ∧
    (insertReady relocating 0 ∧ noZeroValues g0 relocating.mem ∧ ∃ t, exec (.insert 0) relocating = .next t ∧ t.result = .success) :=
  ⟨⟨witness_InsertDisplacesRoundByRound.2.1, pingPong_mem ▸ noZeroValues_store ten_slots (by decide), witness_InsertFrame.1⟩,
    witness_InsertDisplacesRoundByRound.1.1, relocating_mem ▸ noZeroValues_store (slots_below_five (by decide)) (by decide),
    witness_InsertFrame.2⟩

theorem witness_SuccessfulInsertKeepsAllFindable :
    insertReady relocating 0 ∧ (∃ t, exec (.insert 0) relocating = .next t ∧ t.result = .success) ∧
    (⟨0x10000, 1⟩ : Assoc).val ≠ 0 ∧ 0 < copies g0 relocating.mem ⟨0x10000, 1⟩ :=
  ⟨witness_InsertDisplacesRoundByRound.1.1, witness_InsertFrame.2, by decide, by decide +kernel⟩

theorem witness_EleventhCollidingKeyIsFull :
    insertReady pingPong 0 ∧ ∀ t, ∀ i < 5, decVal (readSlot (pingPong.buffer 0) pingPong.mem t (index t pingPong.lkey) i) ≠ 0 ∧
      (decKey t (index t pingPong.lkey) (readSlot (pingPong.buffer 0) pingPong.mem t (index t pingPong.lkey) i)).toNat % 2 ^ 32 =
        pingPong.lkey.toNat % 2 ^ 32 := by
  refine ⟨witness_InsertDisplacesRoundByRound.2.1, fun t => ?_⟩
  cases t <;> decide +kernel

/-- REMOVE of K_0 under SHIFT_DOWN from INS-5's ten slots. -/
def shifting : State := busyWith (withPolicy .shiftDown) (store g0 ten) (.remove 0) (keyAt 0 0x90000) 1 0

theorem shifting_mem : shifting.mem = store g0 ten := by simp only [shifting, busyWith, busy, idle]

theorem witness_LeftPackingSurvives :
    (noZeroValues g0 pingPong.mem ∧ (∃ t, exec (.insert 0) pingPong = .next t) ∧ ∀ tb b, leftPacked g0 pingPong.mem tb b) ∧
    (shifting.params.removePolicy = .shiftDown ∧ (∃ t, exec (.remove 0) shifting = .next t ∧ t.result = .success) ∧
      ∀ tb b, leftPacked g0 shifting.mem tb b) :=
  ⟨⟨pingPong_mem ▸ noZeroValues_store ten_slots (by decide), ⟨_, rfl⟩, pingPong_mem ▸ leftPacked_store ten_slots (by decide)⟩,
    rfl, ⟨_, rfl, by decide +kernel⟩, shifting_mem ▸ leftPacked_store ten_slots (by decide)⟩

/-! #### LOOKUP and REMOVE -/

theorem witness_LookupReturnsEveryStoredValue :
    2 < (busy [] (.lookup 2) 5 0 0).nctx ∧ ((busy [] (.lookup 2) 5 0 0).ctx 2).valid = true := by decide

/-- REMOVE 0 (0x10004, 1) under a policy. -/
def removing (p : RemovePolicy) (l : List ((Table × BucketIx × Nat) × Entry)) : State :=
  busyWith (withPolicy p) (store g0 l) (.remove 0) 0x10004 1 0

theorem witness_ShiftDownRemovesInOrder :
    removeReady (removing .shiftDown duplicates) 0 ∧ (removing .shiftDown duplicates).params.removePolicy = .shiftDown := by
  unfold removeReady; decide

theorem witness_RestartRemovesEveryCopy :
    removeReady (removing .swapLastRestart duplicates) 0 ∧ (removing .swapLastRestart duplicates).params.removePolicy = .swapLastRestart := by
  unfold removeReady; decide

/-- The three cases: no copy in slot 4, the only copy in slot 4, and copies in slot 4 and before it. -/
theorem witness_ContinueLeavesAtMostOneCopy :
    removeReady (removing .swapLastContinue duplicates) 0 ∧
    (removing .swapLastContinue duplicates).params.removePolicy = .swapLastContinue ∧
    readSlot g0 (store g0 [in1 3 0x10004 1]) .t1 4 4 ≠ enc .t1 ⟨0x10004, 1⟩ ∧
    (readSlot g0 (store g0 lastOnly) .t1 4 4 = enc .t1 ⟨0x10004, 1⟩ ∧ ∀ i < 4, readSlot g0 (store g0 lastOnly) .t1 4 i ≠ enc .t1 ⟨0x10004, 1⟩) ∧
    (readSlot g0 (store g0 duplicates) .t1 4 4 = enc .t1 ⟨0x10004, 1⟩ ∧ readSlot g0 (store g0 duplicates) .t1 4 0 = enc .t1 ⟨0x10004, 1⟩) := by
  unfold removeReady; decide +kernel

theorem witness_RemoveFrame :
    (∃ t, exec (.remove 0) (removing .swapLastContinue duplicates) = .next t ∧ t.result = .success) ∧
    (∃ t, exec (.remove 0) (removing .swapLastContinue []) = .next t ∧ t.result ≠ .success) ∧
    ∀ tb, ∀ i < 5, ¬inSlot g0 tb (index tb 0x10004) i (4 * (16 * 4 + 15)) := by
  refine ⟨⟨_, rfl, by decide +kernel⟩, ⟨_, rfl, by decide +kernel⟩, fun tb => ?_⟩
  unfold inSlot
  cases tb <;> decide

theorem witness_RemovedAssociationIsNotFound :
    (removeReady (removing .swapLastContinue lastOnly) 0 ∧
      (∃ t, exec (.remove 0) (removing .swapLastContinue lastOnly) = .next t ∧ t.result = .success) ∧
      ∀ tb, (readBucket g0 (store g0 lastOnly) tb (index tb 0x10004)).count (enc tb ⟨0x10004, 1⟩) ≤ 1) ∧
    (removeReady (removing .shiftDown duplicates) 0 ∧
      (∃ t, exec (.remove 0) (removing .shiftDown duplicates) = .next t ∧ t.result = .success) ∧
      (removing .shiftDown duplicates).params.removePolicy ≠ .swapLastContinue) := by
  refine ⟨⟨by unfold removeReady; decide, ⟨_, rfl, by decide +kernel⟩, fun tb => ?_⟩, witness_ShiftDownRemovesInOrder.1,
    ⟨_, rfl, by decide +kernel⟩, by decide⟩
  cases tb <;> decide +kernel

/-! #### SPLIT -/

/-- What `collected` takes of one slot. -/
def scanned (s : State) (c : Nat) (t : Table) (x : BucketIx × Nat) : Option Assoc :=
  if readSlot (s.buffer c) s.mem t x.1 x.2 = emptyEntry then none
  else if s.params.splitScan = .stopAtEmpty ∧ ∃ i < x.2, readSlot (s.buffer c) s.mem t x.1 i = emptyEntry then none
  else some (decodeSlot t x.1 (readSlot (s.buffer c) s.mem t x.1 x.2))

/-- The slots of the buckets below `k`. -/
def lowSlots (k : Nat) : List (BucketIx × Nat) := (List.range k).flatMap fun b => (List.range 5).map fun i => (BitVec.ofNat 16 b, i)

/-- `collected` of a buffer known whole. -/
theorem collected_store {s : State} {c : Nat} {l : List ((Table × BucketIx × Nat) × Entry)} (hm : s.mem = store (s.buffer c) l)
    (hl : ∀ y ∈ l, y.1.2.2 < 5) (k : Nat) (hk : k ≤ 65536) (h : ∀ y ∈ l, y.1.2.1.toNat < k) :
    collected s c = (if (s.ctx c).mode = .full then [⟨(s.ctx c).ovfKey, (s.ctx c).ovfVal⟩] else []) ++
      [Table.t1, Table.t2].flatMap fun t => (lowSlots k).filterMap (scanned s c t) := by
  have low : ∀ t, slotsOfTable.filterMap (scanned s c t) = (lowSlots k).filterMap (scanned s c t) := by
    intro t
    unfold slotsOfTable lowSlots
    rw [List.filterMap_flatMap, List.filterMap_flatMap]
    refine flatMap_range_low _ k 65536 hk fun b h1 h2 => List.filterMap_eq_nil_iff.mpr fun x hx => ?_
    obtain ⟨i, hi, rfl⟩ := List.mem_map.mp hx
    have hb : k ≤ (BitVec.ofNat 16 b).toNat := by rw [BitVec.toNat_ofNat, Nat.mod_eq_of_lt h2]; exact h1
    have he : readSlot (s.buffer c) s.mem t (BitVec.ofNat 16 b) i = emptyEntry := by
      rw [hm, readSlot_store hl t _ (List.mem_range.mp hi)]
      exact stored_high (fun y hy _ => h y hy) hb i
    rw [scanned, if_pos he]
  simp only [← low]
  rfl

theorem splitReady_empty : splitReady (busy [] (.split 0 1 2) 0 0 0) 0 1 2 := by unfold splitReady overlapping; decide

/-- The checks of SPLIT 0, 1, 2 pass whatever the memory holds. -/
theorem splitReady_busy (m : Memory) : splitReady (busy m (.split 0 1 2) 0 0 0) 0 1 2 := splitReady_empty

/-- The destinations of SPLIT 0, 1, 2 are empty when only context 0's buffer is written. -/
theorem allEmpty_apart {l : List ((Table × BucketIx × Nat) × Entry)} (hl : ∀ y ∈ l, y.1.2.2 < 5) {b : Nat} (hb : 2097152 ≤ b) :
    allEmpty { order := .little, base := b } (store g0 l) := by
  intro t k i hi
  refine readSlot_store_apart hl (.inl ?_) t k hi
  rw [show g0.base = 0 from rfl, Nat.zero_add]
  exact hb

theorem witness_SplitOfNothingIsRejected :
    splitReady (busy [] (.split 0 1 2) 0 0 0) 0 1 2 ∧ collected (busy [] (.split 0 1 2) 0 0 0) 0 = [] := by
  refine ⟨splitReady_empty, ?_⟩
  rw [collected_store (l := []) rfl (by simp) 0 (by decide) (by simp)]
  decide

/-- SPL-1. -/
def splitting : State := busy (store g0 three) (.split 0 1 2) 0 0 0

theorem splitting_collected : collected splitting 0 = [⟨1, 10⟩, ⟨2, 20⟩, ⟨3, 30⟩] := by
  rw [collected_store (l := three) rfl (slots_below_five (by decide)) 4 (by decide) (buckets_below (by decide))]
  decide +kernel

theorem splitting_result : ∃ t, exec (.split 0 1 2) splitting = .next t ∧ t.result = .success := by
  refine ⟨_, execSplit_of_checks ⟨by decide, by decide, by decide, by decide, by decide⟩, ?_⟩
  simp only [splitting, splitCore, test_collect_SPL1]
  decide +kernel

theorem witness_SplitDividesAtTheMedian :
    splitReady splitting 0 1 2 ∧ ∃ t, exec (.split 0 1 2) splitting = .next t ∧ t.result = .success :=
  ⟨splitReady_busy _, splitting_result⟩

theorem three_slots : ∀ y ∈ three, y.1.2.2 < 5 := slots_below_five (by decide)

theorem splitting_mem : splitting.mem = store g0 three := by simp only [splitting, busy, idle]

theorem witness_SplitDistributesTheHalves :
    splitReady splitting 0 1 2 ∧ allEmpty (splitting.buffer 1) splitting.mem ∧ allEmpty (splitting.buffer 2) splitting.mem ∧
    (∀ p ∈ collected splitting 0, p.val ≠ 0) ∧ (∃ t, exec (.split 0 1 2) splitting = .next t ∧ t.result = .success) ∧
    ∀ tb b, leftPacked (splitting.buffer 0) splitting.mem tb b := by
  refine ⟨splitReady_busy _, ?_, ?_, ?_, splitting_result, ?_⟩
  · rw [splitting_mem]; exact allEmpty_apart three_slots (b := 0x200000) (by decide)
  · rw [splitting_mem]; exact allEmpty_apart three_slots (b := 0x400000) (by decide)
  · rw [splitting_collected]; decide
  · rw [splitting_mem]; exact leftPacked_store three_slots (by decide)

/-- INS-5's ten slots as a source: each half of the collection has five pairs for T1[0]. -/
def splittingTen : State := busy (store g0 ten) (.split 0 1 2) 0 0 0

/-- The ten pairs in ascending order. -/
def tenPairs : List Assoc := (List.range 10).map fun j => ⟨keyAt j 0x90000, BitVec.ofNat 48 (j + 1)⟩

theorem splittingTen_mem : splittingTen.mem = store g0 ten := by simp only [splittingTen, busy, idle]

theorem countP_bucket_le {l : List Assoc} (h : l.length ≤ 5) (b : BucketIx) : l.countP (fun p => index .t1 p.key = b) ≤ 5 :=
  (List.countP_le_length ..).trans h

theorem witness_SplitCompletesOnEmptyDestinations :
    splitReady splittingTen 0 1 2 ∧ allEmpty (splittingTen.buffer 1) splittingTen.mem ∧ allEmpty (splittingTen.buffer 2) splittingTen.mem ∧
    tenPairs.Perm (collected splittingTen 0) ∧ tenPairs.Pairwise assocLe ∧ tenPairs ≠ [] ∧
    (∀ b, (tenPairs.take (tenPairs.length / 2)).countP (fun p => index .t1 p.key = b) ≤ 5) ∧
    (∀ b, (tenPairs.drop (tenPairs.length / 2)).countP (fun p => index .t1 p.key = b) ≤ 5) := by
  refine ⟨splitReady_busy _, ?_, ?_, ?_, by decide +kernel, by decide, countP_bucket_le (by decide), countP_bucket_le (by decide)⟩
  · rw [splittingTen_mem]; exact allEmpty_apart ten_slots (b := 0x200000) (by decide)
  · rw [splittingTen_mem]; exact allEmpty_apart ten_slots (b := 0x400000) (by decide)
  · rw [collected_store (l := ten) (by rw [show splittingTen.buffer 0 = g0 from rfl]; exact splittingTen_mem) ten_slots 10 (by decide) (buckets_below (by decide))]
    decide +kernel

/-- SPL-6's source: eleven pairs of high keys, and INS-5's eleven, the first of them as the overflow. -/
def overfilled : List ((Table × BucketIx × Nat) × Entry) :=
  ((List.range 11).map fun j => in1 0 (BitVec.ofNat 64 (0x1000000000000000 + j + 1)) 1) ++
  [in1 0 (keyAt 5 0x90000) 6, in1 1 (keyAt 1 0x90000) 2, in1 2 (keyAt 2 0x90000) 3, in1 3 (keyAt 3 0x90000) 4, in1 4 (keyAt 4 0x90000) 5,
   in2 0 (keyAt 10 0x90000) 11, in2 1 (keyAt 6 0x90000) 7, in2 2 (keyAt 7 0x90000) 8, in2 3 (keyAt 8 0x90000) 9, in2 4 (keyAt 9 0x90000) 10]

/-- SPL-6. -/
def overfilling : State :=
  { busy (store g0 overfilled) (.split 0 1 2) 0 0 0 with
    ctxs := [{ bound 0 with mode := .full, ovfKey := 0x90000, ovfVal := 1 }, bound 0x200000, bound 0x400000, Ctx.unbound] }

/-- SPL-6's pairs in ascending order. -/
def overfillingPairs : List Assoc :=
  ((List.range 11).map fun j => ⟨keyAt j 0x90000, BitVec.ofNat 48 (j + 1)⟩) ++
  (List.range 11).map fun j => ⟨BitVec.ofNat 64 (0x1000000000000000 + j + 1), 1⟩

theorem overfilled_slots : ∀ y ∈ overfilled, y.1.2.2 < 5 := slots_below_five (by decide +kernel)

theorem overfilling_mem : overfilling.mem = store g0 overfilled := by simp only [overfilling, busy, idle]

theorem overfilling_mem' : overfilling.mem = store (overfilling.buffer 0) overfilled := by
  rw [show overfilling.buffer 0 = g0 from rfl]; exact overfilling_mem

theorem overfilling_ready : splitReady overfilling 0 1 2 := by unfold splitReady overlapping; decide

/-- Eleven pairs of low keys, one for each of the buckets 1 to 11 of table 1, and ten colliding pairs above them. -/
def overfilledHigh : List ((Table × BucketIx × Nat) × Entry) :=
  ((List.range 11).map fun j => in1 0 (BitVec.ofNat 64 (j + 1)) 1) ++
  [in1 0 (keyAt 6 0x90000) 6, in1 1 (keyAt 2 0x90000) 2, in1 2 (keyAt 3 0x90000) 3, in1 3 (keyAt 4 0x90000) 4, in1 4 (keyAt 5 0x90000) 5,
   in2 0 (keyAt 11 0x90000) 11, in2 1 (keyAt 7 0x90000) 7, in2 2 (keyAt 8 0x90000) 8, in2 3 (keyAt 9 0x90000) 9, in2 4 (keyAt 10 0x90000) 10]

/-- The same, with the eleventh colliding pair as the overflow. -/
def overfillingHigh : State :=
  { busy (store g0 overfilledHigh) (.split 0 1 2) 0 0 0 with
    ctxs := [{ bound 0 with mode := .full, ovfKey := keyAt 1 0x90000, ovfVal := 1 }, bound 0x200000, bound 0x400000, Ctx.unbound] }

/-- Its pairs in ascending order. -/
def overfillingHighPairs : List Assoc :=
  ((List.range 11).map fun j => ⟨BitVec.ofNat 64 (j + 1), 1⟩) ++ (List.range 11).map fun j => ⟨keyAt (j + 1) 0x90000, BitVec.ofNat 48 (j + 1)⟩

theorem overfilledHigh_slots : ∀ y ∈ overfilledHigh, y.1.2.2 < 5 := slots_below_five (by decide +kernel)

theorem overfillingHigh_mem : overfillingHigh.mem = store g0 overfilledHigh := by simp only [overfillingHigh, busy, idle]

theorem overfillingHigh_mem' : overfillingHigh.mem = store (overfillingHigh.buffer 0) overfilledHigh := by
  rw [show overfillingHigh.buffer 0 = g0 from rfl]; exact overfillingHigh_mem

theorem overfillingHigh_ready : splitReady overfillingHigh 0 1 2 := by unfold splitReady overlapping; decide

/-- The lower half of `overfillingHighPairs` has at most one pair for a bucket of table 1. -/
theorem overfillingHigh_lower (b : BucketIx) :
    (overfillingHighPairs.take (overfillingHighPairs.length / 2)).countP (fun p => index .t1 p.key = b) ≤ 5 := by
  have h : ((overfillingHighPairs.take (overfillingHighPairs.length / 2)).map fun p => index .t1 p.key).Nodup := by decide +kernel
  have := List.nodup_iff_count_le_one.mp h b
  rw [List.count, List.countP_map] at this
  refine Nat.le_trans (List.countP_mono_left fun p _ hp => ?_) (Nat.le_trans this (by decide))
  simpa using hp

/-- SPL-6 for the lower half, and its mirror for the upper. -/
theorem witness_ElevenCollidingPairsOverfillADestination :
    (splitReady overfilling 0 1 2 ∧ allEmpty (overfilling.buffer 1) overfilling.mem ∧ overfillingPairs.Perm (collected overfilling 0) ∧
      overfillingPairs.Pairwise assocLe ∧ (∀ p ∈ overfillingPairs, p.val ≠ 0) ∧
      11 ≤ (overfillingPairs.take (overfillingPairs.length / 2)).countP (fun p => p.key.toNat % 2 ^ 32 = 0x90000)) ∧
    (splitReady overfillingHigh 0 1 2 ∧ allEmpty (overfillingHigh.buffer 1) overfillingHigh.mem ∧
      overfillingHighPairs.Perm (collected overfillingHigh 0) ∧ overfillingHighPairs.Pairwise assocLe ∧
      (∀ p ∈ overfillingHighPairs, p.val ≠ 0) ∧
      11 ≤ (overfillingHighPairs.drop (overfillingHighPairs.length / 2)).countP (fun p => p.key.toNat % 2 ^ 32 = 0x90000) ∧
      allEmpty (overfillingHigh.buffer 2) overfillingHigh.mem ∧
      ∀ b, (overfillingHighPairs.take (overfillingHighPairs.length / 2)).countP (fun p => index .t1 p.key = b) ≤ 5) := by
  refine ⟨⟨overfilling_ready, ?_, ?_, by decide +kernel, by decide +kernel, by decide +kernel⟩,
    overfillingHigh_ready, ?_, ?_, by decide +kernel, by decide +kernel, by decide +kernel, ?_, overfillingHigh_lower⟩
  · rw [overfilling_mem]; exact allEmpty_apart overfilled_slots (b := 0x200000) (by decide)
  · rw [collected_store (l := overfilled) overfilling_mem' overfilled_slots 12 (by decide) (buckets_below (by decide +kernel))]
    decide +kernel
  · rw [overfillingHigh_mem]; exact allEmpty_apart overfilledHigh_slots (b := 0x200000) (by decide)
  · rw [collected_store (l := overfilledHigh) overfillingHigh_mem' overfilledHigh_slots 12 (by decide) (buckets_below (by decide +kernel))]
    decide +kernel
  · rw [overfillingHigh_mem]; exact allEmpty_apart overfilledHigh_slots (b := 0x400000) (by decide)

/-- SPL-6 faults with E_SPLIT_DEST_FULL and info 0. -/
theorem overfilling_faults : ∃ t, exec (.split 0 1 2) overfilling = .next t ∧ t.errCode = .splitDestFull ∧ t.errInfo = 0 := by
  refine ⟨_, execSplit_of_checks ⟨by decide, by decide, by decide, by decide, by decide⟩, ?_⟩
  have hc : collect overfilling 0 = overflowOf (overfilling.ctx 0) ++
      ((List.range 12).flatMap fun b => collectBucket overfilling.params.splitScan (overfilling.buffer 0) overfilling.mem .t1 (BitVec.ofNat 16 b)) ++
      ((List.range 12).flatMap fun b => collectBucket overfilling.params.splitScan (overfilling.buffer 0) overfilling.mem .t2 (BitVec.ofNat 16 b)) :=
    collect_store (l := overfilled) overfilling_mem' overfilled_slots 12 (by decide) (buckets_below (by decide +kernel))
  simp only [splitCore, hc]
  decide +kernel

/-- Its mirror faults with info 1. -/
theorem overfillingHigh_faults : ∃ t, exec (.split 0 1 2) overfillingHigh = .next t ∧ t.errCode = .splitDestFull ∧ t.errInfo = 1 := by
  refine ⟨_, execSplit_of_checks ⟨by decide, by decide, by decide, by decide, by decide⟩, ?_⟩
  have hc : collect overfillingHigh 0 = overflowOf (overfillingHigh.ctx 0) ++
      ((List.range 12).flatMap fun b =>
        collectBucket overfillingHigh.params.splitScan (overfillingHigh.buffer 0) overfillingHigh.mem .t1 (BitVec.ofNat 16 b)) ++
      ((List.range 12).flatMap fun b =>
        collectBucket overfillingHigh.params.splitScan (overfillingHigh.buffer 0) overfillingHigh.mem .t2 (BitVec.ofNat 16 b)) :=
    collect_store (l := overfilledHigh) overfillingHigh_mem' overfilledHigh_slots 12 (by decide) (buckets_below (by decide +kernel))
  simp only [splitCore, hc]
  decide +kernel

theorem witness_SplitDestinationFullFaults :
    (splitReady overfilling 0 1 2 ∧ ∃ t, exec (.split 0 1 2) overfilling = .next t ∧ t.errCode = .splitDestFull ∧ t.errInfo = 0) ∧
    (splitReady overfillingHigh 0 1 2 ∧ ∃ t, exec (.split 0 1 2) overfillingHigh = .next t ∧ t.errCode = .splitDestFull ∧ t.errInfo = 1) :=
  ⟨⟨overfilling_ready, overfilling_faults⟩, overfillingHigh_ready, overfillingHigh_faults⟩

theorem witness_SplitLeavesTheSourceUnmodified :
    (∃ t, exec (.split 0 1 2) splitting = .next t) ∧ (splitting.ctx 0).valid = true ∧ inBuffer (splitting.buffer 0) 8388607 :=
  ⟨⟨_, rfl⟩, by decide, by unfold inBuffer; decide⟩

theorem witness_SplitFrame :
    (∃ t, exec (.split 0 1 2) splitting = .next t ∧ t.result = .success) ∧
    (∃ t, exec (.split 0 1 4) splitting = .next t ∧ t.result ≠ .success ∧ t.errCode ≠ .splitDestFull) ∧
    ¬inBuffer (splitting.buffer 1) 8388607 ∧ ¬inBuffer (splitting.buffer 2) 8388607 :=
  ⟨splitting_result, ⟨_, rfl, by decide, by decide⟩, by unfold inBuffer; decide, by unfold inBuffer; decide⟩

/-! #### Issue, faults, reset and registers -/

/-- A faulted machine, E_BAD_VALUE of INSERT 0 (FLT-10). -/
def stuck : State := { idle [] with fault := true, result := .faulted, errCode := .badValue, errCmd := 3 }

/-- INSERT 0 of (5, 1), issued and not yet complete. -/
def running : State := busy [] (.insert 0) 5 1 0

/-- The illegal word 7, issued and not yet complete. -/
def runningIllegal : State := { running with lcmd := 7 }

/-- INSERT 0 abandoned by E_BUSY (FLT-21), the engine not yet stopped. -/
def stopping : State := { running with cmd := 4, fault := true, result := .faulted, errCode := .busy, errCmd := 4 }

theorem stopping_inv : stopping.Inv :=
  inv_of_fields (by decide)

theorem stuck_inv : stuck.Inv :=
  inv_of_fields (by decide)

theorem running_inv : running.Inv :=
  inv_of_fields (by decide)

theorem not_inNamed_running : ¬inNamed running (.insert 0) (4 * 2097152) :=
  fun h => absurd (inNamed_zero rfl _ _ _ _ h) (by decide)

theorem inNamed_running : inNamed running (.insert 0) 8388607 :=
  ⟨0, by decide, by decide, by decide, by unfold inBuffer; decide⟩

/-- Byte 60 of buffer 0 is in the padding word of its first bucket, so in no slot; the byte after buffer 0 is in none either. -/
theorem not_inNamedSlot_running {a : Nat} (ha : a = 60 ∨ a = 4 * 2097152) : ¬inNamedSlot running (.insert 0) a := by
  rintro ⟨c, hc, -, -, t, b, j, hj, h⟩
  obtain rfl : c = 0 := by simpa [State.namedBy] using hc
  have hb : (running.buffer 0).base = 0 := rfl
  have := b.isLt
  simp only [inSlot, slotAddr, hb] at h
  cases t <;> simp only [tableOffset, Config.tableWords, Config.bucketWords] at h <;> omega

theorem witness_CmdWriteIssuesOnlyWhenIdle :
    stuck.fault = true ∧ ((idle []).fault = false ∧ (idle []).busy = false) ∧ (running.fault = false ∧ running.busy = true) := by decide

theorem witness_EngineStopsAfterBusyFault :
    (stopping.busy = true ∧ stopping.fault = true ∧ decode stopping.lcmd = .command (.insert 0) ∧ 1 ∉ State.namedBy (.insert 0) ∧
      ¬inNamedSlot stopping (.insert 0) 60 ∧ ¬inNamedSlot stopping (.insert 0) (4 * 2097152)) ∧
    ({ stopping with lcmd := 7 }.busy = true ∧ { stopping with lcmd := 7 }.fault = true ∧
      decode { stopping with lcmd := 7 }.lcmd = .illegal .reservedOp) :=
  ⟨⟨by decide, by decide, by decide, by decide, not_inNamedSlot_running (.inl rfl), not_inNamedSlot_running (.inr rfl)⟩, by decide⟩

/-- A fault of the engine (FLT-10) and E_BUSY (FLT-21). -/
theorem witness_FaultEntryRecordsTheCommand :
    (∃ t, step { running with lval := 0 } = .next t ∧ running.fault = false ∧ t.fault = true ∧ t.errCode = .badValue) ∧
    ∃ t, step { running with agenda := [.host (.writeReg 0 8 4)] } = .next t ∧ t.fault = true ∧ t.errCode = .busy :=
  ⟨⟨_, engineStep_of_decode (i := .insert 0) rfl rfl (by decide), by decide, by decide, by decide⟩, _, rfl, by decide, by decide⟩

/-- The engine's stop, a CMD write before it, and a CMD write after it. -/
theorem witness_FaultStaysUntilReset :
    (stopping.fault = true ∧ engineNext stopping ∧ (∀ rest, stopping.agenda ≠ .host .reset :: rest) ∧ ∃ t, step stopping = .next t) ∧
    (∃ t, step { stopping with agenda := [.host (.writeReg 0 8 4)] } = .next t ∧
      (∀ rest, { stopping with agenda := [.host (.writeReg 0 8 4)] }.agenda ≠ .host .reset :: rest) ∧
      ¬engineNext { stopping with agenda := [.host (.writeReg 0 8 4)] } ∧
      (∀ wa w rest, { stopping with agenda := [.host (.writeReg 0 8 4)] }.agenda ≠ .host (.writeWord wa w) :: rest) ∧
      ∀ ba b rest, { stopping with agenda := [.host (.writeReg 0 8 4)] }.agenda ≠ .host (.writeByte ba b) :: rest) ∧
    (stuck.fault = true ∧ stuck.busy = false ∧ ∃ t, step { stuck with agenda := [.host (.writeReg 0 8 4)] } = .next t) :=
  ⟨⟨by decide, .inl rfl, by simp [stopping, running, busy, idle, State.reset], _, rfl⟩,
    ⟨_, rfl, by simp, by rintro (h | ⟨rest, h⟩) <;> simp at h, by simp, by simp⟩, by decide, by decide, _, rfl⟩

/-- The last byte of buffer 0 is named by the running INSERT, the next one is not. -/
theorem witness_TouchingANamedBufferIsARace :
    (8388607 < 4 * 2 ^ running.params.addrW ∧ running.busy = true ∧ decode running.lcmd = .command (.insert 0) ∧
      inNamed running (.insert 0) 8388607) ∧
    (4 * 2097152 < 4 * 2 ^ running.params.addrW ∧ ¬inNamed running (.insert 0) (4 * 2097152)) ∧
    (runningIllegal.busy = true ∧ decode runningIllegal.lcmd = .illegal .reservedOp) ∧ (idle []).busy = false :=
  ⟨⟨by decide, by decide, by decide, inNamed_running⟩, ⟨by decide, not_inNamed_running⟩, by decide, by decide⟩

/-- Idle; and while INSERT 0 runs, a padding byte of the named buffer. -/
theorem witness_ResetClearsTheBlock :
    stuck.busy = false ∧ decode running.lcmd = .command (.insert 0) ∧
    ∀ i, decode running.lcmd = .command i → ¬inNamedSlot running i 60 := by
  refine ⟨by decide, by decide, fun i hi => ?_⟩
  rw [show decode running.lcmd = .command (.insert 0) by decide] at hi
  cases hi
  exact not_inNamedSlot_running (.inl rfl)

theorem witness_UnmappedAndReadOnlyOffsetsIgnoreWrites :
    (0x0A0 % 8 = 0 ∧ 0x0A0 ≤ 0x0A0 ∧ 0x0A0 < 0x100) ∧ (0x0F8 % 8 = 0 ∧ 0x0F8 < 0x100) ∧
    (0x180 % 8 = 0 ∧ 0x100 + 0x20 * (idle []).nctx ≤ 0x180) ∧ (0x020 % 8 = 0 ∧ 0x020 ≤ 0x020) := by decide

theorem witness_IdleReadsReturnTheRegisters :
    let s : State := { idle [] with results := [42] }
    s.busy = false ∧ s.results.length ≤ 10 ∧ s.results[0]? = some 42 ∧ s.results.length ≤ 1 ∧ s.results.length ≤ 9 ∧ 3 < s.nctx := by decide

theorem witness_ReadsWhileBusy : running.busy = true ∧ stopping.busy = true ∧ 0x028 % 8 = 0 := by decide

theorem witness_OperandWritesDoNotReachTheRunningCommand : ∃ t, engineStep running = .next t ∧ t.result = .success :=
  ⟨_, engineStep_of_decode (i := .insert 0) rfl rfl (by decide), by decide⟩

theorem witness_CfgReportsTheParametersForever :
    (idle []).params.legal ∧ (idle []).nctx ≤ 16 ∧ ∃ t, step { running with agenda := [.host .reset] } = .next t :=
  ⟨by decide, by decide, _, rfl⟩

theorem witness_OddRegisterAccessIsRefused : (4 : Nat) ≠ 8 ∧ 4 % 8 ≠ 0 := by decide

theorem witness_StepRunsTheDecodedCommand :
    (running.busy = true ∧ running.fault = false ∧ decode running.lcmd = .command (.insert 0) ∧ running.agenda = []) ∧
    { running with agenda := [.engine] }.agenda = [.engine] ∧ ((idle []).busy = false ∧ (idle []).agenda = []) ∧
    (Instr.split 15 15 15).WellFormed := by decide

theorem witness_EveryStepKeepsTheInvariant :
    (running.Inv ∧ ∃ t, step running = .next t ∧ t.result = .success) ∧ (stopping.Inv ∧ ∃ t, step stopping = .next t) ∧
    stuck.Inv ∧ ∃ t, step stuck = .next t :=
  ⟨⟨running_inv, witness_OperandWritesDoNotReachTheRunningCommand⟩, ⟨stopping_inv, _, rfl⟩, stuck_inv, _, rfl⟩

/-- A change by INSERT, by BIND, by UNBIND and by reset. (After E_SPLIT_DEST_FULL and the engine's stop the new MODE and VALID are free.) -/
theorem witness_ModeAndValidChangeOnlyAsListed :
    (pingPong.Inv ∧ ∃ t, step pingPong = .next t ∧ (t.ctx 0).mode ≠ (pingPong.ctx 0).mode) ∧
    ((busy [] (.bind 3) 0 0 0).Inv ∧
      ∃ t, step (busy [] (.bind 3) 0 0 0) = .next t ∧ (t.ctx 3).valid ≠ ((busy [] (.bind 3) 0 0 0).ctx 3).valid) ∧
    ((busy [] (.unbind 0) 0 0 0).Inv ∧
      ∃ t, step (busy [] (.unbind 0) 0 0 0) = .next t ∧ (t.ctx 0).valid ≠ ((busy [] (.unbind 0) 0 0 0).ctx 0).valid) ∧
    ({ idle [] with agenda := [.host .reset] }.Inv ∧
      ∃ t, step { idle [] with agenda := [.host .reset] } = .next t ∧ (t.ctx 0).valid ≠ ((idle []).ctx 0).valid) := by
  refine ⟨⟨?_, _, engineStep_of_decode (i := .insert 0) rfl rfl (by decide), by decide +kernel⟩,
    ⟨?_, _, engineStep_of_decode (i := .bind 3) rfl rfl (by decide), by decide⟩,
    ⟨?_, _, engineStep_of_decode (i := .unbind 0) rfl rfl (by decide), by decide⟩, ?_, _, rfl, by decide⟩ <;>
  exact inv_of_fields (by decide +kernel)

end Sys2Proof.Tests
end

section
/-! PROOFS. The decoder on the words of the encoder (R88, R89): the two masks as conditions on a word's number, and `decode` after `encode`. -/

namespace Sys2Proof

/-- A mask with ones everywhere but in the `k` bits above the opcode clears just those bits. -/
theorem and_fieldMask_toNat {n k : Nat} (w : BitVec (n + k + 4)) :
    (w &&& (BitVec.allOnes n ++ 0#k ++ BitVec.allOnes 4)).toNat = w.toNat / 2 ^ (k + 4) * 2 ^ (k + 4) + w.toNat % 16 := by
  have hsplit : w = w.extractLsb' (k + 4) n ++ w.extractLsb' 4 k ++ w.extractLsb' 0 4 := by
    ext i hi
    simp only [BitVec.getElem_append, BitVec.getElem_extractLsb']
    split_ifs <;> rw [← BitVec.getLsbD_eq_getElem] <;> congr 1 <;> omega
  have hmask : w &&& (BitVec.allOnes n ++ 0#k ++ BitVec.allOnes 4) = w.extractLsb' (k + 4) n ++ 0#k ++ w.extractLsb' 0 4 := by
    conv_lhs => rw [hsplit]
    rw [BitVec.and_append, BitVec.and_append, BitVec.and_allOnes, BitVec.and_zero, BitVec.and_allOnes]
  have hhigh : w.toNat / 2 ^ (k + 4) < 2 ^ n := by
    rw [Nat.div_lt_iff_lt_mul (by positivity), ← pow_add, ← add_assoc]; exact w.isLt
  rw [hmask, append_toNat, append_toNat, extract_toNat, extract_toNat, Nat.mod_eq_of_lt hhigh, BitVec.toNat_ofNat]
  simp [pow_add, mul_assoc]

theorem and_cFormMask_toNat (w : Reg) : (w &&& cFormMask).toNat = w.toNat / 256 * 256 + w.toNat % 16 :=
  and_fieldMask_toNat (n := 56) (k := 4) w

theorem and_sFormMask_toNat (w : Reg) : (w &&& sFormMask).toNat = w.toNat / 65536 * 65536 + w.toNat % 16 :=
  and_fieldMask_toNat (n := 48) (k := 12) w

/-- A C-form row's test (R88): the opcode is the row's, and bits [63:8] are 0. -/
theorem and_cFormMask_eq_iff (w : Reg) {m : Nat} (hm : m < 16) :
    w &&& cFormMask = BitVec.ofNat 64 m ↔ opField w = m ∧ w.toNat < 256 := by
  rw [← BitVec.toNat_inj, and_cFormMask_toNat, BitVec.toNat_ofNat, opField_eq]; omega

/-- The S-form row's test (R88): the opcode is the row's, and bits [63:16] are 0. -/
theorem and_sFormMask_eq_iff (w : Reg) {m : Nat} (hm : m < 16) :
    w &&& sFormMask = BitVec.ofNat 64 m ↔ opField w = m ∧ w.toNat < 65536 := by
  rw [← BitVec.toNat_inj, and_sFormMask_toNat, BitVec.toNat_ofNat, opField_eq]; omega

/-- The rows of the decoder (R88): a word with a command's opcode and context fields, and 0 beyond the command's form, decodes to it. -/
theorem decode_of_fields {w : Reg} {i : Instr} (hop : opField w = i.op) (hw : w.toNat < 2 ^ Laws.WordShape.width i)
    (hc : cField w = i.fields.1) (hca : caField w = i.fields.2.1) (hcb : cbField w = i.fields.2.2) : decode w = .command i := by
  have cTest (m : Nat) (hm : m < 16) := and_cFormMask_eq_iff w hm
  have sTest (m : Nat) (hm : m < 16) := and_sFormMask_eq_iff w hm
  cases i with
  | split c ca cb =>
    simp only [Instr.op, Instr.fields, Laws.WordShape.width, Nat.reducePow] at hop hw hc hca hcb
    simp [decode, cTest, sTest, hop, hw, hc, hca, hcb]
  | _ =>
    simp only [Instr.op, Instr.fields, Laws.WordShape.width, Nat.reducePow] at hop hw hc
    simp [decode, cTest, hop, hw, hc]

/-- Every context index of a well-formed command is below 16, and so is its opcode (R87, R89). -/
theorem Instr.WellFormed.fields_lt {i : Instr} (h : i.WellFormed) :
    i.op < 16 ∧ i.fields.1 < 16 ∧ i.fields.2.1 < 16 ∧ i.fields.2.2 < 16 := by
  rw [Instr.WellFormed] at h
  cases i <;> simpa [Instr.wellFormed, fitsField, Instr.op, Instr.fields, and_assoc] using h

/-- A well-formed command's word is the sum of R89, which no field overflows. -/
theorem encode_toNat {i : Instr} (h : i.WellFormed) :
    (encode i).toNat = i.op + 16 * i.fields.1 + 256 * i.fields.2.1 + 4096 * i.fields.2.2 := by
  obtain ⟨hop, hc, hca, hcb⟩ := h.fields_lt
  rw [encode, BitVec.toNat_ofNat]; omega

/-- The context fields of a command's word are the command's (R25, R89). -/
theorem contextFields_encode {i : Instr} (h : i.WellFormed) :
    cField (encode i) = i.fields.1 ∧ caField (encode i) = i.fields.2.1 ∧ cbField (encode i) = i.fields.2.2 := by
  obtain ⟨hop, hc, hca, hcb⟩ := h.fields_lt
  rw [cField_eq, caField_eq, cbField_eq, encode_toNat h]; omega

/-- Every command's word has its opcode and stays inside its form (R88). -/
theorem encode_hasWordShape (i : Instr) : Laws.WordShape.Statement i := by
  cases i with
  | bind c => exact Laws.WordShape.bind c
  | unbind c => exact Laws.WordShape.unbind c
  | insert c => exact Laws.WordShape.insert c
  | lookup c => exact Laws.WordShape.lookup c
  | remove c => exact Laws.WordShape.remove c
  | split c ca cb => exact Laws.WordShape.split c ca cb

/-- The decoder reads a well-formed command back from its word. -/
theorem decode_encode {i : Instr} (h : i.WellFormed) : decode (encode i) = .command i := by
  obtain ⟨hop, hwidth⟩ := encode_hasWordShape i h
  obtain ⟨hc, hca, hcb⟩ := contextFields_encode h
  exact decode_of_fields hop hwidth hc hca hcb

end Sys2Proof
end

section
/-! PROOFS. The engine's step as the decoded command's meaning (R18, R85). -/

namespace Sys2Proof.Machine

theorem step_of_agenda_nil {s : State} (h : s.agenda = []) : step s = engineStep s := by simp only [step, h]

theorem step_of_agenda_engine {s : State} {rest : List Move} (h : s.agenda = .engine :: rest) :
    step s = engineStep { s with agenda := rest } := by simp only [step, h]

theorem engineStep_of_idle {s : State} (hb : s.busy = false) : engineStep s = .next s := by simp [engineStep, hb]

/-- A running command's completion is its meaning (R18, R88). -/
theorem engineStep_of_command {s : State} {i : Instr} (hb : s.busy = true) (hf : s.fault = false) (hd : decode s.lcmd = .command i) :
    engineStep s = exec i s := by simp [engineStep, hb, hf, hd]

/-- A placed 64-bit word is issued as it is. -/
theorem withFetchWord_toNat (s : State) (w : Reg) :
    s.withFetchWord 64 w.toNat = { s.issue w with fault := false, agenda := .engine :: s.agenda } := by
  have hword : BitVec.ofNat 64 (w.toNat % 2 ^ 64) = w := by rw [Nat.mod_eq_of_lt w.isLt, BitVec.ofNat_toNat, BitVec.setWidth_eq]
  rw [State.withFetchWord, hword]

/-- Settles O56: the step is the engine's move, which runs what LCMD decodes to; a placed command decodes back from its word. -/
theorem stepRunsTheDecodedCommand : Obligations.StepRunsTheDecodedCommand := by
  intro s i rest
  refine ⟨fun hb hf hd ha => ?_, fun hb hf hd ha => ?_, fun hb ha => ?_, fun hwf => ?_⟩
  · rw [step_of_agenda_nil ha, engineStep_of_command hb hf hd]
  · rw [step_of_agenda_engine ha]
    exact engineStep_of_command hb hf hd
  · rw [step_of_agenda_nil ha, engineStep_of_idle hb]
  · rw [withFetchWord_toNat, step_of_agenda_engine rfl]
    exact engineStep_of_command rfl rfl (decode_encode hwf)

end Sys2Proof.Machine
end

section
/-! PROOFS. The invariant of every reachable state (R29, R36, R39, R121, R163, R169): what each end of a command and each access of the host keeps. -/

namespace Sys2Proof.Machine

/-! ### Sound contexts (R36, R39, R121) -/

namespace Ctx

theorem sound_unbound (addrW : Nat) : Ctx.unbound.sound addrW := ⟨fun _ => rfl, nofun, fun _ => ⟨rfl, rfl⟩⟩

/-- BIND's range check keeps the bound buffer inside the port (R121). -/
theorem sound_bound {addrW : Nat} {b : Reg} (h : baseInRange addrW b = true) :
    Ctx.sound addrW ⟨true, State.truncAddr addrW b, .normal, 0, 0⟩ := by
  have hle : b.toNat + Config.bufWords ≤ 2 ^ addrW := of_decide_eq_true h
  have hbase : State.truncAddr addrW b = b := by
    rw [State.truncAddr, Nat.mod_eq_of_lt (lt_of_lt_of_le (Nat.lt_add_of_pos_right (by decide)) hle), BitVec.ofNat_toNat,
      BitVec.setWidth_eq]
  rw [hbase]
  exact ⟨nofun, fun _ => hle, fun _ => ⟨rfl, rfl⟩⟩

/-- A bound context that becomes FULL keeps its buffer (R130). -/
theorem sound.markFull {addrW : Nat} {x : Ctx} (h : x.sound addrW) (hv : x.valid = true) (p : Assoc) : (markFull x p).sound addrW :=
  ⟨fun hv' => absurd (hv.symm.trans hv') nofun, h.2.1, nofun⟩

end Ctx

/-! ### Memory inside the address space (R60) -/

theorem Memory.within.put {addrW : Nat} {m : Memory} (h : m.within addrW) {a : Nat} (ha : a / 4 < 2 ^ addrW) (b : Byte) :
    Memory.within addrW (m.put a b) := fun c hc =>
  (Memory.mem_put hc).elim (fun e => by omega) (h c)

theorem Memory.within.writeWord {addrW : Nat} {m : Memory} (h : m.within addrW) {wa : Nat} (hwa : wa < 2 ^ addrW) (o : ByteOrder) (w : Word) :
    Memory.within addrW (m.writeWord o wa w) := fun c hc =>
  (Memory.mem_writeWord hc).elim (fun e => by omega) (h c)

theorem SlotWrites.within {addrW : Nat} {P : Buffer → Prop} {m m' : Memory} (h : SlotWrites P m m')
    (hP : ∀ g, P g → g.base + Config.bufWords ≤ 2 ^ addrW) (hm : m.within addrW) : Memory.within addrW m' := by
  intro c hc
  rcases h.listed c hc with hold | ⟨g, t, b, i, hi, j, hj, hg, hcj⟩
  · exact hm c hold
  · have hslot := slotAddr_bounds g t b hi hj
    have hbuf := hP g hg
    omega

namespace State

/-- The part of the invariant that speaks of parameters and memory alone: it holds whatever a fault leaves in the contexts. -/
structure Grounded (s : State) : Prop where
  params : s.params.legal
  nctx   : 3 ≤ s.nctx ∧ s.nctx ≤ 16
  memWf  : s.mem.wf
  memIn  : s.mem.within s.params.addrW

/-- Every context of the file is sound. -/
def AllSound (s : State) : Prop := ∀ x ∈ s.ctxs, x.sound s.params.addrW

variable {s : State}

theorem Inv.grounded (h : s.Inv) : s.Grounded := ⟨h.params, h.nctx, h.memWf, h.memIn⟩

/-- The invariant does not speak of CMD, KEY, VAL, BASE, the agenda, the host's data and the draws. -/
theorem Inv.withHostFields (h : s.Inv) (cmd key val base : Reg) (agenda : List Move) (readData : Reg) (draws : Nat) :
    Inv { s with cmd := cmd, key := key, val := val, base := base, agenda := agenda, readData := readData, draws := draws } :=
  ⟨h.params, h.nctx, h.memWf, h.memIn, h.results, h.stopping, h.running, h.faulted, h.ctxs⟩

theorem Grounded.setMem (h : s.Grounded) {m : Memory} (hwf : m.wf) (hin : m.within s.params.addrW) : (s.setMem m).Grounded :=
  ⟨h.params, h.nctx, hwf, hin⟩

theorem Grounded.setCtx (h : s.Grounded) (c : Nat) (x : Ctx) : (s.setCtx c x).Grounded :=
  ⟨h.params, (s.nctx_setCtx c x).symm ▸ h.nctx, h.memWf, h.memIn⟩

theorem AllSound.setCtx (h : s.AllSound) (c : Nat) {x : Ctx} (hx : x.sound s.params.addrW) : (s.setCtx c x).AllSound := fun y hy =>
  (List.mem_or_eq_of_mem_set hy).elim (h y) fun e => e ▸ hx

/-- The buffer of a bound sound context lies inside the port (R121). -/
theorem AllSound.buffer_le (h : s.AllSound) {c : Nat} (hv : (s.ctx c).valid = true) :
    (s.buffer c).base + Config.bufWords ≤ 2 ^ s.params.addrW :=
  (h _ (ctx_mem (lt_nctx_of_valid hv))).2.1 hv

/-- Slot writes into bound buffers keep memory canonical and inside the address space. -/
theorem Grounded.slotWrites (h : s.Grounded) {P : Buffer → Prop} {m : Memory} (hw : SlotWrites P s.mem m)
    (hP : ∀ g, P g → g.base + Config.bufWords ≤ 2 ^ s.params.addrW) : (s.setMem m).Grounded :=
  h.setMem (hw.wf h.memWf) (hw.within hP h.memIn)

theorem Grounded.unspecifyBuffers (h : s.Grounded) (hs : s.AllSound) (cs : List Nat) : (s.unspecifyBuffers cs).Grounded := by
  refine h.setMem (wf_unspecifyBuffers h.memWf) fun x hx => ?_
  rcases listed_unspecifyBuffers x hx with hold | ⟨c, -, hv, -, hlt⟩
  · exact h.memIn x hold
  · have := hs.buffer_le hv
    rw [buffer_base] at this
    omega

theorem Grounded.unspecify (h : s.Grounded) (hs : s.AllSound) (cs : List Nat) : (s.unspecify cs).Grounded := by
  have hu := h.unspecifyBuffers hs cs
  have hparams : (s.unspecify cs).params = s.params := by rw [unspecify_eq]
  exact ⟨hparams ▸ h.params, (s.nctx_unspecify cs).symm ▸ h.nctx, (s.unspecify_mem cs).symm ▸ hu.memWf,
    by rw [hparams, unspecify_mem]; exact hu.memIn⟩

/-! ### The ends of a command -/

/-- A fault of the running command leaves the invariant, whatever the contexts hold (R163). -/
theorem Grounded.raise (h : s.Grounded) (code : ErrCode) (info : BitVec 8) : (s.raise code info).Inv where
  params := h.params
  nctx := h.nctx
  memWf := h.memWf
  memIn := h.memIn
  results := Nat.zero_le _
  stopping := nofun
  running := nofun
  faulted := ⟨fun _ => rfl, fun _ => rfl⟩
  ctxs := nofun

/-- An end without a fault leaves the invariant (R162, R164). -/
theorem Grounded.endCommand (h : s.Grounded) (hs : s.AllSound) (hf : s.fault = false) {r : Result} (hr : r ≠ .faulted) (code : ErrCode)
    (info : BitVec 8) (word : Reg) {vals : List Value} (hvals : vals.length ≤ 10) : (s.endCommand r code info word vals).Inv where
  params := h.params
  nctx := h.nctx
  memWf := h.memWf
  memIn := h.memIn
  results := hvals
  stopping := nofun
  running := nofun
  faulted := ⟨fun hf' => absurd (hf.symm.trans hf') nofun, fun hr' => absurd hr' hr⟩
  ctxs := fun _ => hs

theorem Grounded.finish (h : s.Grounded) (hs : s.AllSound) (hf : s.fault = false) {r : Result} (hr : r ≠ .faulted) : (s.finish r).Inv :=
  h.endCommand hs hf hr _ _ _ (Nat.zero_le _)

end State

/-! ### The commands -/

section
variable {s t : State} (h : s.Inv) (hf : s.fault = false)
include h hf

theorem execBind_keeps_inv {c : Nat} (he : exec (.bind c) s = .next t) : t.Inv := by
  have hs : s.AllSound := h.ctxs (.inl hf)
  rcases execBind_cases he with ⟨-, rfl⟩ | ⟨-, -, rfl⟩ | ⟨-, hb, rfl⟩
  · exact h.grounded.raise _ _
  · exact h.grounded.raise _ _
  · exact (h.grounded.setCtx c _).finish (hs.setCtx c (Ctx.sound_bound hb)) hf nofun

theorem execUnbind_keeps_inv {c : Nat} (he : exec (.unbind c) s = .next t) : t.Inv := by
  have hs : s.AllSound := h.ctxs (.inl hf)
  rcases execUnbind_cases he with ⟨-, rfl⟩ | ⟨-, rfl⟩
  · exact h.grounded.raise _ _
  · exact (h.grounded.setCtx c _).finish (hs.setCtx c (Ctx.sound_unbound _)) hf nofun

theorem execInsert_keeps_inv {c : Nat} (he : exec (.insert c) s = .next t) : t.Inv := by
  have hs : s.AllSound := h.ctxs (.inl hf)
  rcases execInsert_cases he with ⟨-, rfl⟩ | ⟨-, -, rfl⟩ | ⟨-, -, rfl⟩ | ⟨-, -, -, rfl⟩ | ⟨hv, -, -, hend⟩
  iterate 4 exact h.grounded.raise _ _
  have hw := insertCore_writes (s.buffer c) s.params.maxRounds s.mem s.operand
  have hmem := h.grounded.slotWrites hw fun g hg => hg ▸ hs.buffer_le hv
  rcases hend with ⟨m, hm, rfl⟩ | ⟨m, p, hm, rfl⟩ <;> rw [hm] at hmem
  · exact hmem.finish hs hf nofun
  · exact (hmem.setCtx c _).finish (hs.setCtx c ((hs _ (State.ctx_mem (State.lt_nctx_of_valid hv))).markFull hv p)) hf nofun

theorem execLookup_keeps_inv {c : Nat} (he : exec (.lookup c) s = .next t) : t.Inv := by
  have hs : s.AllSound := h.ctxs (.inl hf)
  rcases execLookup_cases he with ⟨-, rfl⟩ | ⟨-, -, rfl⟩ | ⟨-, rfl⟩
  · exact h.grounded.raise _ _
  · exact h.grounded.raise _ _
  · have hlen : (shuffle s.draws (lookupMatches (s.buffer c) s.mem s.lkey)).length ≤ 10 :=
      (shuffle_perm _ _).length_eq.trans_le (length_lookupMatches _ _ _)
    exact (h.grounded.endCommand hs hf (by split <;> nofun) _ _ _ hlen).withHostFields _ _ _ _ _ _ _

theorem execRemove_keeps_inv {c : Nat} (he : exec (.remove c) s = .next t) : t.Inv := by
  have hs : s.AllSound := h.ctxs (.inl hf)
  rcases execRemove_cases he with ⟨-, rfl⟩ | ⟨-, -, rfl⟩ | ⟨-, -, rfl⟩ | ⟨hv, -, rfl⟩
  iterate 3 exact h.grounded.raise _ _
  have hw := removeCore_writes s.params.removePolicy (s.buffer c) s.mem s.operand
  exact (h.grounded.slotWrites hw fun g hg => hg ▸ hs.buffer_le hv).finish hs hf (by split <;> nofun)

theorem execSplit_keeps_inv {c ca cb : Nat} (he : exec (.split c ca cb) s = .next t) : t.Inv := by
  have hs : s.AllSound := h.ctxs (.inl hf)
  rcases execSplit_cases he with ⟨-, rfl⟩ | ⟨-, rfl⟩ | ⟨-, rfl⟩ | ⟨-, rfl⟩ | ⟨-, rfl⟩ | ⟨hchecks, rfl⟩
  iterate 5 exact h.grounded.raise _ _
  obtain ⟨-, hva, hvb⟩ := hchecks.valid
  rcases splitCore_cases c ca cb s with ⟨-, e⟩ | ⟨upper, -, e⟩ | ⟨m, p, -, -, hd, e⟩ <;> rw [e]
  · exact h.grounded.endCommand hs hf (r := .rejected) nofun _ _ _ (Nat.zero_le _)
  · exact (h.grounded.unspecify hs _).raise _ _
  · have hmem := h.grounded.slotWrites (distribute_writes hd) fun g hg =>
      hg.elim (fun e => e ▸ hs.buffer_le hva) (fun e => e ▸ hs.buffer_le hvb)
    have hdiv : ((s.setMem m).setDivider p).Grounded := ⟨hmem.params, hmem.nctx, hmem.memWf, hmem.memIn⟩
    exact hdiv.finish hs hf nofun

/-- Every command that runs keeps the invariant. -/
theorem exec_keeps_inv {i : Instr} (he : exec i s = .next t) : t.Inv := by
  cases i with
  | bind c => exact execBind_keeps_inv h hf he
  | unbind c => exact execUnbind_keeps_inv h hf he
  | insert c => exact execInsert_keeps_inv h hf he
  | lookup c => exact execLookup_keeps_inv h hf he
  | remove c => exact execRemove_keeps_inv h hf he
  | split c ca cb => exact execSplit_keeps_inv h hf he

end

/-! ### The moves -/

section
variable {s t : State}

/-- The stop after E_BUSY leaves FAULT set, so the named contexts may be unsound (R166). -/
theorem State.Inv.stopEngine (h : s.Inv) (hb : s.busy = true) (hf : s.fault = true) : s.stopEngine.Inv := by
  have hu := h.grounded.unspecify (h.ctxs (.inr hb)) s.namedCtxs
  have hparams : (s.unspecify s.namedCtxs).params = s.params := by rw [State.unspecify_eq]
  exact
    { params := hu.params
      nctx := hu.nctx
      memWf := hu.memWf
      memIn := hu.memIn
      results := by simpa using h.results
      stopping := by simp
      running := by simp
      faulted := by simpa using h.faulted
      ctxs := by simp [hf] }

/-- The engine's move keeps the invariant. -/
theorem engineStep_keeps_inv (h : s.Inv) (he : engineStep s = .next t) : t.Inv := by
  rcases engineStep_cases he with ⟨-, rfl⟩ | ⟨hb, hf, rfl⟩ | ⟨-, hf, i, -, hi⟩ | ⟨-, -, -, rfl⟩
  · exact h
  · exact h.stopEngine hb hf
  · exact exec_keeps_inv h hf hi
  · exact h.grounded.raise _ _

theorem State.Inv.setMem (h : s.Inv) {m : Memory} (hwf : m.wf) (hin : m.within s.params.addrW) : (s.setMem m).Inv :=
  ⟨h.params, h.nctx, hwf, hin, h.results, h.stopping, h.running, h.faulted, h.ctxs⟩

/-- A reset, which draws the named buffers of a running command, leaves the invariant (R180). -/
theorem State.Inv.hardReset (h : s.Inv) : s.hardReset.Inv := by
  have hmem : (s.setMem (if s.busy then (s.unspecifyBuffers s.namedCtxs).mem else s.mem)).Grounded := by
    split
    · exact h.grounded.unspecifyBuffers (h.ctxs (.inr ‹_›)) _
    · exact h.grounded
  rw [State.hardReset_eq]
  exact
    { params := h.params
      nctx := by simpa [State.nctx] using h.nctx
      memWf := hmem.memWf
      memIn := hmem.memIn
      results := Nat.zero_le _
      stopping := nofun
      running := nofun
      faulted := ⟨nofun, nofun⟩
      ctxs := fun _ x hx => by
        obtain ⟨_, -, rfl⟩ := List.mem_map.mp hx
        exact Ctx.sound_unbound _ }

/-- A CMD write keeps the invariant: it only stores, raises E_BUSY, or issues (R85). -/
theorem State.Inv.hostWriteCmd (h : s.Inv) (v : Reg) : (s.hostWriteCmd v).Inv := by
  rcases hostWriteCmd_cases s v with ⟨-, e⟩ | ⟨hf, -, e⟩ | ⟨hf, -, e⟩ <;> rw [e]
  · exact h.withHostFields _ _ _ _ _ _ _
  · exact
      { params := h.params
        nctx := h.nctx
        memWf := h.memWf
        memIn := h.memIn
        results := Nat.zero_le _
        stopping := fun _ _ => rfl
        running := fun _ => nofun
        faulted := ⟨fun _ => rfl, fun _ => rfl⟩
        ctxs := fun _ => h.ctxs (.inl hf) }
  · exact
      { params := h.params
        nctx := h.nctx
        memWf := h.memWf
        memIn := h.memIn
        results := h.results
        stopping := fun _ hf' => absurd (hf.symm.trans hf') nofun
        running := fun _ _ => rfl
        faulted := ⟨fun hf' => absurd (hf.symm.trans hf') nofun, nofun⟩
        ctxs := fun _ => h.ctxs (.inl hf) }

/-- Every access of the host keeps the invariant. -/
theorem hostStep_keeps_inv (h : s.Inv) {a : HostAccess} (he : hostStep a s = .next t) : t.Inv := by
  rcases hostStep_cases he with ⟨v, -, rfl⟩ | ⟨off, v, -, -, k, v', b, rfl⟩ | ⟨e, -⟩ | ⟨wa, w, -, hwa, -, rfl⟩ | ⟨ba, b, -, hba, -, rfl⟩ |
    ⟨-, rfl⟩
  · exact h.hostWriteCmd v
  · exact h.withHostFields _ _ _ _ _ _ _
  · rw [e]
    exact h.withHostFields _ _ _ _ _ _ _
  · exact h.setMem (Memory.wf_writeWord h.memWf _ _ _) (h.memIn.writeWord hwa _ _)
  · exact h.setMem (Memory.wf_put h.memWf _ _) (h.memIn.put hba _)
  · exact h.hardReset

end

/-- Settles O58: the engine's move and every access of the host keep the invariant. -/
theorem everyStepKeepsTheInvariant : Obligations.EveryStepKeepsTheInvariant := by
  intro s t h hstep
  have hpopped : s.popped.Inv := h.withHostFields _ _ _ _ _ _ _
  rcases step_cases hstep with ⟨-, he⟩ | ⟨a, rest, -, ha⟩
  · exact engineStep_keeps_inv hpopped he
  · exact hostStep_keeps_inv hpopped ha

end Sys2Proof.Machine
end

section
/-! PROOFS. The register window (R23 to R37): what reads return, what writes change, while idle and while BUSY. -/

namespace Sys2Proof.Machine

open Sys2Proof.Claims

/-! ### Offsets (10_state section 2) -/

/-- The gap below the context registers and everything above them is unmapped (R24). -/
theorem regAt_unmapped {n off : Nat} (h : (0x0A0 ≤ off ∧ off < 0x100) ∨ 0x100 + 0x20 * n ≤ off) : regAt n off = .unmapped := by
  unfold regAt
  iterate 11 rw [if_neg (by omega)]
  by_cases hgap : off < 0x100
  · rw [if_pos hgap]
  · rw [if_neg hgap, if_neg (by omega)]

/-! ### Reads and writes -/

section
variable {s : State}

/-- The read of a register whose value is specified returns it (R24, R35). -/
theorem hostStep_read_value {off : Nat} {r : RegName} {v : Reg} (h8 : off % 8 = 0) (hr : regAt s.nctx off = r) (hv : s.regValue r = some v) :
    hostStep (.readReg off 8) s = .next { s with readData := v } := by
  rw [hostStep_read s h8, hr, s.hostReadReg_of_value hv]

/-- Any other read changes the host's data and the count of draws alone (R32, R35 (d)). -/
theorem hostStep_read_frame (s : State) {off : Nat} (h8 : off % 8 = 0) :
    ∃ t, hostStep (.readReg off 8) s = .next t ∧ t = { s with readData := t.readData, draws := t.draws } :=
  ⟨_, hostStep_read s h8, s.hostReadReg_eq _⟩

/-- A CMD write stores its word in every state (R85, R166, R169). -/
theorem State.hostWriteCmd_cmd (s : State) (v : Reg) : (s.hostWriteCmd v).cmd = v := by
  rcases hostWriteCmd_cases s v with ⟨-, e⟩ | ⟨-, -, e⟩ | ⟨-, -, e⟩ <;> exact congrArg cmd e

/-! ### Images while idle -/

theorem Result.code_toNat (r : Result) : r.code.toNat = resultNumber r := by cases r <;> rfl

theorem ErrCode.code_toNat (e : ErrCode) : e.code.toNat = errNumber e := by cases e <;> rfl

/-- While idle a register that is unspecified while BUSY has its value (R35 (d)). -/
theorem State.whenIdle_of_idle (hb : s.busy = false) (v : Reg) : s.whenIdle v = some v := by simp [State.whenIdle, hb]

theorem State.regValue_status (s : State) : s.regValue .status = some (if s.busy then busyStatus else s.statusImage) := rfl

/-- A result register within RCOUNT, while idle (R32). -/
theorem State.regValue_res_of_idle (hb : s.busy = false) {i : Nat} {v : Value} (hv : s.results[i]? = some v) :
    s.regValue (.res i) = some (v.setWidth 64) := by simp [State.regValue, hb, hv]

/-- The four registers of a context while idle (R37). -/
theorem hostStep_read_ctx (hb : s.busy = false) {n byte : Nat} {v : Reg} (hn : n < s.nctx) (h8 : byte % 8 = 0) (hlt : byte < 0x20)
    (hv : s.regValue (ctxRegAt n byte) = s.whenIdle v) :
    hostStep (.readReg (0x100 + 0x20 * n + byte) 8) s = .next { s with readData := v } :=
  hostStep_read_value (by omega) (regAt_ctx hn hlt) (hv.trans (s.whenIdle_of_idle hb v))

/-! ### CFG (R33) -/

theorem removePolicyCode_toNat (p : RemovePolicy) : (removePolicyCode p).toNat = policyNumber p := by cases p <;> rfl

theorem splitScanCode_toNat (p : SplitScan) : (splitScanCode p).toNat = scanNumber p := by cases p <;> rfl

/-- CFG with legal parameters: no field is cut (R33). -/
theorem State.cfgImage_toNat_of_legal (hp : s.params.legal) (hn : s.nctx ≤ 16) :
    s.cfgImage.toNat = s.nctx + 2 ^ 8 * s.params.maxRounds +
      2 ^ 16 * policyNumber s.params.removePolicy + 2 ^ 18 * scanNumber s.params.splitScan +
      2 ^ 24 * s.params.addrW + 2 ^ 32 * 5 + 2 ^ 36 * 3 + 2 ^ 40 * 16 + 2 ^ 48 * 16 := by
  obtain ⟨-, haddr, -, hrounds⟩ := hp
  rw [cfgImage_toNat, removePolicyCode_toNat, splitScanCode_toNat, Nat.mod_eq_of_lt (by omega), Nat.mod_eq_of_lt (by omega),
    Nat.mod_eq_of_lt (by omega)]

theorem engineStep_keeps_params {t : State} (h : engineStep s = .next t) : t.params = s.params ∧ t.nctx = s.nctx := by
  rcases engineStep_cases h with ⟨-, rfl⟩ | ⟨-, -, rfl⟩ | ⟨-, -, i, -, hi⟩ | ⟨-, -, -, rfl⟩
  · exact ⟨rfl, rfl⟩
  · exact ⟨s.stopEngine_params, s.nctx_unspecify _⟩
  · obtain ⟨hframe, hnctx⟩ := exec_frame hi
    exact ⟨by rw [hframe], hnctx⟩
  · exact ⟨rfl, rfl⟩

/-- Of the host's accesses only reset changes the context file, and none changes the parameters. -/
theorem hostStep_keeps_ctxs {a : HostAccess} {t : State} (h : hostStep a s = .next t) :
    (t.params = s.params ∧ t.ctxs = s.ctxs) ∨ (a = .reset ∧ t = s.hardReset) := by
  rcases hostStep_cases h with ⟨v, -, rfl⟩ | ⟨off, v, -, -, k, v', b, rfl⟩ | ⟨e, -⟩ | ⟨wa, w, -, -, -, rfl⟩ | ⟨ba, b, -, -, -, rfl⟩ | hreset
  · rcases hostWriteCmd_cases s v with ⟨-, e⟩ | ⟨-, -, e⟩ | ⟨-, -, e⟩ <;> rw [e] <;> exact .inl ⟨rfl, rfl⟩
  · exact .inl ⟨rfl, rfl⟩
  · rw [e]; exact .inl ⟨rfl, rfl⟩
  · exact .inl ⟨rfl, rfl⟩
  · exact .inl ⟨rfl, rfl⟩
  · exact .inr hreset

theorem hostStep_keeps_params {a : HostAccess} {t : State} (h : hostStep a s = .next t) : t.params = s.params ∧ t.nctx = s.nctx := by
  rcases hostStep_keeps_ctxs h with ⟨hparams, hctxs⟩ | ⟨-, rfl⟩
  · exact ⟨hparams, State.nctx_congr hctxs⟩
  · rw [State.hardReset_eq]
    exact ⟨rfl, by simp [State.nctx]⟩

/-- The parameters and NCTX are hardwired: no step changes them (R7 to R10). -/
theorem step_keeps_params {t : State} (h : step s = .next t) : t.params = s.params ∧ t.nctx = s.nctx := by
  rcases step_cases h with ⟨-, he⟩ | ⟨a, rest, -, ha⟩
  · exact engineStep_keeps_params (s := s.popped) he
  · exact hostStep_keeps_params (s := s.popped) ha

end

/-! ### The obligations -/

/-- Settles O49: such an offset names the unmapped register or a read-only one. -/
theorem unmappedAndReadOnlyOffsetsIgnoreWrites : Obligations.UnmappedAndReadOnlyOffsetsIgnoreWrites := by
  intro s off v h8
  have hwrite : 0x020 ≤ off → hostStep (.writeReg off 8 v) s = .next s := fun h => by
    rw [hostStep_write s v h8, s.hostWriteReg_readOnly v (regAt_readOnly h)]
  refine ⟨fun h => ⟨?_, hwrite (by omega)⟩, hwrite⟩
  exact hostStep_read_value h8 (regAt_unmapped h) rfl

/-- Settles O50: each of the four offsets names its own register, which the write sets and the read returns. -/
theorem writtenRegistersReadBack : Obligations.WrittenRegistersReadBack := by
  intro s v
  refine ⟨rfl, rfl, rfl, fun off hoff => ⟨s.hostWriteReg (regAt s.nctx off) v, ?_⟩⟩
  simp only [List.mem_cons, List.not_mem_nil, or_false] at hoff
  rcases hoff with rfl | rfl | rfl | rfl
  · exact ⟨rfl, hostStep_read_value rfl rfl (congrArg some (s.hostWriteCmd_cmd v))⟩
  · exact ⟨rfl, rfl⟩
  · exact ⟨rfl, rfl⟩
  · exact ⟨rfl, rfl⟩

/-- Settles O55: such an access fails `regAccessOk`. -/
theorem oddRegisterAccessIsRefused : Obligations.OddRegisterAccessIsRefused := by
  intro s off size v h
  have hbad : regAccessOk off size = false := decide_eq_false (by omega)
  simp [hostStep, hbad]

/-- Settles O51: the images as numbers, and RESi as the i-th returned value where there is one. -/
theorem idleReadsReturnTheRegisters : Obligations.IdleReadsReturnTheRegisters := by
  intro s hb
  have idle (v : Reg) : s.whenIdle v = some v := State.whenIdle_of_idle hb v
  have hstatus : s.regValue .status = some s.statusImage := by simp [State.regValue_status, hb]
  refine ⟨s.statusImage, s.errImage, s.rcountImage, hostStep_read_value rfl rfl hstatus, ?_, hostStep_read_value rfl rfl (idle _), ?_,
    hostStep_read_value rfl rfl (idle _), fun hlen => ?_, hostStep_read_value rfl rfl (idle _), hostStep_read_value rfl rfl (idle _),
    fun i hi v hv => ?_, fun i _ _ => hostStep_read_frame s (by omega), fun n hn => ⟨(s.ctx n).stateImage, ?_⟩⟩
  · rw [State.statusImage_toNat, hb, Result.code_toNat]; simp
  · rw [State.errImage_toNat, ErrCode.code_toNat]; norm_num
  · rw [State.rcountImage_toNat, Nat.mod_eq_of_lt (by omega)]
  · exact hostStep_read_value (by omega) (regAt_res hi) (State.regValue_res_of_idle hb hv)
  · have read {byte : Nat} {v : Reg} := hostStep_read_ctx (byte := byte) (v := v) hb hn
    exact ⟨read (byte := 0) rfl (by omega) rfl, read rfl (by omega) rfl, Ctx.stateImage_toNat _, read rfl (by omega) rfl,
      read rfl (by omega) rfl⟩

/-- Settles O52: STATUS reads as `busyStatus`, CMD, KEY, VAL and BASE as themselves, and any other read has the frame of every read. -/
theorem readsWhileBusy : Obligations.ReadsWhileBusy := by
  intro s off hb h8
  have hstatus : s.regValue .status = some State.busyStatus := by simp [State.regValue_status, hb]
  exact ⟨hostStep_read_value rfl rfl hstatus, rfl, rfl, rfl, rfl, hostStep_read_frame s h8⟩

/-- Settles O54: CFG is an image of parameters that no step changes. -/
theorem cfgReportsTheParametersForever : Obligations.CfgReportsTheParametersForever := by
  refine ⟨fun s hp hn => ⟨s.cfgImage, hostStep_read_value rfl rfl rfl, State.cfgImage_toNat_of_legal hp hn⟩, fun s t h => ?_⟩
  obtain ⟨hparams, hnctx⟩ := step_keeps_params h
  exact ⟨hparams, hnctx, by rw [State.cfgImage, State.cfgImage, hparams, hnctx]⟩

end Sys2Proof.Machine
end

section
/-! PROOFS. A write of KEY, VAL or BASE while a command runs does not reach it (R35 (a), R41): the engine's move commutes with it. -/

namespace Sys2Proof.Machine

/-- `s` with other contents of KEY, VAL and BASE, which the latched copy of a running command does not see (R41). -/
def State.withOperands (k v b : Reg) (s : State) : State := { s with key := k, val := v, base := b }

theorem engineStep_of_stop {s : State} (hb : s.busy = true) (hf : s.fault = true) : engineStep s = .next s.stopEngine := by
  simp [engineStep, hb, hf]

theorem engineStep_of_illegal {s : State} {r : IllegalWord} (hb : s.busy = true) (hf : s.fault = false) (hd : decode s.lcmd = .illegal r) :
    engineStep s = .next (s.raise .badOp 0) := by simp [engineStep, hb, hf, hd]

section
variable (k v b : Reg) (s : State)

theorem State.unspecify_withOperands (cs : List Nat) : (s.withOperands k v b).unspecify cs = (s.unspecify cs).withOperands k v b := by
  have hctxs : ((s.withOperands k v b).unspecify cs).ctxs = (s.unspecify cs).ctxs := by rw [unspecify_ctxs, unspecify_ctxs]; rfl
  have hmem : ((s.withOperands k v b).unspecify cs).mem = (s.unspecify cs).mem := by rw [unspecify_mem, unspecify_mem]; rfl
  rw [unspecify_eq, hctxs, hmem, s.unspecify_eq]
  rfl

theorem State.stopEngine_withOperands : (s.withOperands k v b).stopEngine = s.stopEngine.withOperands k v b :=
  congrArg (fun u : State => { u with busy := false }) (s.unspecify_withOperands k v b s.namedCtxs)

theorem splitCore_withOperands (c ca cb : Nat) :
    splitCore c ca cb (s.withOperands k v b) = (splitCore c ca cb s).withOperands k v b := by
  have hcollect : collect (s.withOperands k v b) c = collect s c := rfl
  have hdist (mid : Nat) (l : List Assoc) :
      distribute (s.withOperands k v b).params.maxRounds ((s.withOperands k v b).buffer ca) ((s.withOperands k v b).buffer cb) mid 0 l
          (s.withOperands k v b).mem =
        distribute s.params.maxRounds (s.buffer ca) (s.buffer cb) mid 0 l s.mem := rfl
  simp only [splitCore, hcollect, hdist]
  split
  · rfl
  · split
    · rw [s.unspecify_withOperands]; rfl
    · rfl

/-- A command commutes with other contents of KEY, VAL and BASE: `apply_ite` carries them past each of its checks, and each end carries them along. -/
theorem exec_withOperands {i : Instr} {t : State} (h : exec i s = .next t) :
    exec i (s.withOperands k v b) = .next (t.withOperands k v b) := by
  cases i with
  | bind c =>
    cases h
    iterate 2 rw [apply_ite (State.withOperands k v b)]
    rfl
  | unbind c =>
    cases h
    rw [apply_ite (State.withOperands k v b)]
    rfl
  | insert c =>
    cases h
    iterate 4 rw [apply_ite (State.withOperands k v b)]
    have hcore : insertCore ((s.withOperands k v b).buffer c) (s.withOperands k v b).params.maxRounds (s.withOperands k v b).mem
        (s.withOperands k v b).operand = insertCore (s.buffer c) s.params.maxRounds s.mem s.operand := rfl
    simp only [exec, execInsert, hcore]
    cases insertCore (s.buffer c) s.params.maxRounds s.mem s.operand <;> rfl
  | lookup c =>
    cases h
    iterate 2 rw [apply_ite (State.withOperands k v b)]
    rfl
  | remove c =>
    cases h
    iterate 3 rw [apply_ite (State.withOperands k v b)]
    rfl
  | split c ca cb =>
    cases h
    iterate 5 rw [apply_ite (State.withOperands k v b)]
    rw [← splitCore_withOperands]
    rfl

end

/-- Settles O53: the engine reads the latched copy and never KEY, VAL or BASE. -/
theorem operandWritesDoNotReachTheRunningCommand : Obligations.OperandWritesDoNotReachTheRunningCommand := by
  intro s t k v b h
  change engineStep (s.withOperands k v b) = .next (t.withOperands k v b)
  rcases engineStep_cases h with ⟨hb, rfl⟩ | ⟨hb, hf, rfl⟩ | ⟨hb, hf, i, hd, hi⟩ | ⟨hb, hf, ⟨r, hd⟩, rfl⟩
  · exact engineStep_of_idle hb
  · rw [← State.stopEngine_withOperands]
    exact engineStep_of_stop hb hf
  · rw [engineStep_of_command (s := s.withOperands k v b) hb hf hd]
    exact exec_withOperands k v b s hi
  · exact engineStep_of_illegal hb hf hd

end Sys2Proof.Machine
end

section
/-! PROOFS. The ways a context's MODE or VALID changes (R38, R43): each command leaves a context as it is or changes it as listed, and so does each
other move. -/

namespace Sys2Proof.Machine

open Sys2Proof.Claims

section
variable {s t : State}

/-- The listed ways in which the command `i`, from `s` to `t`, changes context `c` (R38, R43). -/
def ListedChange (s t : State) (i : Instr) (c : Nat) : Prop :=
  (i = .insert c ∧ t.result = .full ∧ (s.ctx c).mode = .normal ∧ (t.ctx c).mode = .full ∧ (t.ctx c).valid = (s.ctx c).valid) ∨
  (i = .bind c ∧ (t.ctx c).mode = .normal ∧ (t.ctx c).valid = true) ∨
  (i = .unbind c ∧ (t.ctx c).mode = .normal ∧ (t.ctx c).valid = false) ∨
  ∃ src ca cb, i = .split src ca cb ∧ (c = ca ∨ c = cb) ∧ t.fault = true ∧ t.errCode = .splitDestFull

/-- A command that replaces the contents of context `d` changes no other, and `d` holds the new contents. -/
theorem ctx_setCtx_cases {d : Nat} (hd : d < s.nctx) (x : Ctx) (c : Nat) :
    (s.setCtx d x).ctx c = s.ctx c ∨ d = c ∧ (s.setCtx d x).ctx c = x := by
  rw [State.ctx_setCtx]
  by_cases h : d = c
  · exact .inr ⟨h, if_pos ⟨h, hd⟩⟩
  · exact .inl (if_neg fun hc => h hc.1)

/-- A command leaves a context as it is, or changes it as listed. -/
theorem exec_ctx_cases {i : Instr} (h : exec i s = .next t) (c : Nat) : t.ctx c = s.ctx c ∨ ListedChange s t i c := by
  cases i with
  | bind d =>
    rcases execBind_cases h with ⟨-, rfl⟩ | ⟨-, -, rfl⟩ | ⟨hd, -, rfl⟩
    · exact .inl rfl
    · exact .inl rfl
    · refine (ctx_setCtx_cases hd _ c).imp id ?_
      rintro ⟨rfl, hx⟩
      exact .inr (.inl ⟨rfl, congrArg Ctx.mode hx, congrArg Ctx.valid hx⟩)
  | unbind d =>
    rcases execUnbind_cases h with ⟨-, rfl⟩ | ⟨hd, rfl⟩
    · exact .inl rfl
    · refine (ctx_setCtx_cases hd _ c).imp id ?_
      rintro ⟨rfl, hx⟩
      exact .inr (.inr (.inl ⟨rfl, congrArg Ctx.mode hx, congrArg Ctx.valid hx⟩))
  | insert d =>
    rcases execInsert_cases h with ⟨-, rfl⟩ | ⟨-, -, rfl⟩ | ⟨-, -, rfl⟩ | ⟨-, -, -, rfl⟩ | ⟨hv, hm, -, ⟨m, -, rfl⟩ | ⟨m, p, -, rfl⟩⟩
    iterate 5 exact .inl rfl
    refine (ctx_setCtx_cases (s := s.setMem m) (State.lt_nctx_of_valid hv) _ c).imp id ?_
    rintro ⟨rfl, hx⟩
    exact .inl ⟨rfl, rfl, hm, congrArg Ctx.mode hx, (congrArg Ctx.valid hx :)⟩
  | lookup d => rcases execLookup_cases h with ⟨-, rfl⟩ | ⟨-, -, rfl⟩ | ⟨-, rfl⟩ <;> exact .inl rfl
  | remove d => rcases execRemove_cases h with ⟨-, rfl⟩ | ⟨-, -, rfl⟩ | ⟨-, -, rfl⟩ | ⟨-, -, rfl⟩ <;> exact .inl rfl
  | split d ca cb =>
    rcases execSplit_cases h with ⟨-, rfl⟩ | ⟨-, rfl⟩ | ⟨-, rfl⟩ | ⟨-, rfl⟩ | ⟨-, rfl⟩ | ⟨-, rfl⟩
    iterate 5 exact .inl rfl
    rcases splitCore_cases d ca cb s with ⟨-, e⟩ | ⟨upper, -, e⟩ | ⟨m, p, -, -, -, e⟩ <;> rw [e]
    · exact .inl rfl
    · by_cases hc : c ∈ [ca, cb]
      · exact .inr (.inr (.inr (.inr ⟨d, ca, cb, rfl, by simpa using hc, rfl, rfl⟩)))
      · exact .inl (s.ctx_unspecify hc)
    · exact .inl rfl

/-- The engine's move leaves a context as it is, changes it as listed of the running command, or is the stop of a command that names it (R166). -/
theorem engineStep_ctx_cases (h : engineStep s = .next t) (c : Nat) :
    t.ctx c = s.ctx c ∨
    (s.busy = true ∧ s.fault = false ∧ ∃ i, decode s.lcmd = .command i ∧ ListedChange s t i c) ∨
    (s.busy = true ∧ s.fault = true ∧ t.busy = false ∧ ∃ i, decode s.lcmd = .command i ∧ c ∈ State.namedBy i) := by
  rcases engineStep_cases h with ⟨-, rfl⟩ | ⟨hb, hf, rfl⟩ | ⟨hb, hf, i, hd, hi⟩ | ⟨-, -, -, rfl⟩
  · exact .inl rfl
  · by_cases hc : c ∈ s.namedCtxs
    · refine .inr (.inr ⟨hb, hf, rfl, ?_⟩)
      cases hd : decode s.lcmd with
      | command i => exact ⟨i, rfl, ((State.mem_namedCtxs hd).mp hc).1⟩
      | illegal r => simp [State.namedCtxs_illegal hd] at hc
    · exact .inl (s.ctx_unspecify hc)
  · exact (exec_ctx_cases hi c).imp id fun hl => .inl ⟨hb, hf, i, hd, hl⟩
  · exact .inl rfl

/-- Every context is unbound after a reset (R180). -/
theorem State.ctx_hardReset (s : State) (c : Nat) : s.hardReset.ctx c = Ctx.unbound := by
  rw [hardReset_eq]
  by_cases hc : c < s.ctxs.length <;> simp [ctx, hc]

end

/-- Settles O59: each move leaves the context as it is or changes it as listed; the invariant gives E_BUSY before a stop. -/
theorem modeAndValidChangeOnlyAsListed : Obligations.ModeAndValidChangeOnlyAsListed := by
  intro s t c hinv hstep hchange
  have hne : t.ctx c ≠ s.ctx c := fun e => by simp [e] at hchange
  rcases step_cases hstep with ⟨hengine, he⟩ | ⟨a, rest, ha, hh⟩
  · rcases engineStep_ctx_cases he c with e | ⟨hb, hf, i, hd, hlisted⟩ | ⟨hb, hf, hb', i, hd, hnamed⟩
    · exact absurd e hne
    · refine .inr (.inl ⟨hengine, hb, hf, ?_⟩)
      have hd : decode s.lcmd = .command i := hd
      simp only [hd, Decoded.command.injEq]
      exact hlisted
    · exact .inr (.inr ⟨hengine, hb, hf, hinv.stopping hb hf, hb', i, hd, hnamed⟩)
  · rcases hostStep_keeps_ctxs hh with ⟨-, e⟩ | ⟨rfl, rfl⟩
    · exact absurd (State.ctx_congr e c) hne
    · exact .inl ⟨rest, ha, by rw [State.ctx_hardReset]; rfl, by rw [State.ctx_hardReset]; rfl⟩

end Sys2Proof.Machine
end

section
/-! PROOFS. Buffer words as the host and the engine address them (R60 to R65): the slot layout, and what a host access of an unnamed word does. -/

namespace Sys2Proof.Machine

open Sys2Proof.Claims

/-- Settles O11: the layout's injectivity and bounds, in words. -/
theorem slotWordsAreDistinctAndMissThePadding : Obligations.SlotWordsAreDistinctAndMissThePadding := by
  intro g t t' b b' i i' j j' hi hi' hj hj'
  obtain ⟨hlow, hhigh⟩ := slotAddr_bounds g t b hi hj
  exact ⟨(slotAddr_inj g hi hi' hj hj').mp, ⟨Nat.mul_le_mul_left 4 hlow, Nat.mul_lt_mul_of_pos_left hhigh (by decide)⟩,
    slotAddr_not_padding g t b hi hj⟩

/-! ### Host accesses of memory -/

/-- Byte `j` of a word as a number (R65). -/
theorem Memory.wordByte_toNat (o : ByteOrder) (w : Word) (j : Nat) :
    (wordByte o w j).toNat = w.toNat / 2 ^ (8 * (if o = .little then j else 3 - j)) % 256 := by
  cases o <;> exact extract_toNat _ _ _

/-- A word that no bound buffer of the running command covers is not named; an illegal word names none (R61). -/
theorem State.namesWord_eq_false {s : State} {wa : Nat} (h : ∀ i, decode s.lcmd = .command i → ¬inNamed s i (4 * wa)) :
    s.namesWord wa = false := by
  rw [Bool.eq_false_iff]
  intro hn
  obtain ⟨c, hc, hv, hlow, hhigh⟩ := namesWord_iff.mp hn
  cases hd : decode s.lcmd with
  | illegal r => simp [namedCtxs_illegal hd] at hc
  | command i =>
    obtain ⟨hci, hlt⟩ := (mem_namedCtxs hd).mp hc
    exact h i hd ⟨c, hci, hlt, hv, Nat.mul_le_mul_left 4 hlow, Nat.mul_lt_mul_of_pos_left hhigh (by decide)⟩

/-- An access of a word of the port that the running command does not name goes on (R60, R76 (c)). -/
theorem State.guardWord_next {s : State} {wa : Nat} (hwa : wa < 2 ^ s.params.addrW) (hn : s.busy = true → s.namesWord wa = false) (k : State) :
    s.guardWord wa k = .next k := by
  have hrace : (s.busy && s.namesWord wa) = false := by
    cases hb : s.busy
    · rfl
    · exact hn hb
  simp [guardWord, Nat.not_le.mpr hwa, hrace]

/-- Settles O13: the guard lets each access through, and a read after the write sees the written memory. -/
theorem hostWordHasTheBytesOfTheByteOrder : Obligations.HostWordHasTheBytesOfTheByteOrder := by
  intro s wa hwa hnamed
  have hgo (m : Memory) (k : State) : (s.setMem m).guardWord wa k = .next k :=
    State.guardWord_next (s := s.setMem m) hwa (fun hb => State.namesWord_eq_false (hnamed hb)) k
  have hword {j : Nat} (hj : j < 4) : (4 * wa + j) / 4 = wa := by omega
  have hread (m : Memory) {j : Nat} (hj : j < 4) : hostStep (.readByte (4 * wa + j)) (s.setMem m) =
      .next { s.setMem m with readData := (m.byteAt (4 * wa + j)).setWidth 64 } := by
    rw [hostStep, hword hj, hgo]; rfl
  refine ⟨fun w => ?_, fun j b hj => ?_⟩
  · refine ⟨s.setMem (s.mem.writeWord s.params.byteOrder wa w), hgo s.mem _, rfl, fun j hj => ?_, fun a ha => ?_, ?_, fun j hj => hread _ hj⟩
    · exact (congrArg BitVec.toNat (Memory.byteAt_writeWord_inside _ _ _ _ _ hj)).trans (Memory.wordByte_toNat _ _ _)
    · exact Memory.byteAt_writeWord_outside _ _ _ _ _ ha
    · rw [hostStep, hgo]; simp
  · refine ⟨s.setMem (s.mem.put (4 * wa + j) b), ?_, rfl, fun a => Memory.byteAt_put _ _ _ _, ?_⟩
    · rw [hostStep, hword hj]
      exact hgo s.mem _
    · rw [hread _ hj, Memory.byteAt_put, if_pos rfl]

end Sys2Proof.Machine
end

section
/-! PROOFS. What a command can write and read (R61, R63): the slot words of the buffers of the bound contexts it names, and nothing else. -/

namespace Sys2Proof.Machine

open Sys2Proof.Claims

section
variable {i : Instr} {s t : State}

/-! ### Writes -/

/-- No two of the contexts that `i` names have overlapping buffers (R148). -/
def NamedApart (s : State) (i : Instr) : Prop := (State.namedBy i).Pairwise fun c d => ¬overlapping (s.buffer c) (s.buffer d)

theorem NamedApart.not_overlapping (h : NamedApart s i) {c d : Nat} (hc : c ∈ State.namedBy i) (hd : d ∈ State.namedBy i) (hne : c ≠ d) :
    ¬overlapping (s.buffer c) (s.buffer d) := by
  have : Std.Symm fun c d => ¬overlapping (s.buffer c) (s.buffer d) := ⟨fun _ _ hcd hdc => hcd (And.symm hdc)⟩
  exact List.Pairwise.forall h hc hd hne

theorem overlap_eq_false_iff {g h : Buffer} : overlap g h = false ↔ ¬overlapping g h := decide_eq_false_iff_not

theorem SplitChecks.namedApart {c ca cb : Nat} (h : SplitChecks s c ca cb) : NamedApart s (.split c ca cb) := by
  obtain ⟨h1, h2, h3⟩ := h.apart
  rw [overlap_eq_false_iff] at h1 h2 h3
  simp [NamedApart, State.namedBy, h1, h2, h3]

/-- Slot writes into buffers of named bound contexts keep every byte that is in no slot of one. -/
theorem SlotWrites.byteAt_of_not_inNamedSlot {P : Buffer → Prop} {m : Memory} (h : SlotWrites P s.mem m)
    (hP : ∀ g, P g → ∃ c ∈ State.namedBy i, (s.ctx c).valid = true ∧ g = s.buffer c) {a : Nat} (ha : ¬inNamedSlot s i a) :
    m.byteAt a = s.mem.byteAt a := by
  refine h.byteAt_eq fun g tb b j hj hg hin => ha ?_
  obtain ⟨c, hc, hv, rfl⟩ := hP g hg
  exact ⟨c, hc, State.lt_nctx_of_valid hv, hv, tb, b, j, hj, hin⟩

/-- Unspecifying buffers of named contexts keeps every byte that is in no slot of one (R63). -/
theorem byteAt_unspecifyBuffers_of_not_inNamedSlot {cs : List Nat} (hcs : cs ⊆ State.namedBy i) {a : Nat} (ha : ¬inNamedSlot s i a) :
    (s.unspecifyBuffers cs).mem.byteAt a = s.mem.byteAt a := by
  refine State.byteAt_unspecifyBuffers fun c hc hv => ?_
  by_contra hslot
  obtain ⟨hin, hpad⟩ := not_or.mp hslot
  obtain ⟨tb, b, j, hj, hj'⟩ := State.inSlot_of_not_padding (g := s.buffer c) (not_not.mp hin) (Bool.eq_false_iff.mpr hpad)
  exact ha ⟨c, hcs hc, State.lt_nctx_of_valid hv, hv, tb, b, j, hj, hj'⟩

/-- What a command can do to memory, whatever its outcome: nothing, or a change of slots of its named bound buffers, which are then apart (R61, R63). -/
theorem exec_mem_cases (h : exec i s = .next t) :
    t.mem = s.mem ∨ (NamedApart s i ∧ ∀ a, ¬inNamedSlot s i a → t.mem.byteAt a = s.mem.byteAt a) := by
  cases i with
  | bind c => rcases execBind_cases h with ⟨-, rfl⟩ | ⟨-, -, rfl⟩ | ⟨-, -, rfl⟩ <;> exact .inl rfl
  | unbind c => rcases execUnbind_cases h with ⟨-, rfl⟩ | ⟨-, rfl⟩ <;> exact .inl rfl
  | lookup c => rcases execLookup_cases h with ⟨-, rfl⟩ | ⟨-, -, rfl⟩ | ⟨-, rfl⟩ <;> exact .inl rfl
  | insert c =>
    rcases execInsert_cases h with ⟨-, rfl⟩ | ⟨-, -, rfl⟩ | ⟨-, -, rfl⟩ | ⟨-, -, -, rfl⟩ | ⟨hv, -, -, hend⟩
    iterate 4 exact .inl rfl
    have hw := insertCore_writes (s.buffer c) s.params.maxRounds s.mem s.operand
    refine .inr ⟨List.pairwise_singleton _ c, fun a ha => ?_⟩
    have hkeep := hw.byteAt_of_not_inNamedSlot (i := .insert c) (fun g hg => ⟨c, List.mem_singleton_self c, hv, hg⟩) ha
    rcases hend with ⟨m, hm, rfl⟩ | ⟨m, p, hm, rfl⟩ <;> rw [hm] at hkeep <;> exact hkeep
  | remove c =>
    rcases execRemove_cases h with ⟨-, rfl⟩ | ⟨-, -, rfl⟩ | ⟨-, -, rfl⟩ | ⟨hv, -, rfl⟩
    iterate 3 exact .inl rfl
    have hw := removeCore_writes s.params.removePolicy (s.buffer c) s.mem s.operand
    exact .inr ⟨List.pairwise_singleton _ c,
      fun a ha => hw.byteAt_of_not_inNamedSlot (i := .remove c) (fun g hg => ⟨c, List.mem_singleton_self c, hv, hg⟩) ha⟩
  | split c ca cb =>
    rcases execSplit_cases h with ⟨-, rfl⟩ | ⟨-, rfl⟩ | ⟨-, rfl⟩ | ⟨-, rfl⟩ | ⟨-, rfl⟩ | ⟨hchecks, rfl⟩
    iterate 5 exact .inl rfl
    obtain ⟨-, hva, hvb⟩ := hchecks.valid
    rcases splitCore_cases c ca cb s with ⟨-, e⟩ | ⟨upper, -, e⟩ | ⟨m, p, -, -, hd, e⟩ <;> rw [e]
    · exact .inl rfl
    · refine .inr ⟨hchecks.namedApart, fun a ha => ?_⟩
      rw [State.raise_eq, State.raiseFor_mem, State.unspecify_mem]
      exact byteAt_unspecifyBuffers_of_not_inNamedSlot (i := .split c ca cb) (List.subset_cons_self ..) ha
    · refine .inr ⟨hchecks.namedApart, fun a ha => (distribute_writes hd).byteAt_of_not_inNamedSlot (fun g hg => ?_) ha⟩
      rcases hg with rfl | rfl
      · exact ⟨ca, by simp [State.namedBy], hva, rfl⟩
      · exact ⟨cb, by simp [State.namedBy], hvb, rfl⟩

/-- A command writes only bytes of slots of its named bound buffers (R61, R63). -/
theorem exec_keeps_byte (h : exec i s = .next t) {a : Nat} (ha : ¬inNamedSlot s i a) : t.mem.byteAt a = s.mem.byteAt a := by
  rcases exec_mem_cases h with e | ⟨-, hkeep⟩
  · rw [e]
  · exact hkeep a ha

/-- A slot's bytes lie in its buffer (R62). -/
theorem inNamed_of_inNamedSlot {a : Nat} (h : inNamedSlot s i a) : inNamed s i a := by
  obtain ⟨c, hc, hlt, hv, tb, b, j, hj, hlow, hhigh⟩ := h
  exact ⟨c, hc, hlt, hv, covers_slot _ tb b hj hlow hhigh⟩

/-- A padding word's bytes lie in its buffer and are padding bytes (R62, R63). -/
theorem paddingWord_byte (g : Buffer) (tb : Table) (b : BucketIx) {a : Nat} (ha : a / 4 = g.base + tableOffset tb + 16 * b.toNat + 15) :
    inBuffer g a ∧ isPaddingByte g a = true := by
  have hb := b.isLt
  unfold inBuffer isPaddingByte
  rw [decide_eq_true_iff, ha]
  cases tb <;> simp only [tableOffset, Config.tableWords, Config.bucketWords] at ha ⊢ <;> omega

/-- A padding byte of a named bound buffer is in no slot of a named buffer when those are apart (R63). -/
theorem not_inNamedSlot_of_padding (hapart : NamedApart s i) {c a : Nat} (hc : c ∈ State.namedBy i) (hin : inBuffer (s.buffer c) a)
    (hpad : isPaddingByte (s.buffer c) a = true) : ¬inNamedSlot s i a := by
  rintro ⟨d, hd, -, -, tb, b, j, hj, hslot⟩
  by_cases hcd : c = d
  · subst hcd
    exact absurd (hpad.symm.trans (State.isPaddingByte_of_inSlot hj hslot)) nofun
  · obtain ⟨hlow, hhigh⟩ := hin
    obtain ⟨hlow', hhigh'⟩ : inBuffer (s.buffer d) a := covers_slot _ tb b hj hslot.1 hslot.2
    exact hapart.not_overlapping hc hd hcd ⟨by omega, by omega⟩

/-! ### Reads -/

/-- `u` is `t` but for memory, and the two memories agree on `A`. -/
def AlikeOn (A : Nat → Prop) (t u : State) : Prop := u = { t with mem := u.mem } ∧ Agree A u.mem t.mem

/-- Runs that take the same branch of a check end alike if both branches do. -/
theorem AlikeOn.ite {A : Nat → Prop} {t u t' u' : State} {p : Prop} [Decidable p] (h : p → AlikeOn A t u) (h' : ¬p → AlikeOn A t' u') :
    AlikeOn A (if p then t else t') (if p then u else u') := by
  split
  · exact h ‹_›
  · exact h' ‹_›

theorem AlikeOn.raise {A : Nat → Prop} {t u : State} (h : AlikeOn A t u) (code : ErrCode) (info : BitVec 8) :
    AlikeOn A (t.raise code info) (u.raise code info) := ⟨congrArg (·.raise code info) h.1, h.2⟩

/-- Unspecified buffers draw the same bytes into either memory, and keep the padding of each (R63, R158). -/
theorem Agree.unspecifyBuffers {A : Nat → Prop} {m : Memory} (h : Agree A m s.mem) (cs : List Nat) :
    Agree A ((s.setMem m).unspecifyBuffers cs).mem (s.unspecifyBuffers cs).mem := by
  refine List.foldl_rel h fun c _ n n' hn x hx => ?_
  rw [State.byteAt_unspecifyBuffer, State.byteAt_unspecifyBuffer, hn x hx]
  rfl

theorem State.unspecify_setMem (s : State) (m : Memory) (cs : List Nat) :
    (s.setMem m).unspecify cs = (s.unspecify cs).setMem ((s.setMem m).unspecify cs).mem := by
  have hctxs : ((s.setMem m).unspecify cs).ctxs = (s.unspecify cs).ctxs := by rw [unspecify_ctxs, unspecify_ctxs]; rfl
  rw [unspecify_eq, hctxs, s.unspecify_eq]
  rfl

theorem AlikeOn.unspecify {A : Nat → Prop} {m : Memory} (h : Agree A m s.mem) (cs : List Nat) :
    AlikeOn A (s.unspecify cs) ((s.setMem m).unspecify cs) :=
  ⟨s.unspecify_setMem m cs, by simpa only [State.unspecify_mem] using h.unspecifyBuffers cs⟩

/-- The buffer of a named bound context is named (R61). -/
theorem inNamed_of_covers {c : Nat} (hc : c ∈ State.namedBy i) (hv : (s.ctx c).valid = true) {x : Nat} (hx : (s.buffer c).covers x) :
    inNamed s i x := ⟨c, hc, State.lt_nctx_of_valid hv, hv, hx⟩

section
variable {A : Nat → Prop} {m : Memory} (hm : Agree A m s.mem)
include hm

theorem collect_setMem {c : Nat} (hg : ∀ x, (s.buffer c).covers x → A x) : collect (s.setMem m) c = collect s c := by
  have htable (t : Table) := hm.collectTable hg s.params.splitScan t
  unfold collect
  rw [← htable .t1, ← htable .t2]
  rfl

/-- Two runs of SPLIT past the checks that precede every buffer access end alike (R148). -/
theorem splitCore_alikeOn {c ca cb : Nat} (hg : ∀ x, (s.buffer c).covers x → A x) (ha : ∀ x, (s.buffer ca).covers x → A x)
    (hb : ∀ x, (s.buffer cb).covers x → A x) : AlikeOn A (splitCore c ca cb s) (splitCore c ca cb (s.setMem m)) := by
  unfold splitCore
  rw [collect_setMem hm hg]
  refine .ite (fun _ => ⟨rfl, hm⟩) fun _ => ?_
  generalize sortPairs (collect s c) = l
  have hd : (distribute (s.setMem m).params.maxRounds ((s.setMem m).buffer ca) ((s.setMem m).buffer cb) (l.length / 2) 0 l
      (s.setMem m).mem).Agree A
      (distribute s.params.maxRounds (s.buffer ca) (s.buffer cb) (l.length / 2) 0 l s.mem) := hm.distribute ha hb _ _ _ _
  revert hd
  dsimp only
  generalize distribute (s.setMem m).params.maxRounds _ _ _ _ _ _ = r
  generalize distribute s.params.maxRounds _ _ _ _ _ _ = q
  cases r <;> cases q <;> intro hd
  · exact ⟨rfl, hd⟩
  · exact hd.elim
  · exact hd.elim
  · obtain rfl := hd
    exact (AlikeOn.unspecify hm _).raise _ _

end

/-! The checks of a command do not read memory, so two runs take the same branch of each (`AlikeOn.ite`); every branch ends alike. -/

section
variable {c : Nat} {m : Memory}

theorem execBind_alikeOn (h : exec (.bind c) s = .next t) (hm : Agree (inNamed s (.bind c)) m s.mem) :
    ∃ u, exec (.bind c) (s.setMem m) = .next u ∧ AlikeOn (inNamed s (.bind c)) t u := by
  cases h
  exact ⟨_, rfl, .ite (fun _ => ⟨rfl, hm⟩) fun _ => .ite (fun _ => ⟨rfl, hm⟩) fun _ => ⟨rfl, hm⟩⟩

theorem execUnbind_alikeOn (h : exec (.unbind c) s = .next t) (hm : Agree (inNamed s (.unbind c)) m s.mem) :
    ∃ u, exec (.unbind c) (s.setMem m) = .next u ∧ AlikeOn (inNamed s (.unbind c)) t u := by
  cases h
  exact ⟨_, rfl, .ite (fun _ => ⟨rfl, hm⟩) fun _ => ⟨rfl, hm⟩⟩

theorem execInsert_alikeOn (h : exec (.insert c) s = .next t) (hm : Agree (inNamed s (.insert c)) m s.mem) :
    ∃ u, exec (.insert c) (s.setMem m) = .next u ∧ AlikeOn (inNamed s (.insert c)) t u := by
  cases h
  refine ⟨_, rfl, .ite (fun _ => ⟨rfl, hm⟩) fun _ => .ite (fun _ => ⟨rfl, hm⟩) fun hv => .ite (fun _ => ⟨rfl, hm⟩) fun _ =>
    .ite (fun _ => ⟨rfl, hm⟩) fun _ => ?_⟩
  have hg (x : Nat) : (s.buffer c).covers x → inNamed s (.insert c) x := inNamed_of_covers (List.mem_singleton_self c) (by simpa using hv)
  have hcore : (insertCore ((s.setMem m).buffer c) (s.setMem m).params.maxRounds (s.setMem m).mem (s.setMem m).operand).Agree _
      (insertCore (s.buffer c) s.params.maxRounds s.mem s.operand) := hm.insertCore hg _ _
  revert hcore
  generalize insertCore ((s.setMem m).buffer c) _ _ _ = r
  generalize insertCore (s.buffer c) _ _ _ = q
  cases r <;> cases q <;> intro hcore
  · exact ⟨rfl, hcore⟩
  · exact hcore.elim
  · exact hcore.elim
  · obtain ⟨hmem, rfl⟩ := hcore
    exact ⟨rfl, hmem⟩

theorem execLookup_alikeOn (h : exec (.lookup c) s = .next t) (hm : Agree (inNamed s (.lookup c)) m s.mem) :
    ∃ u, exec (.lookup c) (s.setMem m) = .next u ∧ AlikeOn (inNamed s (.lookup c)) t u := by
  cases h
  refine ⟨_, rfl, .ite (fun _ => ⟨rfl, hm⟩) fun _ => .ite (fun _ => ⟨rfl, hm⟩) fun hv => ?_⟩
  have hg (x : Nat) : (s.buffer c).covers x → inNamed s (.lookup c) x := inNamed_of_covers (List.mem_singleton_self c) (by simpa using hv)
  have hfound : lookupMatches ((s.setMem m).buffer c) (s.setMem m).mem (s.setMem m).lkey = lookupMatches (s.buffer c) s.mem s.lkey :=
    hm.lookupMatches hg _
  dsimp only
  rw [hfound]
  generalize lookupMatches _ _ _ = l
  exact ⟨rfl, hm⟩

theorem execRemove_alikeOn (h : exec (.remove c) s = .next t) (hm : Agree (inNamed s (.remove c)) m s.mem) :
    ∃ u, exec (.remove c) (s.setMem m) = .next u ∧ AlikeOn (inNamed s (.remove c)) t u := by
  cases h
  refine ⟨_, rfl, .ite (fun _ => ⟨rfl, hm⟩) fun _ => .ite (fun _ => ⟨rfl, hm⟩) fun hv => .ite (fun _ => ⟨rfl, hm⟩) fun _ => ?_⟩
  have hg (x : Nat) : (s.buffer c).covers x → inNamed s (.remove c) x := inNamed_of_covers (List.mem_singleton_self c) (by simpa using hv)
  have hcore : AgreeRemoval _ (removeCore (s.setMem m).params.removePolicy ((s.setMem m).buffer c) (s.setMem m).mem (s.setMem m).operand)
      (removeCore s.params.removePolicy (s.buffer c) s.mem s.operand) := hm.removeCore hg _ _
  revert hcore
  dsimp only
  generalize removeCore _ ((s.setMem m).buffer c) _ _ = r
  generalize removeCore _ (s.buffer c) _ _ = q
  obtain ⟨n, f⟩ := r
  obtain ⟨n', f'⟩ := q
  rintro ⟨hmem, rfl⟩
  exact ⟨rfl, hmem⟩

theorem execSplit_alikeOn {ca cb : Nat} (h : exec (.split c ca cb) s = .next t) (hm : Agree (inNamed s (.split c ca cb)) m s.mem) :
    ∃ u, exec (.split c ca cb) (s.setMem m) = .next u ∧ AlikeOn (inNamed s (.split c ca cb)) t u := by
  cases h
  refine ⟨_, rfl, .ite (fun _ => ⟨rfl, hm⟩) fun _ => .ite (fun _ => ⟨rfl, hm⟩) fun _ => .ite (fun _ => ⟨rfl, hm⟩) fun hv =>
    .ite (fun _ => ⟨rfl, hm⟩) fun _ => .ite (fun _ => ⟨rfl, hm⟩) fun _ => ?_⟩
  obtain ⟨⟨hv, hva⟩, hvb⟩ : ((s.ctx c).valid = true ∧ (s.ctx ca).valid = true) ∧ (s.ctx cb).valid = true := by simpa using hv
  have hg {d : Nat} (hd : d ∈ [c, ca, cb]) (hv : (s.ctx d).valid = true) (x : Nat) :
      (s.buffer d).covers x → inNamed s (.split c ca cb) x := inNamed_of_covers hd hv
  exact splitCore_alikeOn hm (hg (by simp) hv) (hg (by simp) hva) (hg (by simp) hvb)

/-- Two runs of a command whose memories agree on its named bound buffers end alike, and their memories still agree there (R61). -/
theorem exec_alikeOn (h : exec i s = .next t) (hm : Agree (inNamed s i) m s.mem) :
    ∃ u, exec i (s.setMem m) = .next u ∧ AlikeOn (inNamed s i) t u := by
  cases i with
  | bind c => exact execBind_alikeOn h hm
  | unbind c => exact execUnbind_alikeOn h hm
  | insert c => exact execInsert_alikeOn h hm
  | lookup c => exact execLookup_alikeOn h hm
  | remove c => exact execRemove_alikeOn h hm
  | split c ca cb => exact execSplit_alikeOn h hm

end

end

/-! ### The obligations -/

/-- Settles O14: no write reaches a byte outside the named buffers, and two runs that agree inside them end alike. -/
theorem commandsAccessOnlyNamedBuffers : Obligations.CommandsAccessOnlyNamedBuffers := by
  intro i s t h
  exact ⟨fun a ha => exec_keeps_byte h fun hslot => ha (inNamed_of_inNamedSlot hslot), fun m hm => exec_alikeOn h hm⟩

/-- Settles O15: a command that changes memory has its named buffers apart, and then no slot holds a byte of a padding word. -/
theorem paddingWordsSurviveCommands : Obligations.PaddingWordsSurviveCommands := by
  intro i s t c tb b h hc _
  rcases exec_mem_cases h with e | ⟨hapart, hkeep⟩
  · rw [e]
  · refine Memory.readWord_congr _ _ fun a ha => hkeep a ?_
    obtain ⟨hin, hpad⟩ := paddingWord_byte (s.buffer c) tb b ha
    exact not_inNamedSlot_of_padding hapart hc hin hpad

end Sys2Proof.Machine
end

section
/-! PROOFS. Left-packing (R72): an insertion writes live entries only where no empty slot precedes, and SHIFT_DOWN keeps the order of what stays. -/

namespace Sys2Proof.Machine

open Sys2Proof.Claims

section
variable {g : Buffer} {m : Memory}

/-- No empty slot precedes a live slot, in any bucket of the buffer (R72). -/
def AllLeftPacked (g : Buffer) (m : Memory) : Prop := ∀ t b, leftPacked g m t b

/-! ### Insertion -/

theorem decVal_enc (t : Table) (p : Assoc) : decVal (enc t p) = p.val := congrArg Assoc.val (decodeSlot_enc t p)

/-- The entry of a nonzero value is live (R111). -/
theorem enc_ne_emptyEntry (t : Table) {p : Assoc} (hp : p.val ≠ 0) : enc t p ≠ emptyEntry :=
  ne_emptyEntry_of_val (t := t) (b := index t p.key) (by rw [decodeSlot_enc]; exact hp)

/-- A live entry after live slots only keeps the buffer left-packed. -/
theorem AllLeftPacked.writeSlot (h : AllLeftPacked g m) {t : Table} {b : BucketIx} {i : Nat} (hi : i < 5) (hbefore : ∀ j < i, liveSlot g m t b j)
    {e : Entry} (he : e ≠ emptyEntry) : AllLeftPacked g (writeSlot g m t b i e) := by
  intro t' b' j hj hlive k hk
  have hk5 : k < 5 := hk.trans hj
  unfold liveSlot at hlive ⊢
  rw [readSlot_writeSlot g m e hi hj] at hlive
  rw [readSlot_writeSlot g m e hi hk5]
  split
  · exact he
  · split at hlive
    · rename_i hslot
      obtain ⟨rfl, rfl, rfl⟩ := hslot
      exact hbefore k hk
    · exact h t' b' j hj hlive k hk

/-- Writing the entry of a nonzero value makes no zero-valued live slot (U22). -/
theorem noZeroValues_writeSlot (h : noZeroValues g m) {t : Table} {b : BucketIx} {i : Nat} (hi : i < 5) {e : Entry} (he : decVal e ≠ 0) :
    noZeroValues g (writeSlot g m t b i e) := by
  intro t' b' j hj
  unfold liveSlot
  rw [readSlot_writeSlot g m e hi hj]
  split
  · exact fun _ => he
  · exact h t' b' j hj

/-- Every slot before the first empty one is live (R127). -/
theorem freeSlot_before_live {t : Table} {b : BucketIx} {i : Nat} (h : freeSlot g m t b = some i) : ∀ j < i, liveSlot g m t b j := by
  obtain ⟨-, n, hn, hni, hbefore⟩ := List.find?_eq_some_iff_getElem.mp h
  rw [List.getElem_range] at hni
  intro j hj
  simpa [liveSlot] using hbefore j (hni ▸ hj)

/-- Direct placement takes the first empty slot, so it keeps the buffer left-packed (R127). -/
theorem AllLeftPacked.placeIn (h : AllLeftPacked g m) {t : Table} {p : Assoc} (hp : p.val ≠ 0) {m' : Memory} (hm : placeIn g m t p = some m') :
    AllLeftPacked g m' := by
  obtain ⟨i, hi, rfl⟩ := Option.map_eq_some_iff.mp hm
  exact h.writeSlot (freeSlot_lt hi) (freeSlot_before_live hi) (enc_ne_emptyEntry t hp)

/-- Displacement writes slot 0, which no slot precedes, and carries on a nonzero value (R128, R129). -/
theorem AllLeftPacked.displace (h : AllLeftPacked g m) (hz : noZeroValues g m) (n : Nat) (t : Table) {p : Assoc} (hp : p.val ≠ 0) :
    AllLeftPacked g (displace g n m t p).memory := by
  induction n generalizing m t p with
  | zero => exact h
  | succ n ih =>
    have h' : AllLeftPacked g _ := h.writeSlot (t := t) (b := index t p.key) (show 0 < 5 by decide) nofun (enc_ne_emptyEntry t hp)
    have hval : decVal (enc t p) ≠ 0 := (decVal_enc t p).trans_ne hp
    simp only [Machine.displace]
    split
    · exact h'
    · rename_i hlive
      rw [isEmpty_iff] at hlive
      exact ih h' (noZeroValues_writeSlot hz (by decide) hval) _ (hz t _ 0 (by decide) hlive)

theorem AllLeftPacked.insertCore (h : AllLeftPacked g m) (hz : noZeroValues g m) (rounds : Nat) {p : Assoc} (hp : p.val ≠ 0) :
    AllLeftPacked g (insertCore g rounds m p).memory := by
  unfold Machine.insertCore
  split
  · exact h.placeIn hp ‹_›
  · split
    · exact h.placeIn hp ‹_›
    · exact h.displace hz rounds .t1 hp

/-! ### Removal under SHIFT_DOWN -/

/-- Left-packing on the bucket as a list: whatever precedes a live entry is live. -/
theorem leftPacked_iff_pairwise {t : Table} {b : BucketIx} :
    leftPacked g m t b ↔ (readBucket g m t b).Pairwise fun e f => f ≠ emptyEntry → e ≠ emptyEntry := by
  rw [List.pairwise_iff_getElem]
  constructor
  · intro h i j hi hj hij
    have hj5 : j < 5 := by simpa [length_readBucket] using hj
    rw [← readSlot_eq_getElem g m t b (hij.trans hj5), ← readSlot_eq_getElem g m t b hj5]
    exact fun hlive => h j hj5 hlive i hij
  · intro h j hj hlive i hij
    have := h i j (by rw [length_readBucket]; omega) (by rw [length_readBucket]; omega) hij
    rw [← readSlot_eq_getElem g m t b (hij.trans hj), ← readSlot_eq_getElem g m t b hj] at this
    exact this hlive

/-- SHIFT_DOWN on a bucket: the other entries in order, then Z (R144); every other bucket is kept. -/
theorem readBucket_removeShift (m : Memory) (t : Table) (b : BucketIx) {e : Entry} (he : e ≠ emptyEntry) (t' : Table) (b' : BucketIx) :
    readBucket g (removeShift g m t b e).1 t' b' =
      if t' = t ∧ b' = b then (readBucket g m t b).filter (fun x => x ≠ e) ++ List.replicate ((readBucket g m t b).count e) emptyEntry
      else readBucket g m t' b' := by
  have hcount : (readBucket g m t b).count e ≤ 5 := List.count_le_length.trans_eq (length_readBucket g m t b)
  obtain ⟨-, hself, hother⟩ := scanShift_list g t b e he (2 * Config.nSlots) 0 m false (by decide) (Nat.add_le_add_left hcount 5)
  split
  · rename_i hb
    obtain ⟨rfl, rfl⟩ := hb
    exact hself
  · exact hother t' b' ‹_›

theorem AllLeftPacked.removeShift (h : AllLeftPacked g m) (t : Table) (b : BucketIx) {e : Entry} (he : e ≠ emptyEntry) :
    AllLeftPacked g (removeShift g m t b e).1 := by
  intro t' b'
  rw [leftPacked_iff_pairwise, readBucket_removeShift m t b he]
  split
  · have hrest := (leftPacked_iff_pairwise.mp (h t b)).filter (fun x => x ≠ e)
    have hfill (x : Entry) (y : Entry) (hy : y ∈ List.replicate ((readBucket g m t b).count e) emptyEntry) (hlive : y ≠ emptyEntry) :
        x ≠ emptyEntry := absurd (List.eq_of_mem_replicate hy) hlive
    exact List.pairwise_append.mpr ⟨hrest, List.pairwise_replicate.mpr (.inr id), fun x _ => hfill x⟩
  · exact leftPacked_iff_pairwise.mp (h t' b')

theorem AllLeftPacked.removeCore_shiftDown (h : AllLeftPacked g m) {p : Assoc} (hp : p.val ≠ 0) :
    AllLeftPacked g (removeCore .shiftDown g m p).1 :=
  (h.removeShift .t1 _ (enc_ne_emptyEntry .t1 hp)).removeShift .t2 _ (enc_ne_emptyEntry .t2 hp)

end

/-- The operand that passes the value check is not 0 (R27). -/
theorem State.operand_val_ne_zero {s : State} (h : valueLegal s.lval = true) : s.operand.val ≠ 0 := by
  obtain ⟨hne, hlt⟩ : s.lval ≠ 0 ∧ s.lval.toNat < 2 ^ 48 := of_decide_eq_true h
  intro h0
  refine hne (BitVec.eq_of_toNat_eq ?_)
  have := congrArg BitVec.toNat h0
  rwa [operand, BitVec.toNat_setWidth, Nat.mod_eq_of_lt hlt] at this

/-- Settles O26: a check that fails keeps memory; past the checks the insertion or the SHIFT_DOWN removal keeps every bucket left-packed. -/
theorem leftPackingSurvives : Obligations.LeftPackingSurvives := by
  intro s t c i hcase h hpacked
  rcases hcase with ⟨rfl, hz⟩ | ⟨rfl, hpolicy⟩
  · rcases execInsert_cases h with ⟨-, rfl⟩ | ⟨-, -, rfl⟩ | ⟨-, -, rfl⟩ | ⟨-, -, -, rfl⟩ | ⟨-, -, hl, hend⟩
    iterate 4 exact hpacked
    have hkeep := AllLeftPacked.insertCore hpacked hz s.params.maxRounds (State.operand_val_ne_zero hl)
    rcases hend with ⟨m, hm, rfl⟩ | ⟨m, p, hm, rfl⟩ <;> rw [hm] at hkeep <;> exact hkeep
  · rcases execRemove_cases h with ⟨-, rfl⟩ | ⟨-, -, rfl⟩ | ⟨-, -, rfl⟩ | ⟨-, hl, rfl⟩
    iterate 3 exact hpacked
    rw [hpolicy]
    exact AllLeftPacked.removeCore_shiftDown hpacked (State.operand_val_ne_zero hl)

end Sys2Proof.Machine
end

section
/-! PROOFS. Which words decode to which command (R88, R89, R91): the decoder's rows as conditions on a word's fields, each command's one word,
and the words that no row takes. -/

namespace Sys2Proof

variable {w : Reg}

/-- A word that is 0 beyond the C-form has CA = CB = 0 (R89). -/
theorem highFields_eq_zero (h : w.toNat < 256) : caField w = 0 ∧ cbField w = 0 := by
  rw [caField_eq, cbField_eq]; omega

/-- R88, as an inversion of the decoder: a word decodes to the command that has its opcode and its context fields, when it is 0 beyond the
command's form. -/
theorem decode_eq_command_iff {i : Instr} :
    decode w = .command i ↔
      opField w = i.op ∧ w.toNat < 2 ^ Laws.WordShape.width i ∧ i.fields = (cField w, caField w, cbField w) := by
  constructor
  · intro h
    have cRow (m : Nat) (hm : m < 16) (ht : w &&& cFormMask = BitVec.ofNat 64 m) :
        opField w = m ∧ w.toNat < 2 ^ 8 ∧ (cField w, 0, 0) = (cField w, caField w, cbField w) := by
      obtain ⟨hop, hw⟩ := (and_cFormMask_eq_iff w hm).mp ht
      obtain ⟨hca, hcb⟩ := highFields_eq_zero hw
      exact ⟨hop, hw, by rw [hca, hcb]⟩
    unfold decode at h
    split_ifs at h with h1 h2 h3 h4 h5 h6 <;> cases h
    · exact cRow 1 (by decide) h1
    · exact cRow 2 (by decide) h2
    · exact cRow 3 (by decide) h3
    · exact cRow 4 (by decide) h4
    · exact cRow 5 (by decide) h5
    · obtain ⟨hop, hw⟩ := (and_sFormMask_eq_iff w (m := 6) (by decide)).mp h6
      exact ⟨hop, hw, rfl⟩
  · rintro ⟨hop, hw, hfields⟩
    exact decode_of_fields hop hw (by rw [hfields]) (by rw [hfields]) (by rw [hfields])

/-! ### The rows of the opcode table, as the words they take (R88) -/

/-- A C-form row: its opcode `m`, and bits [63:8] 0. -/
theorem exists_decode_cForm_iff {f : Nat → Instr} {m : Nat}
    (hf : ∀ c, (f c).op = m ∧ Laws.WordShape.width (f c) = 8 ∧ (f c).fields = (c, 0, 0)) :
    (∃ c, decode w = .command (f c)) ↔ opField w = m ∧ w.toNat < 256 := by
  have row (c : Nat) : decode w = .command (f c) ↔ opField w = m ∧ w.toNat < 2 ^ 8 ∧ (c, 0, 0) = (cField w, caField w, cbField w) := by
    obtain ⟨hop, hwidth, hfields⟩ := hf c
    rw [decode_eq_command_iff, hop, hwidth, hfields]
  constructor
  · rintro ⟨c, h⟩
    obtain ⟨hop, hw, -⟩ := (row c).mp h
    exact ⟨hop, hw⟩
  · rintro ⟨hop, hw⟩
    obtain ⟨hca, hcb⟩ := highFields_eq_zero hw
    exact ⟨cField w, (row _).mpr ⟨hop, hw, by rw [hca, hcb]⟩⟩

theorem exists_decode_bind_iff : (∃ c, decode w = .command (.bind c)) ↔ opField w = 1 ∧ w.toNat < 256 :=
  exists_decode_cForm_iff fun _ => ⟨rfl, rfl, rfl⟩

theorem exists_decode_unbind_iff : (∃ c, decode w = .command (.unbind c)) ↔ opField w = 2 ∧ w.toNat < 256 :=
  exists_decode_cForm_iff fun _ => ⟨rfl, rfl, rfl⟩

theorem exists_decode_insert_iff : (∃ c, decode w = .command (.insert c)) ↔ opField w = 3 ∧ w.toNat < 256 :=
  exists_decode_cForm_iff fun _ => ⟨rfl, rfl, rfl⟩

theorem exists_decode_lookup_iff : (∃ c, decode w = .command (.lookup c)) ↔ opField w = 4 ∧ w.toNat < 256 :=
  exists_decode_cForm_iff fun _ => ⟨rfl, rfl, rfl⟩

theorem exists_decode_remove_iff : (∃ c, decode w = .command (.remove c)) ↔ opField w = 5 ∧ w.toNat < 256 :=
  exists_decode_cForm_iff fun _ => ⟨rfl, rfl, rfl⟩

theorem exists_decode_split_iff :
    (∃ c ca cb, decode w = .command (.split c ca cb)) ↔ opField w = 6 ∧ w.toNat < 65536 := by
  constructor
  · rintro ⟨c, ca, cb, h⟩
    obtain ⟨hop, hw, -⟩ := decode_eq_command_iff.mp h
    exact ⟨hop, hw⟩
  · rintro ⟨hop, hw⟩
    exact ⟨_, _, _, decode_eq_command_iff.mpr ⟨hop, hw, rfl⟩⟩

/-- The words that some row takes: an opcode of a command, and 0 beyond its form (R91). -/
theorem exists_decode_command_iff :
    (∃ i, decode w = .command i) ↔
      (1 ≤ opField w ∧ opField w ≤ 5 ∧ w.toNat < 256) ∨ (opField w = 6 ∧ w.toNat < 65536) := by
  constructor
  · rintro ⟨i, h⟩
    obtain ⟨hop, hw, -⟩ := decode_eq_command_iff.mp h
    cases i with
    | split c ca cb => exact .inr ⟨hop, hw⟩
    | _ =>
      simp only [Instr.op, Laws.WordShape.width] at hop hw
      exact .inl ⟨by omega, by omega, hw⟩
  · rintro (⟨h1, h5, hw⟩ | hS)
    · obtain h | h | h | h | h : opField w = 1 ∨ opField w = 2 ∨ opField w = 3 ∨ opField w = 4 ∨ opField w = 5 := by omega
      · exact (exists_decode_bind_iff.mpr ⟨h, hw⟩).imp' _ fun _ => id
      · exact (exists_decode_unbind_iff.mpr ⟨h, hw⟩).imp' _ fun _ => id
      · exact (exists_decode_insert_iff.mpr ⟨h, hw⟩).imp' _ fun _ => id
      · exact (exists_decode_lookup_iff.mpr ⟨h, hw⟩).imp' _ fun _ => id
      · exact (exists_decode_remove_iff.mpr ⟨h, hw⟩).imp' _ fun _ => id
    · obtain ⟨c, ca, cb, h⟩ := exists_decode_split_iff.mpr hS
      exact ⟨_, h⟩

/-- `decode` is total: a word is illegal when it decodes to no command (R88). -/
theorem exists_decode_illegal_iff : (∃ r, decode w = .illegal r) ↔ ¬∃ i, decode w = .command i := by
  cases decode w <;> simp

/-! ### The word of a decoded command (R89) -/

theorem Instr.wellFormed_iff {i : Instr} : i.WellFormed ↔ i.fields.1 < 16 ∧ i.fields.2.1 < 16 ∧ i.fields.2.2 < 16 := by
  cases i <;> simp [WellFormed, wellFormed, fitsField, fields, and_assoc]

/-- Context fields that were read from a word fit their fields. -/
theorem Instr.wellFormed_of_decode {i : Instr} (h : decode w = .command i) : i.WellFormed := by
  obtain ⟨-, -, hfields⟩ := decode_eq_command_iff.mp h
  rw [wellFormed_iff, hfields, cField_eq, caField_eq, cbField_eq]
  dsimp only
  omega

/-- Neither form is wider than the four fields: every command word is 0 in bits [63:16] (R88). -/
theorem toNat_lt_of_decode {i : Instr} (h : decode w = .command i) : w.toNat < 65536 := by
  obtain ⟨-, -, hw⟩ | ⟨-, hw⟩ := exists_decode_command_iff.mp ⟨i, h⟩
  · omega
  · exact hw

end Sys2Proof

namespace Sys2Proof.Machine

open Sys2Proof.Claims

/-- Settles O1: no field overflows the sum of R89, and the decoder reads the fields back from it. -/
theorem encodedCommandDecodesToItself : Obligations.EncodedCommandDecodesToItself :=
  fun _ h => ⟨encode_toNat h, decode_encode h⟩

/-- Settles O2: a word below 2^16 is the sum of its four fields, which are the command's. -/
theorem decodedWordIsTheCommandsWord : Obligations.DecodedWordIsTheCommandsWord := by
  intro w i h
  have hwf := Instr.wellFormed_of_decode h
  have hlt := toNat_lt_of_decode h
  obtain ⟨hop, -, hfields⟩ := decode_eq_command_iff.mp h
  refine ⟨hwf, BitVec.eq_of_toNat_eq ?_⟩
  rw [encode_toNat hwf, hfields, ← hop, opField_eq, cField_eq, caField_eq, cbField_eq]
  dsimp only
  omega

/-- Settles O3: each row's test is its opcode with 0 beyond its form, and the engine raises E_BAD_OP on what no row takes. -/
theorem wordSelectsCommandByMaskAndMatch : Obligations.WordSelectsCommandByMaskAndMatch := by
  intro w
  have cTest (m : Nat) (hm : m < 16) := (and_cFormMask_eq_iff w hm).symm
  refine ⟨exists_decode_bind_iff.trans (cTest 1 (by decide)), exists_decode_unbind_iff.trans (cTest 2 (by decide)),
    exists_decode_insert_iff.trans (cTest 3 (by decide)), exists_decode_lookup_iff.trans (cTest 4 (by decide)),
    exists_decode_remove_iff.trans (cTest 5 (by decide)), ?_, fun i h => ?_, fun r hd s hb hf hw => ?_⟩
  · exact exists_decode_split_iff.trans (and_sFormMask_eq_iff w (m := 6) (by decide)).symm
  · obtain ⟨-, -, hfields⟩ := decode_eq_command_iff.mp h
    rw [hfields, cField_eq, caField_eq, cbField_eq]
  · exact engineStep_of_illegal hb hf (hw ▸ hd)

/-- Settles O4: the complement of the words that some row takes. -/
theorem illegalWordsAreTheReservedOnes : Obligations.IllegalWordsAreTheReservedOnes := by
  intro w
  rw [exists_decode_illegal_iff, exists_decode_command_iff, opField_eq]
  omega

/-- Settles O7: the words of an entry as numbers; word 1 holds the key half that is not the table's index above the value's high bits. -/
theorem entryFieldsLieAsTheFormatsSay : Obligations.EntryFieldsLieAsTheFormatsSay := by
  intro p
  have hhigh : p.val.toNat / 4294967296 < 65536 := by have := p.val.isLt; omega
  refine ⟨index_t1_toNat _, index_t2_toNat _, fun t => ⟨enc_w0_toNat t p, enc_w2_toNat t p, ?_⟩, ?_, ?_⟩
  · rw [enc_w1_toNat]; omega
  · rw [enc_w1_toNat, otherTable, index_t2_toNat]; omega
  · rw [enc_w1_toNat, otherTable, index_t1_toNat]; omega

end Sys2Proof.Machine
end

section
/-! PROOFS. A host write of CMD (R85, R166, R169), by the state it finds the block in. -/

namespace Sys2Proof.Machine

section
variable {s : State} (v : Reg)

/-- CMD is the register at offset 0 of the window (10_state section 2). -/
theorem hostStep_writeCmd (s : State) : hostStep (.writeReg 0 8 v) s = .next (s.hostWriteCmd v) := hostStep_write s v rfl

theorem State.hostWriteCmd_of_fault (hf : s.fault = true) : s.hostWriteCmd v = { s with cmd := v } := by simp [hostWriteCmd, hf]

theorem State.hostWriteCmd_of_idle (hf : s.fault = false) (hb : s.busy = false) : s.hostWriteCmd v = s.issue v := by
  simp [hostWriteCmd, hf, hb]

theorem State.hostWriteCmd_of_busy (hf : s.fault = false) (hb : s.busy = true) : s.hostWriteCmd v = s.abandon v := by
  simp [hostWriteCmd, hf, hb]

/-- What E_BUSY changes of a running block: CMD, FAULT, RESULT, ERR and RCOUNT (R166). -/
theorem State.abandon_of_busy (hb : s.busy = true) : s.abandon v = { s with
    cmd := v, fault := true, result := .faulted, errCode := .busy, errInfo := 0, errCmd := v.extractLsb' 0 32, results := [] } := by
  rw [hb]; rfl

end

/-- Settles O43: the three cases are a stored word, an issue and E_BUSY. -/
theorem cmdWriteIssuesOnlyWhenIdle : Obligations.CmdWriteIssuesOnlyWhenIdle := by
  intro s v
  rw [hostStep_writeCmd]
  refine ⟨fun hf => ?_, fun hf hb => ?_, fun hf hb => ?_⟩
  · rw [State.hostWriteCmd_of_fault v hf]
  · rw [State.hostWriteCmd_of_idle v hf hb, State.issue]
  · rw [State.hostWriteCmd_of_busy v hf hb, State.abandon_of_busy v hb]

end Sys2Proof.Machine
end

section
/-! PROOFS. The packed entry codec as a bijection for a fixed table and bucket (R108 to R114): decoding against encoding, Z, and the two tables' entries. -/

namespace Sys2Proof.Machine

/-! ### What a slot decodes to (R108, R109, R113) -/

theorem decodeSlot_eq_iff_fields {t : Table} {b : BucketIx} {e : Entry} {p : Assoc} :
    decodeSlot t b e = p ↔ decKey t b e = p.key ∧ decVal e = p.val := by
  cases p; simp [decodeSlot]

/-- A slot of the key's own bucket decodes to the pair exactly when it holds the pair's entry (R113). -/
theorem decodeSlot_index_eq_iff {t : Table} {p : Assoc} {e : Entry} : decodeSlot t (index t p.key) e = p ↔ e = enc t p := by
  constructor
  · intro h
    rw [← enc_decodeSlot t (index t p.key) e, h]
  · rintro rfl
    exact decodeSlot_enc t p

/-- In table 1, Z decodes to the bucket number as a key (R108's corner case). -/
theorem decKey_t1_emptyEntry (b : BucketIx) : (decKey .t1 b emptyEntry).toNat = b.toNat := by
  rw [decKey_t1_toNat]; simp [emptyEntry]

/-- In table 2, Z decodes to the bucket number above 16 zero bits (R108's corner case). -/
theorem decKey_t2_emptyEntry (b : BucketIx) : (decKey .t2 b emptyEntry).toNat = b.toNat * 65536 := by
  rw [decKey_t2_toNat]; simp [emptyEntry]

/-! ### The two tables' entries of one association (R106, R114) -/

/-- The two entries have in common all but the key half in word 1. -/
theorem enc_t1_eq_enc_t2_iff (p : Assoc) : enc .t1 p = enc .t2 p ↔ index .t2 p.key = index .t1 p.key := by
  constructor
  · intro h
    have hw1 : (enc .t1 p).w1.toNat = (enc .t2 p).w1.toNat := by rw [h]
    simp only [enc_w1_toNat, otherTable] at hw1
    apply BitVec.eq_of_toNat_eq
    omega
  · intro h
    apply entry_ext
    · rw [enc_w0_toNat, enc_w0_toNat]
    · rw [enc_w1_toNat, enc_w1_toNat, otherTable, otherTable, h]
    · rw [enc_w2_toNat, enc_w2_toNat]

/-! ### The obligations -/

/-- Settles O6: encoding and decoding undo each other on every pair and on every entry, and Z has 0 in both of its key fields. -/
theorem entryCodecIsABijection : Obligations.EntryCodecIsABijection :=
  ⟨fun t p => decodeSlot_eq_iff_fields.mp (decodeSlot_enc t p),
    fun t b e => ⟨index_decodeSlot t b e, enc_decodeSlot t b e⟩,
    fun b => ⟨decKey_t1_emptyEntry b, decKey_t2_emptyEntry b, decVal_emptyEntry⟩⟩

/-- Settles O9: a slot decodes to the pair field by field. -/
theorem slotDecodesToPairExactlyWhenEncoded : Obligations.SlotDecodesToPairExactlyWhenEncoded :=
  fun _ _ _ => decodeSlot_eq_iff_fields.symm.trans decodeSlot_index_eq_iff

/-- Settles O8: the entry decodes to its value, and Z to the value 0. -/
theorem entryOfNonzeroValueIsLive : Obligations.EntryOfNonzeroValueIsLive :=
  fun t _ hp => enc_ne_emptyEntry t hp

/-- Settles O10: by O7 the other fields do not depend on the table, and the key half of word 1 is the other table's index. -/
theorem tableEntriesDifferOnlyInTheOtherHalf : Obligations.TableEntriesDifferOnlyInTheOtherHalf := by
  intro p
  obtain ⟨-, -, hwords, -⟩ := entryFieldsLieAsTheFormatsSay p
  obtain ⟨hw0, hw2, hlow⟩ := hwords .t1
  obtain ⟨hw0', hw2', hlow'⟩ := hwords .t2
  refine ⟨BitVec.eq_of_toNat_eq (hw0.trans hw0'.symm), BitVec.eq_of_toNat_eq (hw2.trans hw2'.symm), hlow.trans hlow'.symm, ?_⟩
  rw [enc_t1_eq_enc_t2_iff, ← BitVec.toNat_inj, index_t2_toNat, index_t1_toNat]

end Sys2Proof.Machine
end

section
/-! PROOFS. The context commands and the checks of a context (R120 to R124): each end of BIND and UNBIND as the spec writes it, E_UNBOUND of the other
commands, and the addresses of a bound buffer. -/

namespace Sys2Proof.Machine

open Sys2Proof.Claims

section
variable {s : State} {c : Nat}

/-! ### The ends of a command in the spec's terms (R162, R163) -/

theorem State.raise_eq_faulted (s : State) (code : ErrCode) (info : BitVec 8) : s.raise code info = faulted s code info := rfl

theorem State.finish_eq_ended (s : State) (r : Result) : s.finish r = ended s r := rfl

/-! ### BIND's range check (R121) -/

theorem baseInRange_iff {addrW : Nat} {b : Reg} : baseInRange addrW b = true ↔ b.toNat + 2097152 ≤ 2 ^ addrW := decide_eq_true_iff

theorem baseInRange_eq_false_iff {addrW : Nat} {b : Reg} : baseInRange addrW b = false ↔ 2 ^ addrW < b.toNat + 2097152 :=
  decide_eq_false_iff_not.trans Nat.not_le

/-- A base in range has no bit above ADDR_W, so the context takes it as it is (R37, R120). -/
theorem truncAddr_of_baseInRange {addrW : Nat} {b : Reg} (h : baseInRange addrW b = true) : State.truncAddr addrW b = b := by
  have hlt : b.toNat < 2 ^ addrW := by have := baseInRange_iff.mp h; omega
  rw [State.truncAddr, Nat.mod_eq_of_lt hlt, BitVec.ofNat_toNat, BitVec.setWidth_eq]

/-! ### BIND and UNBIND, by the check that decides (R120, R123) -/

theorem execBind_of_nctx_le (h : s.nctx ≤ c) : exec (.bind c) s = .next (faulted s .badCtx 0) := by
  simp only [exec, execBind, if_pos h, State.raise_eq_faulted]

theorem execBind_of_badBase (h : c < s.nctx) (hb : baseInRange s.params.addrW s.lbase = false) :
    exec (.bind c) s = .next (faulted s .badBase 0) := by
  simp [exec, execBind, Nat.not_le.mpr h, hb, State.raise_eq_faulted]

theorem execBind_of_baseInRange (h : c < s.nctx) (hb : baseInRange s.params.addrW s.lbase = true) :
    exec (.bind c) s = .next (ended (s.setCtx c ⟨true, s.lbase, .normal, 0, 0⟩) .success) := by
  simp [exec, execBind, Nat.not_le.mpr h, hb, truncAddr_of_baseInRange hb, State.finish_eq_ended]

theorem execUnbind_of_nctx_le (h : s.nctx ≤ c) : exec (.unbind c) s = .next (faulted s .badCtx 0) := by
  simp only [exec, execUnbind, if_pos h, State.raise_eq_faulted]

theorem execUnbind_of_lt (h : c < s.nctx) :
    exec (.unbind c) s = .next (ended (s.setCtx c ⟨false, 0, .normal, 0, 0⟩) .success) := by
  simp only [exec, execUnbind, if_neg (Nat.not_le.mpr h), State.finish_eq_ended]

/-! ### E_UNBOUND (R124) -/

theorem execInsert_of_unbound (h : c < s.nctx) (hv : (s.ctx c).valid = false) : exec (.insert c) s = .next (faulted s .unbound 0) := by
  simp [exec, execInsert, Nat.not_le.mpr h, hv, State.raise_eq_faulted]

theorem execLookup_of_unbound (h : c < s.nctx) (hv : (s.ctx c).valid = false) : exec (.lookup c) s = .next (faulted s .unbound 0) := by
  simp [exec, execLookup, Nat.not_le.mpr h, hv, State.raise_eq_faulted]

theorem execRemove_of_unbound (h : c < s.nctx) (hv : (s.ctx c).valid = false) : exec (.remove c) s = .next (faulted s .unbound 0) := by
  simp [exec, execRemove, Nat.not_le.mpr h, hv, State.raise_eq_faulted]

/-- SPLIT faults when its contexts exist and differ, and one of them is not VALID. -/
theorem execSplit_of_unbound {ca cb : Nat} (hlt : c < s.nctx ∧ ca < s.nctx ∧ cb < s.nctx) (hne : c ≠ ca ∧ c ≠ cb ∧ ca ≠ cb)
    (hv : (s.ctx c).valid = false ∨ (s.ctx ca).valid = false ∨ (s.ctx cb).valid = false) :
    exec (.split c ca cb) s = .next (faulted s .unbound 0) := by
  have hinvalid : (!((s.ctx c).valid && (s.ctx ca).valid && (s.ctx cb).valid)) = true := by
    rcases hv with hv | hv | hv <;> simp [hv]
  simp only [exec, execSplit]
  rw [if_neg (by omega), if_neg (by omega), if_pos hinvalid, State.raise_eq_faulted]

/-- A fault of BIND is E_BAD_CTX or E_BAD_BASE (R120). -/
theorem execBind_errCode_ne_unbound {t : State} (h : exec (.bind c) s = .next t) : t.errCode ≠ .unbound := by
  rcases execBind_cases h with ⟨-, rfl⟩ | ⟨-, -, rfl⟩ | ⟨-, -, rfl⟩ <;> nofun

/-- A fault of UNBIND is E_BAD_CTX (R123). -/
theorem execUnbind_errCode_ne_unbound {t : State} (h : exec (.unbind c) s = .next t) : t.errCode ≠ .unbound := by
  rcases execUnbind_cases h with ⟨-, rfl⟩ | ⟨-, rfl⟩ <;> nofun

end

/-! ### The obligations -/

/-- Settles O12: a slot address is below the end of its buffer, which the invariant keeps inside the port. -/
theorem boundSlotAddressesStayInThePort : Obligations.BoundSlotAddressesStayInThePort := by
  intro s c t b i j hinv hf hv hi hj
  have hsound : s.AllSound := hinv.ctxs (.inl hf)
  exact (slotAddr_bounds (s.buffer c) t b hi hj).2.trans_le (hsound.buffer_le hv)

/-- Settles O17: command by command, with E_UNBOUND the first check to fail; the ends of BIND and UNBIND have no E_UNBOUND. -/
theorem unboundContextFaultsBeforeAccess : Obligations.UnboundContextFaultsBeforeAccess := by
  intro i s
  constructor
  · rintro hi hlt hnodup ⟨d, hd, hv⟩
    cases i with
    | bind c => exact absurd rfl (hi c).1
    | unbind c => exact absurd rfl (hi c).2
    | insert c =>
      obtain rfl := List.mem_singleton.mp hd
      exact execInsert_of_unbound (hlt d hd) hv
    | lookup c =>
      obtain rfl := List.mem_singleton.mp hd
      exact execLookup_of_unbound (hlt d hd) hv
    | remove c =>
      obtain rfl := List.mem_singleton.mp hd
      exact execRemove_of_unbound (hlt d hd) hv
    | split c ca cb =>
      have hlt' : c < s.nctx ∧ ca < s.nctx ∧ cb < s.nctx := by simpa [State.namedBy] using hlt
      have hne : c ≠ ca ∧ c ≠ cb ∧ ca ≠ cb := by simpa [State.namedBy, and_assoc] using hnodup
      have hd' : d = c ∨ d = ca ∨ d = cb := by simpa [State.namedBy] using hd
      refine execSplit_of_unbound hlt' hne ?_
      rcases hd' with rfl | rfl | rfl
      · exact .inl hv
      · exact .inr (.inl hv)
      · exact .inr (.inr hv)
  · rintro c t (rfl | rfl) h
    · exact execBind_errCode_ne_unbound h
    · exact execUnbind_errCode_ne_unbound h

/-- Settles O18: BIND by its two checks; a base in range is stored untruncated, whatever ADDR_W is. -/
theorem bindStartsANormalInstance : Obligations.BindStartsANormalInstance := fun _ _ =>
  ⟨execBind_of_nctx_le, fun hc hb => execBind_of_badBase hc (baseInRange_eq_false_iff.mpr hb),
    fun hc _ hb => execBind_of_baseInRange hc (baseInRange_iff.mpr hb)⟩

/-- Settles O19: UNBIND has the check of its index alone. -/
theorem unbindClearsTheContext : Obligations.UnbindClearsTheContext := fun _ _ =>
  ⟨execUnbind_of_nctx_le, execUnbind_of_lt⟩

end Sys2Proof.Machine
end

section
/-! PROOFS. INSERT (R125 to R133): its end past the checks, direct placement, the displacement rounds as `roundOf` iterated, and the live associations
that an insertion keeps. -/

namespace Sys2Proof.Machine

open Sys2Proof.Claims

section
variable {s : State} {c : Nat} {g : Buffer} {m m' : Memory} {p : Assoc} {t : Table}

/-! ### INSERT past its checks (R125) -/

theorem valueLegal_iff {v : Reg} : valueLegal v = true ↔ 1 ≤ v.toNat ∧ v.toNat < 2 ^ 48 := by
  rw [valueLegal, decide_eq_true_iff, Nat.one_le_iff_ne_zero, Ne, Ne, ← BitVec.toNat_inj]
  rfl

/-- The end of an INSERT whose checks pass, by what `InsertCore` answers. -/
def insertEnd (s : State) (c : Nat) : Insertion → State
  | .success m => (s.setMem m).finish .success
  | .full m p => ((s.setMem m).setCtx c (markFull (s.ctx c) p)).finish .full

theorem execInsert_of_ready (h : insertReady s c) :
    exec (.insert c) s =
      .next (insertEnd s c (insertCore (s.buffer c) s.params.maxRounds s.mem ⟨s.lkey, s.lval.setWidth 48⟩)) := by
  obtain ⟨hc, hv, hmode, hval⟩ := h
  have hmode' : (s.ctx c).mode ≠ .full := by rw [hmode]; nofun
  simp only [exec, execInsert, if_neg (Nat.not_le.mpr hc), hv, if_neg hmode', valueLegal_iff.mpr hval, Bool.not_true,
    Bool.false_eq_true, if_false, State.operand]
  cases insertCore (s.buffer c) s.params.maxRounds s.mem ⟨s.lkey, s.lval.setWidth 48⟩ <;> rfl

theorem insertEnd_mem (r : Insertion) : (insertEnd s c r).mem = r.memory := by cases r <;> rfl

theorem insertEnd_full_ctx (hc : c < s.nctx) : (insertEnd s c (.full m p)).ctx c = markFull (s.ctx c) p :=
  (State.ctx_setCtx (s.setMem m) c c _).trans (if_pos ⟨rfl, hc⟩)

/-! ### Direct placement (R127) -/

theorem freeSlot_eq_none_iff {b : BucketIx} : freeSlot g m t b = none ↔ bucketFull g m t b := by
  simp [freeSlot, bucketFull, liveSlot]

theorem freeSlot_eq_some {b : BucketIx} {i : Nat} (hi : i < 5) (hbefore : ∀ j < i, liveSlot g m t b j)
    (hempty : readSlot g m t b i = emptyEntry) : freeSlot g m t b = some i :=
  List.find?_range_eq_some.mpr ⟨(isEmpty_iff _).mpr hempty, List.mem_range.mpr hi, fun j hj => by simpa [liveSlot] using hbefore j hj⟩

theorem placeIn_eq_none_iff : placeIn g m t p = none ↔ bucketFull g m t (index t p.key) :=
  Option.map_eq_none_iff.trans freeSlot_eq_none_iff

theorem placeIn_of_freeSlot {i : Nat} (h : freeSlot g m t (index t p.key) = some i) :
    placeIn g m t p = some (writeSlot g m t (index t p.key) i (enc t p)) := by rw [placeIn, h, Option.map_some]

/-- Table 2 is tried only when the bucket of table 1 is full. -/
theorem insertCore_of_placeIn (rounds : Nat) (hfull : t = .t2 → bucketFull g m .t1 (index .t1 p.key)) (h : placeIn g m t p = some m') :
    insertCore g rounds m p = .success m' := by
  cases t with
  | t1 => simp only [insertCore, h]
  | t2 => simp only [insertCore, placeIn_eq_none_iff.mpr (hfull rfl), h]

theorem insertCore_of_bucketsFull (rounds : Nat) (h1 : bucketFull g m .t1 (index .t1 p.key)) (h2 : bucketFull g m .t2 (index .t2 p.key)) :
    insertCore g rounds m p = displace g rounds m .t1 p := by
  simp only [insertCore, placeIn_eq_none_iff.mpr h1, placeIn_eq_none_iff.mpr h2]

/-! ### The displacement rounds (R128 to R130) -/

section
variable {x : Memory × Table × Assoc}

/-- A round ends in the table 3 - t. -/
theorem roundOf_table : (roundOf g x).2.1 = otherTable x.2.1 := by
  obtain ⟨_, t, _⟩ := x
  cases t <;> rfl

theorem displace_of_empty (n : Nat) (h : ¬nextSlotLive g x) : displace g (n + 1) x.1 x.2.1 x.2.2 = .success (roundOf g x).1 := by
  have hempty : isEmpty (readSlot g x.1 x.2.1 (index x.2.1 x.2.2.key) 0) = true := (isEmpty_iff _).mpr (not_not.mp h)
  simp only [displace, if_pos hempty, roundOf]

theorem displace_of_live (n : Nat) (h : nextSlotLive g x) :
    displace g (n + 1) x.1 x.2.1 x.2.2 = displace g n (roundOf g x).1 (roundOf g x).2.1 (roundOf g x).2.2 := by
  have hlive : ¬isEmpty (readSlot g x.1 x.2.1 (index x.2.1 x.2.2.key) 0) = true := fun he => h ((isEmpty_iff _).mp he)
  rw [roundOf_table, displace, if_neg hlive]
  rfl

end

theorem afterRounds_succ (n : Nat) : afterRounds g m p (n + 1) = roundOf g (afterRounds g m p n) := Function.iterate_succ_apply' _ _ _

/-- Rounds that read live slots only lead to what is carried after them. -/
theorem displace_eq_afterRounds {r : Nat} (n : Nat) (h : ∀ q < r, nextSlotLive g (afterRounds g m p q)) :
    displace g (n + r) m .t1 p = displace g n (afterRounds g m p r).1 (afterRounds g m p r).2.1 (afterRounds g m p r).2.2 := by
  induction r generalizing n with
  | zero => rfl
  | succ r ih =>
    have hbefore := ih (n + 1) fun q hq => h q (hq.trans r.lt_succ_self)
    rw [← Nat.succ_add_eq_add_succ, hbefore, displace_of_live n (h r r.lt_succ_self), afterRounds_succ]

theorem displace_of_first_empty {rounds r : Nat} (hr : r < rounds) (hlive : ∀ q < r, nextSlotLive g (afterRounds g m p q))
    (hempty : ¬nextSlotLive g (afterRounds g m p r)) : displace g rounds m .t1 p = .success (afterRounds g m p (r + 1)).1 := by
  obtain ⟨n, rfl⟩ : ∃ n, rounds = n + 1 + r := ⟨rounds - 1 - r, by omega⟩
  rw [displace_eq_afterRounds (n + 1) hlive, displace_of_empty n hempty, afterRounds_succ]

theorem displace_of_all_live {rounds : Nat} (hlive : ∀ q < rounds, nextSlotLive g (afterRounds g m p q)) :
    displace g rounds m .t1 p = .full (afterRounds g m p rounds).1 (afterRounds g m p rounds).2.2 := by
  rw [← Nat.zero_add rounds, displace_eq_afterRounds 0 hlive, Nat.zero_add, displace]

/-- The rounds write their slots 0 alone. -/
theorem byteAt_afterRounds {n a : Nat}
    (h : ∀ q < n, ¬inSlot g (afterRounds g m p q).2.1 (index (afterRounds g m p q).2.1 (afterRounds g m p q).2.2.key) 0 a) :
    (afterRounds g m p n).1.byteAt a = m.byteAt a := by
  induction n with
  | zero => rfl
  | succ n ih =>
    rw [afterRounds_succ, roundOf, byteAt_writeSlot_outside _ _ _ _ _ _ _ (h n n.lt_succ_self),
      ih fun q hq => h q (hq.trans n.lt_succ_self)]

/-! ### Zero-valued live slots (U22) -/

theorem noZeroValues_placeIn (hz : noZeroValues g m) (hp : p.val ≠ 0) (h : placeIn g m t p = some m') : noZeroValues g m' := by
  obtain ⟨i, hi, rfl⟩ := Option.map_eq_some_iff.mp h
  exact noZeroValues_writeSlot hz (freeSlot_lt hi) ((decVal_enc t p).trans_ne hp)

/-- A displaced association is a live slot's, so its value is not 0 either. -/
theorem noZeroValues_displace (hz : noZeroValues g m) (n : Nat) (t : Table) (hp : p.val ≠ 0) :
    noZeroValues g (displace g n m t p).memory ∧ ∀ q ∈ (displace g n m t p).leftOver, q.val ≠ 0 := by
  induction n generalizing m t p with
  | zero => exact ⟨hz, fun q hq => Option.some.inj hq ▸ hp⟩
  | succ n ih =>
    have hz' := noZeroValues_writeSlot hz (t := t) (b := index t p.key) (show 0 < 5 by decide) ((decVal_enc t p).trans_ne hp)
    simp only [displace]
    split
    · exact ⟨hz', nofun⟩
    · rename_i hlive
      rw [isEmpty_iff] at hlive
      exact ih hz' _ (hz t _ 0 (by decide) hlive)

theorem noZeroValues_insertCore (hz : noZeroValues g m) (rounds : Nat) (hp : p.val ≠ 0) :
    noZeroValues g (insertCore g rounds m p).memory ∧ ∀ q ∈ (insertCore g rounds m p).leftOver, q.val ≠ 0 := by
  unfold insertCore
  split
  · exact ⟨noZeroValues_placeIn hz hp ‹_›, nofun⟩
  · split
    · exact ⟨noZeroValues_placeIn hz hp ‹_›, nofun⟩
    · exact noZeroValues_displace hz rounds .t1 hp

/-! ### The live associations (R133) -/

/-- `allSlots` and `slotsOfTable` list the same slots in the same order. -/
theorem allSlots_eq_flatMap : allSlots = [Table.t1, Table.t2].flatMap fun t => slotsOfTable.map fun x => (t, x) := by
  unfold allSlots slotsOfTable
  simp only [List.map_flatMap, List.map_map, Function.comp_def]

/-- The association of a live slot. -/
def liveAssocAt (g : Buffer) (m : Memory) (x : Table × BucketIx × Nat) : Option Assoc :=
  if readSlot g m x.1 x.2.1 x.2.2 = emptyEntry then none else some (decodeSlot x.1 x.2.1 (readSlot g m x.1 x.2.1 x.2.2))

theorem liveAssocs_eq_filterMap (g : Buffer) (m : Memory) : liveAssocs g m = allSlots.filterMap (liveAssocAt g m) := by
  rw [allSlots_eq_flatMap, List.filterMap_flatMap]
  simp only [List.filterMap_map]
  rfl

theorem count_liveAssocs (g : Buffer) (m : Memory) (p : Assoc) : (liveAssocs g m).count p = occurrences g m p := by
  rw [liveAssocs_eq_filterMap, List.count_filterMap, occurrences]
  refine List.countP_congr fun x _ => ?_
  simp [liveAssocAt, holds]

theorem val_ne_zero_of_mem_liveAssocs (hz : noZeroValues g m) (h : p ∈ liveAssocs g m) : p.val ≠ 0 := by
  rw [liveAssocs_eq_filterMap] at h
  obtain ⟨⟨t, b, i⟩, hslot, hat⟩ := List.mem_filterMap.mp h
  obtain ⟨hlive, rfl⟩ : readSlot g m t b i ≠ emptyEntry ∧ decodeSlot t b (readSlot g m t b i) = p := by simpa [liveAssocAt] using hat
  exact hz t b i (mem_allSlots.mp hslot) hlive

/-- As `occurrences_insertCore` counts a left-over association. -/
theorem count_toList (o : Option Assoc) (a : Assoc) : o.toList.count a = (decide (o = some a)).toNat := by
  cases o with
  | none => rfl
  | some q => by_cases h : q = a <;> simp [h]

/-- An insertion's memory and its left-over association hold what the buffer held and the new association. -/
theorem liveAssocs_insertCore_perm (hz : noZeroValues g m) (rounds : Nat) (hp : p.val ≠ 0) :
    ((insertCore g rounds m p).leftOver.toList ++ liveAssocs g (insertCore g rounds m p).memory).Perm (p :: liveAssocs g m) := by
  obtain ⟨hz', hleft⟩ := noZeroValues_insertCore hz rounds hp
  refine List.perm_iff_count.mpr fun a => ?_
  by_cases ha : a.val = 0
  · have hnew : a ∉ (insertCore g rounds m p).leftOver.toList ++ liveAssocs g (insertCore g rounds m p).memory := by
      rw [List.mem_append, Option.mem_toList]
      exact fun h => h.elim (fun h => hleft a h ha) (fun h => val_ne_zero_of_mem_liveAssocs hz' h ha)
    have hold : a ∉ p :: liveAssocs g m := by
      rw [List.mem_cons]
      exact fun h => h.elim (fun h => hp (h ▸ ha)) (fun h => val_ne_zero_of_mem_liveAssocs hz h ha)
    rw [List.count_eq_zero_of_not_mem hnew, List.count_eq_zero_of_not_mem hold]
  · have hcount := occurrences_insertCore g rounds m p ha
    rw [List.count_append, List.count_cons, count_liveAssocs, count_liveAssocs, count_toList, Nat.add_comm, hcount]
    by_cases h : p = a <;> simp [h]

end

/-! ### The obligations -/

/-- Settles O20: the slot is the one that `freeSlot` finds, and the only one written. -/
theorem insertPlacesInTheFirstEmptySlot : Obligations.InsertPlacesInTheFirstEmptySlot := by
  intro s c t i hready hi hfull hbefore hempty
  have hplace := placeIn_of_freeSlot (p := ⟨s.lkey, s.lval.setWidth 48⟩) (freeSlot_eq_some hi hbefore hempty)
  refine ⟨_, execInsert_of_ready hready, ?_⟩
  rw [insertCore_of_placeIn (p := ⟨s.lkey, s.lval.setWidth 48⟩) _ hfull hplace]
  refine ⟨rfl, ?_, fun a ha => ?_⟩ <;> rw [insertEnd_mem, Insertion.memory]
  · rw [readSlot_writeSlot _ _ _ hi hi, if_pos ⟨rfl, rfl, rfl⟩]
  · rw [byteAt_writeSlot_outside _ _ _ _ _ _ _ ha]

/-- Settles O21: both buckets full, INSERT is `displace`, whose rounds are `roundOf` for as long as they read a live slot 0. -/
theorem insertDisplacesRoundByRound : Obligations.InsertDisplacesRoundByRound := by
  intro s c hready h1 h2 x
  have hexec := execInsert_of_ready hready
  rw [insertCore_of_bucketsFull (p := ⟨s.lkey, s.lval.setWidth 48⟩) _ h1 h2] at hexec
  refine ⟨h1 0 (by decide), fun r hr hlive hempty => ?_, fun hlive => ?_, fun n a => byteAt_afterRounds⟩
  · rw [hexec, displace_of_first_empty hr hlive hempty]
    rfl
  · rw [hexec, displace_of_all_live hlive]
    rfl

/-- Settles O22: the four faults change no context and no memory, SUCCESS no context, and FULL the mode and the overflow of its own context. -/
theorem insertFrame : Obligations.InsertFrame := by
  intro s t c h
  rcases execInsert_cases h with ⟨-, rfl⟩ | ⟨-, -, rfl⟩ | ⟨-, -, rfl⟩ | ⟨-, -, -, rfl⟩ | ⟨hv, -, -, ⟨m, -, rfl⟩ | ⟨m, p, -, rfl⟩⟩
  iterate 4 exact ⟨rfl, fun _ _ => rfl, rfl, rfl, fun _ => rfl, fun _ _ => rfl, fun hr => hr.elim nofun nofun⟩
  · exact ⟨rfl, fun _ _ => rfl, rfl, rfl, fun _ => rfl, fun hr => absurd rfl hr, fun _ => ⟨rfl, rfl, rfl⟩⟩
  · have hctx : (insertEnd s c (.full m p)).ctx c = markFull (s.ctx c) p := insertEnd_full_ctx (State.lt_nctx_of_valid hv)
    exact ⟨rfl, fun d hd => State.ctx_setCtx_ne (s.setMem m) _ hd, (congrArg Ctx.valid hctx).trans rfl, (congrArg Ctx.base hctx).trans rfl,
      fun hr => absurd rfl hr, fun _ hr => absurd rfl hr, fun _ => ⟨rfl, rfl, rfl⟩⟩

/-- Settles O23: the left-over association of a FULL insertion is the context's overflow, and an insertion has none on SUCCESS. -/
theorem insertConservesAssociations : Obligations.InsertConservesAssociations := by
  intro s t c hready hz h
  have ⟨hc, _, _, hval⟩ := hready
  have hp : s.operand.val ≠ 0 := State.operand_val_ne_zero (valueLegal_iff.mpr hval)
  have hperm := liveAssocs_insertCore_perm hz s.params.maxRounds hp
  have hkeep := (noZeroValues_insertCore hz s.params.maxRounds hp).1
  rw [execInsert_of_ready hready] at h
  obtain rfl := Host.Outcome.next.inj h
  rw [insertEnd_mem]
  refine ⟨hkeep, ?_⟩
  rw [State.operand] at hperm
  generalize insertCore (s.buffer c) s.params.maxRounds s.mem ⟨s.lkey, s.lval.setWidth 48⟩ = r at hperm ⊢
  cases r with
  | success m =>
    rw [Insertion.leftOver, Option.toList_none, List.nil_append] at hperm
    exact .inl ⟨rfl, hperm⟩
  | full m p =>
    rw [Insertion.leftOver, Option.toList_some, List.singleton_append] at hperm
    rw [insertEnd_full_ctx hc]
    exact .inr ⟨rfl, hperm⟩

end Sys2Proof.Machine
end

section
/-! PROOFS. LOOKUP (R135 to R139): the values it finds are counted by the stored copies of their associations, and what a successful INSERT keeps
findable. -/

namespace Sys2Proof.Machine

open Sys2Proof.Claims

section
variable {s : State} {c : Nat} {g : Buffer} {m : Memory}

/-! ### The copies of an association in its candidate slots (R113, R135) -/

theorem copies_eq_add (p : Assoc) :
    copies g m p = (readBucket g m .t1 (index .t1 p.key)).count (enc .t1 p) + (readBucket g m .t2 (index .t2 p.key)).count (enc .t2 p) := rfl

theorem copies_pos_iff {p : Assoc} : 0 < copies g m p ↔ ∃ t, ∃ i < 5, readSlot g m t (index t p.key) i = enc t p := by
  rw [copies_eq_add, Nat.add_pos_iff_pos_or_pos, List.count_pos_iff, List.count_pos_iff, mem_readBucket, mem_readBucket]
  constructor
  · rintro (h | h)
    · exact ⟨.t1, h⟩
    · exact ⟨.t2, h⟩
  · rintro ⟨t, h⟩
    cases t with
    | t1 => exact .inl h
    | t2 => exact .inr h

/-- A slot anywhere in the buffer decodes to the pair exactly when it is in the key's bucket and holds the pair's entry (R113). -/
theorem decodeSlot_eq_iff {t : Table} {b : BucketIx} {e : Entry} {p : Assoc} : decodeSlot t b e = p ↔ b = index t p.key ∧ e = enc t p := by
  constructor
  · rintro rfl
    exact ⟨(index_decodeSlot t b e).symm, (enc_decodeSlot t b e).symm⟩
  · rintro ⟨rfl, rfl⟩
    exact decodeSlot_enc t p

/-- An association that the buffer holds is in a candidate slot of its key: no other bucket's slots decode to that key. -/
theorem occurrences_pos_iff_copies_pos {p : Assoc} (hp : p.val ≠ 0) : 0 < occurrences g m p ↔ 0 < copies g m p := by
  rw [occurrences, List.countP_pos_iff, copies_pos_iff]
  constructor
  · rintro ⟨⟨t, b, i⟩, hslot, hholds⟩
    obtain ⟨-, hdec⟩ : readSlot g m t b i ≠ emptyEntry ∧ decodeSlot t b (readSlot g m t b i) = p := of_decide_eq_true hholds
    obtain ⟨rfl, hentry⟩ := decodeSlot_eq_iff.mp hdec
    exact ⟨t, i, mem_allSlots.mp hslot, hentry⟩
  · rintro ⟨t, i, hi, hentry⟩
    exact ⟨(t, index t p.key, i), mem_allSlots.mpr hi,
      decide_eq_true ⟨hentry.trans_ne (enc_ne_emptyEntry t hp), decodeSlot_eq_iff.mpr ⟨rfl, hentry⟩⟩⟩

/-! ### What LOOKUP finds (R135, R136) -/

theorem slotMatch_eq_some_iff {t : Table} {k : Key} {e : Entry} {v : Value} (hv : v ≠ 0) :
    slotMatch t (index t k) k e = some v ↔ e = enc t ⟨k, v⟩ := by
  rw [← decodeSlot_index_eq_iff (p := ⟨k, v⟩), decodeSlot_eq_iff_fields, slotMatch, Option.ite_none_right_eq_some, Option.some_inj]
  constructor
  · rintro ⟨⟨hk, -⟩, hval⟩
    exact ⟨hk, hval⟩
  · rintro ⟨hk, hval⟩
    exact ⟨⟨hk, hval.trans_ne hv⟩, hval⟩

theorem count_matchesIn (t : Table) (k : Key) {v : Value} (hv : v ≠ 0) :
    (matchesIn g m t k).count v = (readBucket g m t (index t k)).count (enc t ⟨k, v⟩) := by
  rw [matchesIn, List.count_filterMap, List.count]
  refine List.countP_congr fun e _ => ?_
  rw [beq_iff_eq, beq_iff_eq, slotMatch_eq_some_iff hv]

theorem count_lookupMatches (k : Key) {v : Value} (hv : v ≠ 0) : (lookupMatches g m k).count v = copies g m ⟨k, v⟩ := by
  rw [lookupMatches, List.count_append, count_matchesIn .t1 k hv, count_matchesIn .t2 k hv, copies_eq_add]

theorem shuffle_eq_nil_iff (n : Nat) (l : List Value) : shuffle n l = [] ↔ l = [] := by
  rw [← List.length_eq_zero_iff, (shuffle_perm n l).length_eq, List.length_eq_zero_iff]

/-- LOOKUP past its checks (R135). -/
theorem execLookup_of_valid (hc : c < s.nctx) (hv : (s.ctx c).valid = true) :
    exec (.lookup c) s =
      .next ((s.finishWith (if lookupMatches (s.buffer c) s.mem s.lkey = [] then .notFound else .success)
        (shuffle s.draws (lookupMatches (s.buffer c) s.mem s.lkey))).nextDraw) := by
  simp [exec, execLookup, Nat.not_le.mpr hc, hv]

/-! ### What INSERT leaves findable (R139) -/

/-- An insertion that returns SUCCESS adds one occurrence of its own association and keeps the others, wherever displacement moves them. -/
theorem occurrences_of_insertCore_success {rounds : Nat} {m' : Memory} {q : Assoc} (h : insertCore g rounds m q = .success m') {p : Assoc}
    (hp : p.val ≠ 0) : occurrences g m' p = occurrences g m p + (decide (q = p)).toNat := by
  have hcount := occurrences_insertCore g rounds m q hp
  rw [h, Insertion.memory, Insertion.leftOver, decide_eq_false nofun, Bool.toNat_false, Nat.add_zero] at hcount
  exact hcount

/-- A ready INSERT that returns SUCCESS leaves the memory of a successful insertion. -/
theorem insertCore_of_insert_success {t : State} (hready : insertReady s c) (h : exec (.insert c) s = .next t) (hr : t.result = .success) :
    insertCore (s.buffer c) s.params.maxRounds s.mem s.operand = .success t.mem := by
  rw [execInsert_of_ready hready] at h
  obtain rfl := Host.Outcome.next.inj h
  rw [State.operand]
  generalize insertCore (s.buffer c) s.params.maxRounds s.mem ⟨s.lkey, s.lval.setWidth 48⟩ = r at hr ⊢
  cases r with
  | success m => rfl
  | full m p => cases hr

end

/-! ### The obligations -/

/-- Settles O24: an insertion lowers no association's number of occurrences, and what occurs in the buffer is in a candidate slot of its key. -/
theorem successfulInsertKeepsAllFindable : Obligations.SuccessfulInsertKeepsAllFindable := by
  intro s t c hready h hr
  have hcore := insertCore_of_insert_success hready h hr
  obtain ⟨-, -, -, hval⟩ := hready
  have hop : s.operand.val ≠ 0 := State.operand_val_ne_zero (valueLegal_iff.mpr hval)
  constructor
  · have hown := occurrences_of_insertCore_success hcore hop
    rw [decide_eq_true rfl] at hown
    exact (occurrences_pos_iff_copies_pos hop).mp (hown ▸ Nat.succ_pos _)
  · intro p hp hbefore
    rw [← occurrences_pos_iff_copies_pos hp] at hbefore ⊢
    rw [occurrences_of_insertCore_success hcore hp]
    exact Nat.add_pos_left hbefore _

/-- Settles O27: the results are a permutation of the matches, of which each value has as many as its association has copies. -/
theorem lookupReturnsEveryStoredValue : Obligations.LookupReturnsEveryStoredValue := by
  intro s c hc hv
  have hperm := shuffle_perm s.draws (lookupMatches (s.buffer c) s.mem s.lkey)
  refine ⟨_, execLookup_of_valid hc hv, ?_, fun v hv0 => ?_, fun hzero => ?_, ?_⟩
  · rw [← if_congr (shuffle_eq_nil_iff s.draws (lookupMatches (s.buffer c) s.mem s.lkey)) rfl rfl]
    rfl
  · exact (hperm.count_eq v).trans (count_lookupMatches s.lkey hv0)
  · exact zero_not_mem_lookupMatches _ _ _ (hperm.mem_iff.mp hzero)
  · exact hperm.length_eq.trans_le (length_lookupMatches _ _ _)

end Sys2Proof.Machine
end

section
/-! PROOFS. REMOVE (R140 to R147): its end past the checks, what each policy makes of a candidate bucket as a list of five entries, and the bytes it
leaves alone. -/

namespace Sys2Proof.Machine

open Sys2Proof.Claims

/-! ### Swap-with-last on a bucket's list (R142, R143) -/

section
variable {l : List Entry} {e x : Entry} {i : Nat}

@[simp] theorem length_swapLastIn : (swapLastIn l i).length = l.length := by simp [swapLastIn]

theorem mem_iff_getD (he : e ≠ emptyEntry) : e ∈ l ↔ ∃ j, l.getD j emptyEntry = e := by
  rw [List.mem_iff_getElem?]
  refine exists_congr fun j => ?_
  rw [List.getD_eq_getElem?_getD]
  cases l[j]? <;> simp [he.symm]

theorem getD_swapLastIn (hl : l.length = 5) (hi : i < 5) (j : Nat) :
    (swapLastIn l i).getD j emptyEntry =
      if j = 4 then emptyEntry else if j = i then l.getD 4 emptyEntry else l.getD j emptyEntry := by
  grind [swapLastIn, lastSlot]

/-- One occurrence of what slot i held goes, and Z comes. -/
theorem count_swapLastIn (hl : l.length = 5) (hi : i < 5) (hx : x ≠ emptyEntry) :
    (swapLastIn l i).count x + (if l.getD i emptyEntry = x then 1 else 0) = l.count x := by
  match l, hl with
  | [a0, a1, a2, a3, a4], _ =>
    interval_cases i <;> simp [swapLastIn, lastSlot, List.count_cons, hx.symm] <;> omega

theorem count_swapLastIn_self (hl : l.length = 5) (hi : i < 5) (he : e ≠ emptyEntry) (h : l.getD i emptyEntry = e) :
    (swapLastIn l i).count e + 1 = l.count e := by
  rw [← count_swapLastIn hl hi he, if_pos h]

theorem count_swapLastIn_other (hl : l.length = 5) (hi : i < 5) (hx : x ≠ emptyEntry) (h : l.getD i emptyEntry ≠ x) :
    (swapLastIn l i).count x = l.count x := by
  rw [← count_swapLastIn hl hi hx, if_neg h, Nat.add_zero]

end

/-! ### SWAP_LAST_CONTINUE on the list (R142) -/

section
variable {l : List Entry} {e x : Entry} {is : List Nat} {f : Bool}

theorem continueIn_found : (continueIn e is (l, f)).2 = true ↔ f = true ∨ ∃ i ∈ is, l.getD i emptyEntry = e := by
  induction is generalizing l f with
  | nil => simp [continueIn]
  | cons i rest ih =>
    rw [continueIn]
    split
    · rename_i hit
      rw [ih]
      exact iff_of_true (.inl rfl) (.inr ⟨i, List.mem_cons_self, hit⟩)
    · rename_i hmiss
      rw [ih, List.exists_mem_cons_iff, or_iff_right hmiss]

/-- Only occurrences of the entry sought go. -/
theorem count_continueIn (hl : l.length = 5) (his : ∀ i ∈ is, i < 5) (hxe : x ≠ e) (hx : x ≠ emptyEntry) :
    (continueIn e is (l, f)).1.count x = l.count x := by
  induction is generalizing l f with
  | nil => rfl
  | cons i rest ih =>
    have hi : i < 5 := his i List.mem_cons_self
    have ih {l : List Entry} {f : Bool} (hl : l.length = 5) : (continueIn e rest (l, f)).1.count x = l.count x :=
      ih hl fun j hj => his j (List.mem_cons_of_mem i hj)
    rw [continueIn]
    split
    · rename_i hit
      rw [ih (by simpa using hl), count_swapLastIn_other hl hi hx (hit.trans_ne hxe.symm)]
    · exact ih hl

/-- Once slot 4 is empty, the scan overwrites each copy it visits with Z. -/
theorem getD_continueIn_of_last_empty (hl : l.length = 5) (his : ∀ i ∈ is, i < 5) (he : e ≠ emptyEntry) (h4 : l.getD 4 emptyEntry = emptyEntry)
    (j : Nat) : (continueIn e is (l, f)).1.getD j emptyEntry = e ↔ j ∉ is ∧ l.getD j emptyEntry = e := by
  induction is generalizing l f with
  | nil => simp [continueIn]
  | cons i rest ih =>
    have hi : i < 5 := his i List.mem_cons_self
    have ih {l : List Entry} {f : Bool} (hl : l.length = 5) (h4 : l.getD 4 emptyEntry = emptyEntry) :
        (continueIn e rest (l, f)).1.getD j emptyEntry = e ↔ j ∉ rest ∧ l.getD j emptyEntry = e :=
      ih hl (fun k hk => his k (List.mem_cons_of_mem i hk)) h4
    rw [continueIn, List.mem_cons]
    split
    · rw [ih (by simpa using hl) (by rw [getD_swapLastIn hl hi, if_pos rfl]), getD_swapLastIn hl hi, h4]
      grind
    · rw [ih hl h4]
      grind

/-- A copy is left only at the first copy's slot, when that is not slot 4 and slot 4 holds a copy. -/
theorem getD_continueIn (n s : Nat) (hs : s + n = 5) (hl : l.length = 5) (he : e ≠ emptyEntry)
    (hbefore : ∀ k ∉ List.range' s n, l.getD k emptyEntry ≠ e) (j : Nat) :
    (continueIn e (List.range' s n) (l, f)).1.getD j emptyEntry = e ↔
      l.getD 4 emptyEntry = e ∧ j < 4 ∧ l.getD j emptyEntry = e ∧ ∀ k < j, l.getD k emptyEntry ≠ e := by
  induction n generalizing s f with
  | zero =>
    have hnone (k : Nat) : l.getD k emptyEntry ≠ e := hbefore k List.not_mem_nil
    exact iff_of_false (hnone j) fun h => hnone 4 h.1
  | succ n ih =>
    have hs5 : s < 5 := by omega
    rw [List.range'_succ, continueIn]
    split
    · rename_i hit
      have hrest : ∀ k ∈ List.range' (s + 1) n, k < 5 := fun k hk => by have := List.mem_range'_1.mp hk; omega
      have hlast : (swapLastIn l s).getD 4 emptyEntry = emptyEntry := by rw [getD_swapLastIn hl hs5, if_pos rfl]
      rw [getD_continueIn_of_last_empty (by simpa using hl) hrest he hlast, getD_swapLastIn hl hs5]
      simp only [List.mem_range'_1] at hbefore ⊢
      rcases lt_trichotomy j s with hlt | rfl | hgt
      · have hnone : l.getD j emptyEntry ≠ e := hbefore j (by omega)
        rw [if_neg (by omega), if_neg hlt.ne]
        exact iff_of_false (fun h => hnone h.2) (fun h => hnone h.2.2.1)
      · have hfirst : ∀ k < j, l.getD k emptyEntry ≠ e := fun k hk => hbefore k (by omega)
        grind
      · have hgone : ¬∀ k < j, l.getD k emptyEntry ≠ e := fun h => h s hgt hit
        grind
    · rename_i hmiss
      refine ih (s + 1) (by omega) fun k hk => ?_
      by_cases hks : k = s
      · rwa [hks]
      · refine hbefore k ?_
        rw [List.mem_range'_1] at hk ⊢
        omega

end

/-! ### SWAP_LAST_RESTART on the list (R143) -/

section
variable {l : List Entry} {e x : Entry} {n : Nat} {f : Bool}

theorem firstCopy_eq_none (hl : l.length = 5) (he : e ≠ emptyEntry)
    (h : (List.range 5).find? (fun i => l.getD i emptyEntry = e) = none) : e ∉ l := by
  rw [mem_iff_getD he]
  rintro ⟨j, hj⟩
  have hj5 : j < 5 := by
    by_contra hge
    exact he (hj.symm.trans (List.getD_eq_default _ _ (by omega)))
  exact List.find?_eq_none.mp h j (List.mem_range.mpr hj5) (decide_eq_true hj)

theorem firstCopy_eq_some {i : Nat} (h : (List.range 5).find? (fun i => l.getD i emptyEntry = e) = some i) : i < 5 ∧ l.getD i emptyEntry = e :=
  ⟨List.mem_range.mp (List.mem_of_find?_eq_some h), by simpa using List.find?_some h⟩

/-- A pass takes one copy away, so as many passes as copies leave none. -/
theorem restartIn_of_count_le (hl : l.length = 5) (he : e ≠ emptyEntry) (hn : l.count e ≤ n) :
    e ∉ (restartIn e n (l, f)).1 ∧ (restartIn e n (l, f)).2 = (f || decide (0 < l.count e)) := by
  induction n generalizing l f with
  | zero =>
    have hnone : l.count e = 0 := Nat.le_zero.mp hn
    simpa [restartIn, hnone] using List.count_eq_zero.mp hnone
  | succ n ih =>
    rw [restartIn]
    split
    · rename_i hfind
      have hnone : e ∉ l := firstCopy_eq_none hl he hfind
      simp [hnone]
    · rename_i i hfind
      obtain ⟨hi, hit⟩ := firstCopy_eq_some hfind
      have hcount := count_swapLastIn_self hl hi he hit
      obtain ⟨hgone, hfound⟩ := ih (l := swapLastIn l i) (f := true) (by simpa using hl) (by omega)
      refine ⟨hgone, hfound.trans ?_⟩
      rw [Bool.true_or, decide_eq_true (by omega), Bool.or_true]

theorem count_restartIn (hl : l.length = 5) (hxe : x ≠ e) (hx : x ≠ emptyEntry) : (restartIn e n (l, f)).1.count x = l.count x := by
  induction n generalizing l f with
  | zero => rfl
  | succ n ih =>
    rw [restartIn]
    split
    · rfl
    · rename_i i hfind
      obtain ⟨hi, hit⟩ := firstCopy_eq_some hfind
      rw [ih (by simpa using hl), count_swapLastIn_other hl hi hx (hit.trans_ne hxe.symm)]

end

/-! ### A bucket after `RemoveInBucket` (R141) -/

/-- The bucket that `RemoveInBucket` leaves of the bucket `l`; SHIFT_DOWN as R144 says its end. -/
def bucketAfter (policy : RemovePolicy) (e : Entry) (l : List Entry) : List Entry :=
  match policy with
  | .swapLastContinue => (continueIn e (List.range 5) (l, false)).1
  | .swapLastRestart => (restartIn e 5 (l, false)).1
  | .shiftDown => l.filter (fun x => x ≠ e) ++ List.replicate (l.count e) emptyEntry

section
variable {l : List Entry} {e x : Entry}

theorem getD_bucketAfter_continue (hl : l.length = 5) (he : e ≠ emptyEntry) (j : Nat) :
    (bucketAfter .swapLastContinue e l).getD j emptyEntry = e ↔
      l.getD 4 emptyEntry = e ∧ j < 4 ∧ l.getD j emptyEntry = e ∧ ∀ k < j, l.getD k emptyEntry ≠ e := by
  rw [bucketAfter, List.range_eq_range']
  refine getD_continueIn 5 0 rfl hl he (fun k hk => ?_) j
  rw [List.getD_eq_default _ _ (by rw [List.mem_range'_1] at hk; omega)]
  exact he.symm

/-- Every policy keeps the other live entries, as often as before. -/
theorem count_bucketAfter (policy : RemovePolicy) (hl : l.length = 5) (hxe : x ≠ e) (hx : x ≠ emptyEntry) :
    (bucketAfter policy e l).count x = l.count x := by
  cases policy with
  | swapLastContinue => exact count_continueIn hl (fun _ => List.mem_range.mp) hxe hx
  | swapLastRestart => exact count_restartIn hl hxe hx
  | shiftDown => simp [bucketAfter, List.count_replicate, List.count_filter, hxe, hx.symm]

/-- No copy is left, but under SWAP_LAST_CONTINUE perhaps one of several (R147). -/
theorem not_mem_bucketAfter {policy : RemovePolicy} (hl : l.length = 5) (he : e ≠ emptyEntry)
    (h : policy ≠ .swapLastContinue ∨ l.count e ≤ 1) : e ∉ bucketAfter policy e l := by
  cases policy with
  | swapLastContinue =>
    have hone : l.count e ≤ 1 := h.resolve_left fun hne => hne rfl
    rw [mem_iff_getD he]
    rintro ⟨j, hj⟩
    obtain ⟨h4, hj4, hjl, -⟩ := (getD_bucketAfter_continue hl he j).mp hj
    have hfirst := count_swapLastIn_self hl (hj4.trans (by decide)) he hjl
    have hsecond : e ∈ swapLastIn l j := (mem_iff_getD he).mpr
      ⟨j, by rw [getD_swapLastIn hl (hj4.trans (by decide)), if_neg hj4.ne, if_pos rfl, h4]⟩
    have := List.count_pos_iff.mpr hsecond
    omega
  | swapLastRestart => exact (restartIn_of_count_le hl he (List.count_le_length.trans_eq hl)).1
  | shiftDown => simp [bucketAfter, he]

end

section
variable {g : Buffer} {m : Memory} {t : Table} {b : BucketIx} {e : Entry}

theorem readBucket_removeInBucket (policy : RemovePolicy) (he : e ≠ emptyEntry) (t' : Table) (b' : BucketIx) :
    readBucket g (removeInBucket policy g m t b e).1 t' b' =
      if t' = t ∧ b' = b then bucketAfter policy e (readBucket g m t b) else readBucket g m t' b' := by
  have hscan {m' : Memory} {l : List Entry} (hself : readBucket g m' t b = l)
      (hother : ∀ t' b', ¬(t' = t ∧ b' = b) → readBucket g m' t' b' = readBucket g m t' b') :
      readBucket g m' t' b' = if t' = t ∧ b' = b then l else readBucket g m t' b' := by
    split
    · rename_i hb
      rw [hb.1, hb.2, hself]
    · exact hother t' b' ‹_›
  cases policy with
  | swapLastContinue =>
    obtain ⟨-, hself, hother⟩ := scanContinue_list g t b e (List.range 5) (fun _ => List.mem_range.mp) m false
    exact hscan hself hother
  | swapLastRestart =>
    obtain ⟨-, hself, hother⟩ := scanRestart_list g t b e 5 m false
    exact hscan hself hother
  | shiftDown => exact readBucket_removeShift m t b he t' b'

/-- `RemoveInBucket` answers true iff the bucket held a copy (R141). -/
theorem removeInBucket_found (policy : RemovePolicy) (he : e ≠ emptyEntry) :
    (removeInBucket policy g m t b e).2 = decide (0 < (readBucket g m t b).count e) := by
  have hl := length_readBucket g m t b
  have hcount : (readBucket g m t b).count e ≤ 5 := List.count_le_length.trans_eq hl
  cases policy with
  | swapLastContinue =>
    obtain ⟨hfound, -, -⟩ := scanContinue_list g t b e (List.range 5) (fun _ => List.mem_range.mp) m false
    refine hfound.trans (Bool.eq_iff_iff.mpr ?_)
    rw [continueIn_found, decide_eq_true_iff, List.count_pos_iff, mem_readBucket]
    simp only [Bool.false_eq_true, false_or, List.mem_range]
    exact exists_congr fun i => and_congr_right fun hi => by rw [readSlot_eq_getD g m t b hi]
  | swapLastRestart =>
    obtain ⟨hfound, -, -⟩ := scanRestart_list g t b e 5 m false
    exact hfound.trans ((restartIn_of_count_le hl he hcount).2.trans (Bool.false_or _))
  | shiftDown =>
    obtain ⟨hfound, -, -⟩ := scanShift_list g t b e he (2 * Config.nSlots) 0 m false (by decide) (Nat.add_le_add_left hcount 5)
    exact hfound

/-! ### The writes of a removal (R145, R146 (d)) -/

section
variable {C : Memory × Bool → Prop} (hwrite : ∀ u f i x, i < 5 → C (u, f) → C (writeSlot g u t b i x, true))
include hwrite

theorem swapLast_induction {u : Memory} {f : Bool} {i : Nat} (hi : i < 5) (h : C (u, f)) : C (swapLast g u t b i, true) :=
  hwrite _ _ lastSlot _ (by decide) (hwrite u f i _ hi h)

theorem shiftFrom_induction {u : Memory} {f : Bool} {i : Nat} (h : C (u, f)) : C (shiftFrom g u t b i, true) := by
  have hmoved : ∃ f, C ((List.range' i (lastSlot - i)).foldl (fun u j => writeSlot g u t b j (readSlot g u t b (j + 1))) u, f) := by
    refine List.foldlRecOn (motive := fun u => ∃ f, C (u, f)) _ _ ⟨f, h⟩ fun v ⟨f, hv⟩ j hj => ⟨true, hwrite v f j _ ?_ hv⟩
    have := List.mem_range'_1.mp hj
    simp only [lastSlot] at this
    omega
  obtain ⟨f, hmoved⟩ := hmoved
  exact hwrite _ f lastSlot _ (by decide) hmoved

theorem scanContinue_induction {is : List Nat} (his : ∀ i ∈ is, i < 5) {r : Memory × Bool} (h : C r) : C (scanContinue g t b e is r) := by
  induction is generalizing r with
  | nil => exact h
  | cons i rest ih =>
    rw [scanContinue]
    refine ih (fun j hj => his j (List.mem_cons_of_mem i hj)) ?_
    split
    · exact swapLast_induction hwrite (his i List.mem_cons_self) h
    · exact h

theorem scanRestart_induction (n : Nat) {r : Memory × Bool} (h : C r) : C (scanRestart g t b e n r) := by
  induction n generalizing r with
  | zero => exact h
  | succ n ih =>
    rw [scanRestart]
    split
    · exact h
    · rename_i i hfind
      exact ih (swapLast_induction hwrite (List.mem_range.mp (List.mem_of_find?_eq_some hfind)) h)

theorem scanShift_induction (n i : Nat) {r : Memory × Bool} (h : C r) : C (scanShift g t b e n i r) := by
  induction n generalizing i r with
  | zero => exact h
  | succ n ih =>
    rw [scanShift]
    split
    · exact h
    · split
      · exact ih i (shiftFrom_induction hwrite h)
      · exact ih (i + 1) h

/-- A removal is writes to slots of its bucket, and whenever it writes, it has found a copy. -/
theorem removeInBucket_induction (policy : RemovePolicy) (h : C (m, false)) : C (removeInBucket policy g m t b e) := by
  cases policy with
  | swapLastContinue =>
    rw [removeInBucket, removeContinue]
    exact scanContinue_induction hwrite (fun _ => List.mem_range.mp) h
  | swapLastRestart =>
    rw [removeInBucket, removeRestart]
    exact scanRestart_induction hwrite _ h
  | shiftDown =>
    rw [removeInBucket, removeShift]
    exact scanShift_induction hwrite _ _ h

end

theorem byteAt_removeInBucket (policy : RemovePolicy) {a : Nat} (ha : ∀ i < 5, ¬inSlot g t b i a) :
    (removeInBucket policy g m t b e).1.byteAt a = m.byteAt a :=
  removeInBucket_induction (C := fun r => r.1.byteAt a = m.byteAt a)
    (fun u _ i x hi h => (byteAt_writeSlot_outside g u t b i x a (ha i hi)).trans h) policy rfl

theorem removeInBucket_mem_of_not_found {policy : RemovePolicy} (h : (removeInBucket policy g m t b e).2 = false) :
    (removeInBucket policy g m t b e).1 = m :=
  removeInBucket_induction (C := fun r => r.2 = false → r.1 = m) (fun _ _ _ _ _ _ => nofun) policy (fun _ => rfl) h

end

/-! ### The two candidate buckets (R140, R146 (a)) -/

section
variable {g : Buffer} {m : Memory} {p : Assoc} {policy : RemovePolicy}

theorem byteAt_removeCore {a : Nat} (ha : ∀ t, ∀ i < 5, ¬inSlot g t (index t p.key) i a) :
    (removeCore policy g m p).1.byteAt a = m.byteAt a :=
  (byteAt_removeInBucket policy (ha .t2)).trans (byteAt_removeInBucket policy (ha .t1))

theorem removeCore_mem_of_not_found (h : (removeCore policy g m p).2 = false) : (removeCore policy g m p).1 = m := by
  obtain ⟨h1, h2⟩ := Bool.or_eq_false_iff.mp h
  exact (removeInBucket_mem_of_not_found h2).trans (removeInBucket_mem_of_not_found h1)

/-- The removals in the two tables do not meet. -/
theorem readBucket_removeCore (hp : p.val ≠ 0) (t : Table) :
    readBucket g (removeCore policy g m p).1 t (index t p.key) = bucketAfter policy (enc t p) (readBucket g m t (index t p.key)) := by
  have h1 := readBucket_removeInBucket (g := g) (m := m) (t := .t1) (b := index .t1 p.key) policy (enc_ne_emptyEntry .t1 hp)
  simp only [removeCore, readBucket_removeInBucket policy (enc_ne_emptyEntry .t2 hp), h1]
  cases t with
  | t1 => simp
  | t2 => simp

theorem removeCore_found (hp : p.val ≠ 0) : (removeCore policy g m p).2 = decide (0 < copies g m p) := by
  have hapart := readBucket_removeInBucket (g := g) (m := m) (t := .t1) (b := index .t1 p.key) policy (enc_ne_emptyEntry .t1 hp) .t2 (index .t2 p.key)
  rw [if_neg fun h => nomatch h.1] at hapart
  simp only [removeCore, removeInBucket_found policy (enc_ne_emptyEntry _ hp), hapart, copies_eq_add, Nat.add_pos_iff_pos_or_pos,
    Bool.decide_or]

/-- Under SWAP_LAST_CONTINUE a candidate slot holds a copy afterwards iff it held the first one, slot 4 held another, and it is not slot 4 (R142). -/
theorem readSlot_removeCore_continue (hp : p.val ≠ 0) (t : Table) {j : Nat} (hj : j < 5) :
    readSlot g (removeCore .swapLastContinue g m p).1 t (index t p.key) j = enc t p ↔
      readSlot g m t (index t p.key) 4 = enc t p ∧ j < 4 ∧ readSlot g m t (index t p.key) j = enc t p ∧
        ∀ k < j, readSlot g m t (index t p.key) k ≠ enc t p := by
  rw [readSlot_eq_getD _ _ _ _ hj, readBucket_removeCore hp, getD_bucketAfter_continue (length_readBucket _ _ _ _) (enc_ne_emptyEntry t hp),
    readSlot_eq_getD g m _ _ hj, readSlot_eq_getD g m _ _ (show 4 < 5 by decide)]
  refine and_congr_right fun _ => and_congr_right fun _ => and_congr_right fun _ => forall₂_congr fun k hk => ?_
  rw [readSlot_eq_getD g m _ _ (hk.trans hj)]

theorem copies_removeCore_eq_zero (hp : p.val ≠ 0)
    (h : policy ≠ .swapLastContinue ∨ ∀ t, (readBucket g m t (index t p.key)).count (enc t p) ≤ 1) :
    copies g (removeCore policy g m p).1 p = 0 := by
  have hgone (t : Table) : (readBucket g (removeCore policy g m p).1 t (index t p.key)).count (enc t p) = 0 := by
    rw [readBucket_removeCore hp, List.count_eq_zero]
    exact not_mem_bucketAfter (length_readBucket _ _ _ _) (enc_ne_emptyEntry t hp) (h.imp_right fun h => h t)
  rw [copies_eq_add, hgone, hgone]

end

/-! ### REMOVE past its checks (R140) -/

theorem operand_ne_zero_of_removeReady {s : State} {c : Nat} (h : removeReady s c) : s.operand.val ≠ 0 := by
  obtain ⟨-, -, hval⟩ := h
  exact State.operand_val_ne_zero (valueLegal_iff.mpr hval)

theorem execRemove_of_ready {s : State} {c : Nat} (h : removeReady s c) :
    exec (.remove c) s = .next { ended s (if copies (s.buffer c) s.mem s.operand = 0 then .notFound else .success) with
      mem := (removeCore s.params.removePolicy (s.buffer c) s.mem s.operand).1 } := by
  have hp := operand_ne_zero_of_removeReady h
  obtain ⟨hc, hv, hval⟩ := h
  simp only [exec, execRemove, if_neg (Nat.not_le.mpr hc), hv, valueLegal_iff.mpr hval, Bool.not_true, Bool.false_eq_true, if_false,
    removeCore_found hp, decide_eq_true_iff, Nat.pos_iff_ne_zero, ite_not]
  rfl

/-! ### The obligations -/

/-- Settles O28: both candidate buckets end as SHIFT_DOWN leaves a bucket, and the removals do not meet. -/
theorem shiftDownRemovesInOrder : Obligations.ShiftDownRemovesInOrder := by
  intro s c hready hpolicy
  refine ⟨_, execRemove_of_ready hready, rfl, fun t => ?_⟩
  rw [hpolicy]
  exact readBucket_removeCore (operand_ne_zero_of_removeReady hready) t

/-- Settles O29: each pass takes away one copy and no other live entry, and five passes are as many as a bucket has slots. -/
theorem restartRemovesEveryCopy : Obligations.RestartRemovesEveryCopy := by
  intro s c hready hpolicy
  have hp := operand_ne_zero_of_removeReady hready
  refine ⟨_, execRemove_of_ready hready, rfl, fun t => ?_⟩
  have hbucket := readBucket_removeCore (g := s.buffer c) (m := s.mem) (policy := s.params.removePolicy) hp t
  have hl := length_readBucket (s.buffer c) s.mem t (index t s.lkey)
  refine ⟨fun hmem => ?_, fun e hne hlive => ?_⟩
  · exact not_mem_bucketAfter hl (enc_ne_emptyEntry t hp) (.inl (by rw [hpolicy]; nofun)) (hbucket ▸ hmem)
  · exact (congrArg (List.count e) hbucket).trans (count_bucketAfter _ hl hne hlive)

/-- Settles O30: the scan copies slot 4 over the first copy and empties it, so from then on each copy it visits becomes Z. -/
theorem continueLeavesAtMostOneCopy : Obligations.ContinueLeavesAtMostOneCopy := by
  intro s c hready hpolicy
  have hp := operand_ne_zero_of_removeReady hready
  refine ⟨_, execRemove_of_ready hready, rfl, ?_⟩
  rw [hpolicy]
  intro t e was now
  have hleft : ∀ j < 5, now j = e ↔ was 4 = e ∧ j < 4 ∧ was j = e ∧ ∀ k < j, was k ≠ e := fun j =>
    readSlot_removeCore_continue hp t
  refine ⟨fun h4 j hj h => ?_, fun _ hnone j hj h => ?_, fun h4 i hi hit hfirst j hj => ?_, fun x hne hlive => ?_⟩
  · exact h4 ((hleft j hj).mp h).1
  · obtain ⟨-, hj4, hcopy, -⟩ := (hleft j hj).mp h
    exact hnone j hj4 hcopy
  · rw [hleft j hj]
    constructor
    · rintro ⟨-, -, hcopy, hbefore⟩
      exact Nat.le_antisymm (Nat.le_of_not_lt fun h => hbefore i h hit) (Nat.le_of_not_lt fun h => hfirst j h hcopy)
    · rintro rfl
      exact ⟨h4, hi, hit, hfirst⟩
  · exact (congrArg (List.count x) (readBucket_removeCore hp t)).trans (count_bucketAfter _ (length_readBucket _ _ _ _) hne hlive)

/-- Settles O31: a check that fails writes no memory, a removal writes slots of the two candidate buckets, and none when it finds nothing. -/
theorem removeFrame : Obligations.RemoveFrame := by
  intro s t c h
  rcases execRemove_cases h with ⟨-, rfl⟩ | ⟨-, -, rfl⟩ | ⟨-, -, rfl⟩ | ⟨-, -, rfl⟩
  iterate 3 exact ⟨rfl, fun _ _ => rfl, fun _ => rfl⟩
  refine ⟨rfl, fun a ha => byteAt_removeCore (p := s.operand) ha, fun hr => ?_⟩
  refine removeCore_mem_of_not_found (Bool.eq_false_iff.mpr fun hfound => hr ?_)
  exact if_pos hfound

/-- Settles O32: a removal leaves no copy of the operand in its candidate buckets, given the premise on duplicates. -/
theorem removedAssociationIsNotFound : Obligations.RemovedAssociationIsNotFound := by
  intro s t c hready h _ hdup
  rw [execRemove_of_ready hready] at h
  obtain rfl := Host.Outcome.next.inj h
  exact copies_removeCore_eq_zero (operand_ne_zero_of_removeReady hready) hdup

end Sys2Proof.Machine
end

section
/-! PROOFS. SPLIT's collection and its sort (R149 to R152, R160): the collection is `collected` in the order of the slots, and the sorted list is the
only ascending list of its pairs. -/

namespace Sys2Proof.Machine

open Sys2Proof.Claims

section
variable {s : State} {c : Nat} {g : Buffer} {m : Memory} {t : Table}

/-! ### The slots of a sub-table (R149, R151) -/

/-- The pair that a scan takes of a slot, if it takes one (R149, R151). -/
def scannedAt (scan : SplitScan) (g : Buffer) (m : Memory) (t : Table) (x : BucketIx × Nat) : Option Assoc :=
  if readSlot g m t x.1 x.2 = emptyEntry then none
  else if scan = .stopAtEmpty ∧ ∃ i < x.2, readSlot g m t x.1 i = emptyEntry then none
  else some (decodeSlot t x.1 (readSlot g m t x.1 x.2))

theorem slot_lt_of_mem_slotsOfTable {x : BucketIx × Nat} (h : x ∈ slotsOfTable) : x.2 < 5 := by
  unfold slotsOfTable at h
  obtain ⟨_, -, h⟩ := List.mem_flatMap.mp h
  obtain ⟨i, hi, rfl⟩ := List.mem_map.mp h
  exact List.mem_range.mp hi

/-- Stopping at the first empty entry, and taking the entries with no empty one before them, are the same. -/
theorem takeWhile_live_eq_filterMap (f : Nat → Entry) (d : Entry → Assoc) (n : Nat) :
    (((List.range n).map f).takeWhile fun e => !isEmpty e).map d =
      (List.range n).filterMap fun i =>
        if f i = emptyEntry then none else if ∃ j < i, f j = emptyEntry then none else some (d (f i)) := by
  induction n with
  | zero => rfl
  | succ n ih =>
    rw [List.range_succ, List.map_append, List.filterMap_append, ← ih, List.takeWhile_append]
    by_cases hgap : ∃ j < n, f j = emptyEntry
    · have hstops : ((List.range n).map f).takeWhile (fun e => !isEmpty e) ≠ (List.range n).map f := by
        obtain ⟨j, hj, hempty⟩ := hgap
        intro hall
        have hlive := List.takeWhile_eq_self_iff.mp hall (f j) (List.mem_map_of_mem (List.mem_range.mpr hj))
        simp [hempty] at hlive
      rw [if_neg fun hlen => hstops ((List.takeWhile_sublist _).eq_of_length hlen)]
      simp [hgap]
    · have hall : ((List.range n).map f).takeWhile (fun e => !isEmpty e) = (List.range n).map f :=
        List.takeWhile_eq_self_iff.mpr (by simpa using hgap)
      rw [hall, if_pos rfl]
      by_cases hn : f n = emptyEntry <;> simp [hn, hgap]

theorem filter_live_eq_filterMap (f : Nat → Entry) (d : Entry → Assoc) (l : List Nat) :
    ((l.map f).filter fun e => !isEmpty e).map d = l.filterMap fun i => if f i = emptyEntry then none else some (d (f i)) := by
  induction l with
  | nil => rfl
  | cons i rest ih => by_cases hi : f i = emptyEntry <;> simp [hi, ih]

theorem collectBucket_eq_filterMap (scan : SplitScan) (b : BucketIx) :
    collectBucket scan g m t b = (List.range 5).filterMap fun i => scannedAt scan g m t (b, i) := by
  cases scan with
  | stopAtEmpty =>
    refine (takeWhile_live_eq_filterMap (readSlot g m t b) (decodeSlot t b) 5).trans ?_
    simp [scannedAt]
  | allSlots =>
    refine (filter_live_eq_filterMap (readSlot g m t b) (decodeSlot t b) (List.range 5)).trans ?_
    simp [scannedAt]

theorem collectTable_eq_filterMap (scan : SplitScan) (g : Buffer) (m : Memory) (t : Table) :
    collectTable scan g m t = slotsOfTable.filterMap (scannedAt scan g m t) := by
  unfold slotsOfTable
  rw [collectTable, List.filterMap_flatMap]
  simp only [collectBucket_eq_filterMap, List.filterMap_map]
  rfl

/-! ### The collection (R149, R150) -/

theorem overflowOf_eq (x : Ctx) : overflowOf x = if x.mode = .full then [⟨x.ovfKey, x.ovfVal⟩] else [] := by
  cases h : x.mode <;> simp [overflowOf, h]

theorem length_overflowOf (x : Ctx) : (overflowOf x).length = if x.mode = .full then 1 else 0 := by
  rw [overflowOf_eq]; split <;> rfl

theorem flatMap_tables {α : Type} (f : Table → List α) : [Table.t1, Table.t2].flatMap f = f .t1 ++ f .t2 := by simp

theorem collect_eq_collected (s : State) (c : Nat) : collect s c = collected s c := by
  rw [collect, List.append_assoc, ← flatMap_tables (collectTable s.params.splitScan (s.buffer c) s.mem), overflowOf_eq,
    funext (collectTable_eq_filterMap s.params.splitScan (s.buffer c) s.mem)]
  rfl

theorem length_collectBucket_le (scan : SplitScan) (b : BucketIx) : (collectBucket scan g m t b).length ≤ 5 := by
  rw [collectBucket_eq_filterMap]
  exact (List.length_filterMap_le _ _).trans_eq List.length_range

theorem length_collectTable_le (scan : SplitScan) : (collectTable scan g m t).length ≤ 327680 := by
  rw [collectTable, List.length_flatMap]
  refine (List.sum_le_card_nsmul _ 5 fun n hn => ?_).trans_eq (by rw [List.length_map, List.length_range]; rfl)
  obtain ⟨b, -, rfl⟩ := List.mem_map.mp hn
  exact length_collectBucket_le scan _

/-- A scan that no empty slot stops takes every live slot: ALL_SLOTS, or left-packed buckets (R151, R159). -/
theorem scannedAt_eq_liveAssocAt {scan : SplitScan} (h : scan = .allSlots ∨ AllLeftPacked g m) {x : BucketIx × Nat} (hx : x.2 < 5) :
    scannedAt scan g m t x = liveAssocAt g m (t, x) := by
  unfold scannedAt liveAssocAt
  split
  · rfl
  · rename_i hlive
    refine if_neg ?_
    rintro ⟨hstop, i, hi, hempty⟩
    rcases h with hall | hpacked
    · exact absurd (hstop.symm.trans hall) nofun
    · exact hpacked t x.1 x.2 hx hlive i hi hempty

theorem length_collected (h : s.params.splitScan = .allSlots ∨ AllLeftPacked (s.buffer c) s.mem) :
    (collected s c).length = (liveAssocs (s.buffer c) s.mem).length + if (s.ctx c).mode = .full then 1 else 0 := by
  have htable (t : Table) : collectTable s.params.splitScan (s.buffer c) s.mem t =
      slotsOfTable.filterMap fun x => liveAssocAt (s.buffer c) s.mem (t, x) := by
    rw [collectTable_eq_filterMap]
    exact List.filterMap_congr fun x hx => scannedAt_eq_liveAssocAt h (slot_lt_of_mem_slotsOfTable hx)
  have hlive : [Table.t1, Table.t2].flatMap (collectTable s.params.splitScan (s.buffer c) s.mem) = liveAssocs (s.buffer c) s.mem := by
    rw [funext htable]
    rfl
  rw [← collect_eq_collected, collect, List.append_assoc, ← flatMap_tables (collectTable _ _ _), hlive, List.length_append,
    length_overflowOf, Nat.add_comm]

/-! ### The sort (R152) -/

theorem assocLe_iff_toNat {p q : Assoc} :
    assocLe p q ↔ p.key.toNat < q.key.toNat ∨ (p.key.toNat = q.key.toNat ∧ p.val.toNat ≤ q.val.toNat) := by
  rw [assocLe, BitVec.lt_def, ← BitVec.toNat_inj, BitVec.le_def]

theorem assocLe_refl (p : Assoc) : assocLe p p := .inr ⟨rfl, BitVec.le_refl _⟩

theorem assocLe_total : Std.Total assocLe :=
  ⟨fun p q => by simp only [assocLe_iff_toNat]; omega⟩

theorem assocLe_trans : IsTrans Assoc assocLe :=
  ⟨fun p q r => by simp only [assocLe_iff_toNat]; omega⟩

theorem assocLe_antisymm {p q : Assoc} (h : assocLe p q) (h' : assocLe q p) : p = q := by
  rw [assocLe_iff_toNat] at h h'
  have hkey : p.key = q.key := BitVec.eq_of_toNat_eq (by omega)
  have hval : p.val = q.val := BitVec.eq_of_toNat_eq (by omega)
  cases p
  cases q
  simp_all

theorem sortPairs_perm (l : List Assoc) : (sortPairs l).Perm l := List.perm_insertionSort _ _

theorem sortPairs_pairwise (l : List Assoc) : (sortPairs l).Pairwise assocLe := by
  have := assocLe_total
  have := assocLe_trans
  exact List.pairwise_insertionSort _ _

/-- The pairs of the collection in ascending order are the only such list (R152). -/
theorem sortPairs_collect_eq {l : List Assoc} (hperm : l.Perm (collected s c)) (hl : l.Pairwise assocLe) : sortPairs (collect s c) = l := by
  rw [collect_eq_collected]
  exact ((sortPairs_perm _).trans hperm.symm).eq_of_pairwise (fun _ _ _ _ => assocLe_antisymm) (sortPairs_pairwise _) hl

theorem sortPairs_collect_perm (s : State) (c : Nat) : (sortPairs (collect s c)).Perm (collected s c) := by
  rw [collect_eq_collected]
  exact sortPairs_perm _

end

/-! ### The obligations -/

/-- Settles O33: bucket by bucket the scan takes the same slots, even in the same order. -/
theorem collectionTakesWhatTheScanReads : Obligations.CollectionTakesWhatTheScanReads :=
  fun s c => .of_eq (collect_eq_collected s c)

/-- Settles O34: five pairs a bucket, 65536 buckets a table, two tables, and the overflow. -/
theorem collectionIsBounded : Obligations.CollectionIsBounded := by
  intro s c
  have hoverflow : (overflowOf (s.ctx c)).length ≤ 1 := by
    rw [length_overflowOf]; split <;> decide
  have h1 := length_collectTable_le (g := s.buffer c) (m := s.mem) (t := .t1) s.params.splitScan
  have h2 := length_collectTable_le (g := s.buffer c) (m := s.mem) (t := .t2) s.params.splitScan
  rw [collect, List.length_append, List.length_append]
  omega

end Sys2Proof.Machine
end

section
/-! PROOFS. The colliding keys of R161: an insertion among keys with the same low 32 bits has ten candidate slots, and its displacement goes back and
forth between two of them. -/

namespace Sys2Proof.Machine

open Sys2Proof.Claims

section
variable {g : Buffer} {m : Memory} {t : Table} {k : Nat} {p : Assoc}

/-- A pair of nonzero value whose key has the low half `k` (R161). -/
def Collides (k : Nat) (p : Assoc) : Prop := p.val ≠ 0 ∧ p.key.toNat % 2 ^ 32 = k

/-- The bucket, in either table, of the keys whose low half is `k` (R105). -/
def lowIndex (k : Nat) : Table → BucketIx
  | .t1 => BitVec.ofNat 16 k
  | .t2 => BitVec.ofNat 16 (k / 65536)

theorem index_eq_lowIndex (hk : p.key.toNat % 2 ^ 32 = k) : index t p.key = lowIndex k t := by
  apply BitVec.eq_of_toNat_eq
  cases t
  · rw [index_t1_toNat, lowIndex, BitVec.toNat_ofNat]; omega
  · rw [index_t2_toNat, lowIndex, BitVec.toNat_ofNat]; omega

/-! ### The ping-pong (R161) -/

/-- Slot 0 of both candidate buckets of `k` holds a colliding pair. -/
def HeadsCollide (g : Buffer) (m : Memory) (k : Nat) : Prop :=
  ∀ t, Collides k (decodeSlot t (lowIndex k t) (readSlot g m t (lowIndex k t) 0))

/-- A round puts one colliding pair in the place of another. -/
theorem HeadsCollide.writeSlot (h : HeadsCollide g m k) (hp : Collides k p) (t : Table) :
    HeadsCollide g (writeSlot g m t (index t p.key) 0 (enc t p)) k := by
  intro t'
  rw [readSlot_writeSlot g m _ (by decide) (by decide)]
  split
  · rename_i hslot
    obtain ⟨rfl, hbucket, -⟩ := hslot
    rw [hbucket, decodeSlot_enc]
    exact hp
  · exact h t'

/-- Each round carries a colliding pair on to a live slot of the other table, so none ends the displacement before the last (R129, R130). -/
theorem displace_full_of_headsCollide (h : HeadsCollide g m k) (n : Nat) (t : Table) (hp : Collides k p) :
    ∃ m' q, displace g n m t p = .full m' q := by
  induction n generalizing m t p with
  | zero => exact ⟨m, p, rfl⟩
  | succ n ih =>
    have hold := h t
    rw [← index_eq_lowIndex hp.2] at hold
    have hlive : ¬isEmpty (readSlot g m t (index t p.key) 0) = true := by
      rw [isEmpty_iff]
      exact ne_emptyEntry_of_val hold.1
    simp only [displace, if_neg hlive]
    exact ih (h.writeSlot hp t) (otherTable t) hold

/-! ### Ten candidate slots (R95, R105) -/

/-- The slots that can hold a key whose low half is `k`. -/
def candidateSlots (k : Nat) : List (Table × BucketIx × Nat) :=
  [Table.t1, Table.t2].flatMap fun t => (List.range 5).map fun i => (t, lowIndex k t, i)

theorem mem_candidateSlots {b : BucketIx} {i : Nat} {e : Entry} (hi : i < 5) (hk : (decodeSlot t b e).key.toNat % 2 ^ 32 = k) :
    (t, b, i) ∈ candidateSlots k := by
  have hb : b = lowIndex k t := (index_decodeSlot t b e).symm.trans (index_eq_lowIndex hk)
  have ht : t ∈ [Table.t1, Table.t2] := by cases t <;> simp
  exact List.mem_flatMap.mpr ⟨t, ht, List.mem_map.mpr ⟨i, List.mem_range.mpr hi, by rw [hb]⟩⟩

/-- A buffer holds at most ten associations whose keys have the same low half (R161). -/
theorem countP_liveAssocs_low_le (g : Buffer) (m : Memory) (k : Nat) :
    (liveAssocs g m).countP (fun p => p.key.toNat % 2 ^ 32 = k) ≤ 10 := by
  rw [liveAssocs_eq_filterMap, List.countP_filterMap, List.countP_eq_length_filter]
  refine (List.Nodup.subperm (nodup_allSlots.filter _) fun x hx => ?_).length_le (l₂ := candidateSlots k)
  obtain ⟨t, b, i⟩ := x
  obtain ⟨hslot, hlow⟩ := List.mem_filter.mp hx
  refine mem_candidateSlots (e := readSlot g m t b i) (mem_allSlots.mp hslot) ?_
  unfold liveAssocAt at hlow
  split at hlow
  · cases hlow
  · exact of_decide_eq_true hlow

end

/-! ### The obligation of INSERT -/

/-- Settles O25: both candidate buckets are full, and every round finds slot 0 of the next one live. -/
theorem eleventhCollidingKeyIsFull : Obligations.EleventhCollidingKeyIsFull := by
  intro s c hready hslots
  have ⟨hc, _, _, hval⟩ := hready
  have hp : Collides (s.lkey.toNat % 2 ^ 32) s.operand := ⟨State.operand_val_ne_zero (valueLegal_iff.mpr hval), rfl⟩
  have hfull (t : Table) : bucketFull (s.buffer c) s.mem t (index t s.operand.key) := fun i hi =>
    ne_emptyEntry_of_val (t := t) (b := index t s.lkey) (hslots t i hi).1
  have hheads : HeadsCollide (s.buffer c) s.mem (s.lkey.toNat % 2 ^ 32) := by
    intro t
    rw [← index_eq_lowIndex hp.2]
    exact hslots t 0 (by decide)
  obtain ⟨m, p, hm⟩ := displace_full_of_headsCollide hheads s.params.maxRounds .t1 hp
  have hexec := execInsert_of_ready hready
  rw [insertCore_of_bucketsFull (p := ⟨s.lkey, s.lval.setWidth 48⟩) _ (hfull .t1) (hfull .t2)] at hexec
  rw [State.operand] at hm
  rw [hm] at hexec
  exact ⟨_, hexec, rfl, congrArg Ctx.mode (insertEnd_full_ctx hc)⟩

end Sys2Proof.Machine
end

section
/-! PROOFS. The distribution (R148, R154) as two runs of insertions, one into each destination: where it stops, what a run adds to its buffer, and
when a run cannot fail or cannot succeed. -/

namespace Sys2Proof.Machine

open Sys2Proof.Claims

section
variable {g h ga gb : Buffer} {m m' : Memory} {t : Table} {p : Assoc} {l : List Assoc} {rounds mid i : Nat}

/-! ### A run of insertions into one buffer -/

/-- The pairs of a list inserted one after the other; `none` when an insertion returned FULL. -/
def insertAll (rounds : Nat) (g : Buffer) : List Assoc → Memory → Option Memory
  | [], m => some m
  | p :: rest, m =>
    match insertCore g rounds m p with
    | .success m' => insertAll rounds g rest m'
    | .full _ _ => none

theorem insertAll_cons_of_success (h : insertCore g rounds m p = .success m') :
    insertAll rounds g (p :: l) m = insertAll rounds g l m' := by
  simp only [insertAll, h]

theorem insertAll_cons_of_full {q : Assoc} (h : insertCore g rounds m p = .full m' q) : insertAll rounds g (p :: l) m = none := by
  simp only [insertAll, h]

/-- A run that completes began with an insertion that succeeded. -/
theorem insertAll_cons_eq_some {m'' : Memory} (h : insertAll rounds g (p :: l) m = some m'') :
    ∃ m', insertCore g rounds m p = .success m' ∧ insertAll rounds g l m' = some m'' := by
  cases hp : insertCore g rounds m p with
  | success m' => exact ⟨m', rfl, (insertAll_cons_of_success hp).symm.trans h⟩
  | full m' q => exact absurd ((insertAll_cons_of_full hp).symm.trans h) nofun

theorem insertAll_writes (h : insertAll rounds g l m = some m') : SlotWrites (· = g) m m' := by
  induction l generalizing m with
  | nil => cases h; exact .refl _
  | cons p rest ih =>
    obtain ⟨m1, hp, hrest⟩ := insertAll_cons_eq_some h
    have hw := insertCore_writes g rounds m p
    rw [hp] at hw
    exact hw.trans (ih hrest)

/-! ### The distribution is a run into each destination (R148, R154) -/

/-- The distribution by the outcomes of the two runs: the pairs below the median index, and the pairs from it on. -/
theorem distribute_cases :
    (insertAll rounds ga (l.take (mid - i)) m = none ∧ distribute rounds ga gb mid i l m = .destFull false) ∨
    ∃ m1, insertAll rounds ga (l.take (mid - i)) m = some m1 ∧
      ((insertAll rounds gb (l.drop (mid - i)) m1 = none ∧ distribute rounds ga gb mid i l m = .destFull true) ∨
        ∃ m2, insertAll rounds gb (l.drop (mid - i)) m1 = some m2 ∧ distribute rounds ga gb mid i l m = .done m2) := by
  induction l generalizing i m with
  | nil =>
    rw [List.take_nil, List.drop_nil]
    exact .inr ⟨m, rfl, .inr ⟨m, rfl, rfl⟩⟩
  | cons p rest ih =>
    by_cases hi : i < mid
    · obtain ⟨d, hd⟩ : ∃ d, mid - i = d + 1 := ⟨mid - (i + 1), by omega⟩
      have hd' : mid - (i + 1) = d := by omega
      have hrest := fun m => @ih m (i + 1)
      rw [hd, List.take_succ_cons, List.drop_succ_cons]
      simp only [hd'] at hrest
      simp only [distribute, if_pos hi]
      cases hp : insertCore ga rounds m p with
      | success m' =>
        rw [insertAll_cons_of_success hp]
        exact hrest m'
      | full m' q => exact .inl ⟨insertAll_cons_of_full hp, by simp [hi]⟩
    · have hd : mid - i = 0 := by omega
      have hrest := fun m => @ih m (i + 1)
      simp only [show mid - (i + 1) = 0 by omega, List.take_zero, List.drop_zero] at hrest
      rw [hd, List.take_zero, List.drop_zero]
      refine .inr ⟨m, rfl, ?_⟩
      simp only [distribute, if_neg hi]
      cases hp : insertCore gb rounds m p with
      | success m' =>
        rw [insertAll_cons_of_success hp]
        rcases hrest m' with ⟨hnone, -⟩ | ⟨m1, hm1, hcases⟩
        · cases hnone
        · cases hm1
          exact hcases
      | full m' q => exact .inl ⟨insertAll_cons_of_full hp, by simp; omega⟩

/-- A distribution that reports a full destination stops at the insertion that returned FULL (R158). -/
theorem distribute_eq_destFull {upper : Bool} (h : distribute rounds ga gb mid i l m = .destFull upper) :
    ∃ n p m', l[n]? = some p ∧ ((l.take n).zipIdx i).foldlM (insertPair rounds ga gb mid) m = some m' ∧
      insertPair rounds ga gb mid m' (p, i + n) = none ∧ upper = decide (mid ≤ i + n) := by
  induction l generalizing i m with
  | nil => cases h
  | cons p rest ih =>
    cases hp : insertCore (if i < mid then ga else gb) rounds m p with
    | success m' =>
      simp only [distribute, hp] at h
      obtain ⟨n, q, m'', hget, hfold, hfull, hupper⟩ := ih h
      have hfirst : insertPair rounds ga gb mid m (p, i) = some m' := by simp only [insertPair, hp]
      rw [Nat.add_right_comm] at hfull hupper
      refine ⟨n + 1, q, m'', hget, ?_, hfull, hupper⟩
      rw [List.take_succ_cons, List.zipIdx_cons, List.foldlM_cons, hfirst]
      exact hfold
    | full m' q =>
      simp only [distribute, hp, Distribution.destFull.injEq] at h
      exact ⟨0, p, m, rfl, rfl, by simp only [insertPair, Nat.add_zero, hp], h.symm⟩

/-! ### Buffers apart (R148) -/

theorem not_inBuffer_of_apart (hapart : ¬overlapping g h) {a : Nat} (ha : inBuffer g a) : ¬inBuffer h a := by
  rintro ⟨hlow, hhigh⟩
  obtain ⟨hlow', hhigh'⟩ := ha
  exact hapart ⟨by omega, by omega⟩

/-- Slot writes in one buffer leave every slot of a buffer apart from it. -/
theorem readSlot_of_writes_apart (hw : SlotWrites (· = h) m m') (hapart : ¬overlapping g h) (t : Table) (b : BucketIx) {i : Nat} (hi : i < 5) :
    readSlot g m' t b i = readSlot g m t b i :=
  readSlot_congr g t b i fun _ hlow hhigh => hw.byteAt_outside fun _ hh =>
    hh ▸ not_inBuffer_of_apart hapart (covers_slot g t b hi hlow hhigh)

theorem allEmpty_of_writes_apart (hempty : allEmpty g m) (hw : SlotWrites (· = h) m m') (hapart : ¬overlapping g h) : allEmpty g m' :=
  fun t b _ hi => (readSlot_of_writes_apart hw hapart t b hi).trans (hempty t b _ hi)

theorem liveAssocs_of_writes_apart (hw : SlotWrites (· = h) m m') (hapart : ¬overlapping g h) : liveAssocs g m' = liveAssocs g m := by
  rw [liveAssocs_eq_filterMap, liveAssocs_eq_filterMap]
  refine List.filterMap_congr fun ⟨t, b, i⟩ hx => ?_
  simp only [liveAssocAt, readSlot_of_writes_apart hw hapart t b (mem_allSlots.mp hx)]

/-! ### What a run adds to its buffer (R133, R159) -/

theorem noZeroValues_of_allEmpty (h : allEmpty g m) : noZeroValues g m := fun t b i hi hlive => absurd (h t b i hi) hlive

theorem liveAssocs_of_allEmpty (h : allEmpty g m) : liveAssocs g m = [] := by
  rw [liveAssocs_eq_filterMap]
  exact List.filterMap_eq_nil_iff.mpr fun ⟨t, b, i⟩ hx => if_pos (h t b i (mem_allSlots.mp hx))

theorem liveAssocs_insertAll_perm (hz : noZeroValues g m) (hl : ∀ p ∈ l, p.val ≠ 0) (h : insertAll rounds g l m = some m') :
    (liveAssocs g m').Perm (l ++ liveAssocs g m) := by
  induction l generalizing m with
  | nil => cases h; exact .of_eq (List.nil_append _).symm
  | cons p rest ih =>
    obtain ⟨m1, hp, hrest⟩ := insertAll_cons_eq_some h
    obtain ⟨hval, hvals⟩ := List.forall_mem_cons.mp hl
    have hz1 := (noZeroValues_insertCore hz rounds hval).1
    have hperm := liveAssocs_insertCore_perm hz rounds hval
    rw [hp, Insertion.memory] at hz1 hperm
    rw [Insertion.leftOver, Option.toList_none, List.nil_append] at hperm
    exact (ih hz1 hvals hrest).trans ((hperm.append_left rest).trans List.perm_middle)

/-- Eleven colliding pairs are too many for one buffer (R161). -/
theorem insertAll_eq_none_of_colliding (hz : noZeroValues g m) (hl : ∀ p ∈ l, p.val ≠ 0) {k : Nat}
    (hk : 11 ≤ l.countP fun p => p.key.toNat % 2 ^ 32 = k) : insertAll rounds g l m = none := by
  refine Option.eq_none_iff_forall_not_mem.mpr fun m' hm' => ?_
  have hcount := (liveAssocs_insertAll_perm hz hl hm').countP_eq fun p => decide (p.key.toNat % 2 ^ 32 = k)
  have hten := countP_liveAssocs_low_le g m' k
  rw [List.countP_append] at hcount
  omega

/-! ### A run of direct placements (R127) -/

/-- How many slots of a bucket are live. -/
def liveCount (g : Buffer) (m : Memory) (t : Table) (b : BucketIx) : Nat := (readBucket g m t b).countP fun e => !isEmpty e

theorem liveCount_of_allEmpty (h : allEmpty g m) (b : BucketIx) : liveCount g m t b = 0 := by
  rw [liveCount, readBucket_of_empty (h t b)]
  rfl

theorem liveCount_of_bucketFull {b : BucketIx} (h : bucketFull g m t b) : liveCount g m t b = 5 := by
  rw [← length_readBucket g m t b]
  refine List.countP_eq_length.mpr fun e he => ?_
  obtain ⟨i, hi, rfl⟩ := mem_readBucket.mp he
  simpa [liveSlot] using h i hi

/-- A slot write makes at most one more slot live, and only in its own bucket. -/
theorem liveCount_writeSlot_le {b b' : BucketIx} (hi : i < 5) (e : Entry) :
    liveCount g (writeSlot g m t b i e) t b' ≤ liveCount g m t b' + if b = b' then 1 else 0 := by
  rw [liveCount, readBucket_writeSlot g m e hi]
  by_cases hb : b = b'
  · subst hb
    have hlen : i < (readBucket g m t b).length := by rw [length_readBucket]; exact hi
    rw [if_pos ⟨rfl, rfl⟩, if_pos rfl, List.countP_set hlen, liveCount]
    split <;> split <;> omega
  · rw [if_neg fun h => hb h.2.symm, if_neg hb, liveCount]
    omega

/-- A bucket of table 1 with fewer than five live slots takes the pair. -/
theorem insertCore_of_liveCount_lt (rounds : Nat) (h : liveCount g m .t1 (index .t1 p.key) < 5) :
    ∃ m', insertCore g rounds m p = .success m' ∧
      ∀ b, liveCount g m' .t1 b ≤ liveCount g m .t1 b + if index .t1 p.key = b then 1 else 0 := by
  cases hfree : freeSlot g m .t1 (index .t1 p.key) with
  | none =>
    have := liveCount_of_bucketFull (freeSlot_eq_none_iff.mp hfree)
    omega
  | some i =>
    exact ⟨_, insertCore_of_placeIn (t := .t1) rounds nofun (placeIn_of_freeSlot hfree), fun b => liveCount_writeSlot_le (freeSlot_lt hfree) _⟩

/-- A run completes when no bucket of table 1 is to hold more than five pairs. -/
theorem insertAll_of_liveCount_le (rounds : Nat) (h : ∀ b, liveCount g m .t1 b + l.countP (fun p => index .t1 p.key = b) ≤ 5) :
    ∃ m', insertAll rounds g l m = some m' := by
  induction l generalizing m with
  | nil => exact ⟨m, rfl⟩
  | cons p rest ih =>
    simp only [List.countP_cons, decide_eq_true_eq] at h
    have hfree : liveCount g m .t1 (index .t1 p.key) < 5 := by
      have := h (index .t1 p.key)
      rw [if_pos rfl] at this
      omega
    obtain ⟨m', hp, hcount⟩ := insertCore_of_liveCount_lt rounds hfree
    rw [insertAll_cons_of_success hp]
    refine ih fun b => ?_
    have := h b
    have := hcount b
    omega

/-- Five pairs for each bucket of table 1 fit an empty buffer. -/
theorem insertAll_of_allEmpty (rounds : Nat) (hempty : allEmpty g m) (h : ∀ b, l.countP (fun p => index .t1 p.key = b) ≤ 5) :
    ∃ m', insertAll rounds g l m = some m' :=
  insertAll_of_liveCount_le rounds fun b => by rw [liveCount_of_allEmpty hempty, Nat.zero_add]; exact h b

end

end Sys2Proof.Machine
end

section
/-! PROOFS. SPLIT (R148 to R161): its end past the checks by what the distribution answers, its frame, and the two halves in the destinations. -/

namespace Sys2Proof.Machine

open Sys2Proof.Claims

section
variable {s t : State} {c ca cb : Nat} {m : Memory} {l : List Assoc}

/-! ### SPLIT past its checks (R148) -/

theorem splitChecks_of_ready (h : splitReady s c ca cb) : SplitChecks s c ca cb := by
  obtain ⟨hlt, hne, hvalid, hmode, hapart⟩ := h
  simp only [← overlap_eq_false_iff] at hapart
  exact ⟨hlt, hne, hvalid, hmode, hapart⟩

theorem execSplit_of_ready (h : splitReady s c ca cb) : exec (.split c ca cb) s = .next (splitCore c ca cb s) :=
  execSplit_of_checks (splitChecks_of_ready h)

theorem eq_splitCore_of_ready (hready : splitReady s c ca cb) (h : exec (.split c ca cb) s = .next t) : t = splitCore c ca cb s :=
  Host.Outcome.next.inj (h.symm.trans (execSplit_of_ready hready))

/-- The distribution of an ascending list by SPLIT (R154). -/
def splitDistribution (s : State) (ca cb : Nat) (l : List Assoc) : Distribution :=
  distribute s.params.maxRounds (s.buffer ca) (s.buffer cb) (l.length / 2) 0 l s.mem

/-- What SPLIT leaves when both halves are distributed (R153, R155). -/
def splitDone (s : State) (m : Memory) (p : Assoc) : State := ((s.setMem m).setDivider p).finish .success

/-- What SPLIT leaves when a destination is overfilled (R158). -/
def splitDestFull (s : State) (ca cb : Nat) (upper : Bool) : State := (s.unspecify [ca, cb]).raise .splitDestFull (if upper then 1 else 0)

theorem splitCore_of_done (hl : sortPairs (collect s c) = l) (hne : l ≠ []) (h : splitDistribution s ca cb l = .done m) :
    ∃ p, l[l.length / 2]? = some p ∧ splitCore c ca cb s = splitDone s m p := by
  subst hl
  rcases splitCore_cases c ca cb s with ⟨hnil, -⟩ | ⟨upper, hd, -⟩ | ⟨m', p, -, hget, hd, e⟩
  · exact absurd hnil hne
  · exact absurd (h.symm.trans hd) nofun
  · obtain rfl := Distribution.done.inj (h.symm.trans hd)
    exact ⟨p, hget, e⟩

theorem splitCore_of_destFull {upper : Bool} (hl : sortPairs (collect s c) = l) (h : splitDistribution s ca cb l = .destFull upper) :
    splitCore c ca cb s = splitDestFull s ca cb upper := by
  subst hl
  rcases splitCore_cases c ca cb s with ⟨hnil, -⟩ | ⟨upper', hd, e⟩ | ⟨m', p, -, -, hd, -⟩
  · rw [hnil] at h
    exact absurd h nofun
  · obtain rfl := Distribution.destFull.inj (h.symm.trans hd)
    exact e
  · exact absurd (h.symm.trans hd) nofun

/-- A SPLIT that ends with SUCCESS has distributed the ascending collection. -/
theorem split_success (hready : splitReady s c ca cb) (h : exec (.split c ca cb) s = .next t) (hr : t.result = .success) :
    ∃ l m p, l.Perm (collected s c) ∧ l.Pairwise assocLe ∧ l[l.length / 2]? = some p ∧ splitDistribution s ca cb l = .done m ∧
      t = splitDone s m p := by
  obtain rfl := eq_splitCore_of_ready hready h
  rcases splitCore_cases c ca cb s with ⟨-, e⟩ | ⟨upper, -, e⟩ | ⟨m, p, -, hget, hd, e⟩
  · rw [e] at hr
    cases hr
  · rw [e] at hr
    cases hr
  · exact ⟨_, m, p, sortPairs_collect_perm s c, sortPairs_pairwise _, hget, hd, e⟩

/-- A SPLIT that reports E_SPLIT_DEST_FULL has stopped in the distribution of the ascending collection. -/
theorem split_destFull (hready : splitReady s c ca cb) (h : exec (.split c ca cb) s = .next t) (hcode : t.errCode = .splitDestFull) :
    ∃ l upper, l.Perm (collected s c) ∧ l.Pairwise assocLe ∧ splitDistribution s ca cb l = .destFull upper ∧
      t = splitDestFull s ca cb upper := by
  obtain rfl := eq_splitCore_of_ready hready h
  rcases splitCore_cases c ca cb s with ⟨-, e⟩ | ⟨upper, hd, e⟩ | ⟨m, p, -, -, -, e⟩
  · rw [e] at hcode
    cases hcode
  · exact ⟨_, upper, sortPairs_collect_perm s c, sortPairs_pairwise _, hd, e⟩
  · rw [e] at hcode
    cases hcode

/-! ### The frame (R156, R158) -/

/-- Unspecifying buffers keeps every byte outside them. -/
theorem byteAt_unspecifyBuffers_outside {cs : List Nat} {a : Nat} (h : ∀ d ∈ cs, ¬inBuffer (s.buffer d) a) :
    (s.unspecifyBuffers cs).mem.byteAt a = s.mem.byteAt a :=
  State.byteAt_unspecifyBuffers fun d hd _ => .inl (h d hd)

theorem splitDestFull_eq (s : State) (ca cb : Nat) (upper : Bool) :
    splitDestFull s ca cb upper =
      { faulted s .splitDestFull (if upper then 1 else 0) with
        ctxs := (s.unspecify [ca, cb]).ctxs, mem := (s.unspecifyBuffers [ca, cb]).mem, draws := s.draws + 1 } := by
  rw [splitDestFull, State.unspecify_eq, State.unspecify_mem]
  rfl

theorem splitDestFull_ctx {d : Nat} (upper : Bool) (ha : d ≠ ca) (hb : d ≠ cb) : (splitDestFull s ca cb upper).ctx d = s.ctx d :=
  s.ctx_unspecify (by simp [ha, hb])

theorem splitDestFull_byteAt {a : Nat} (upper : Bool) (ha : ¬inBuffer (s.buffer ca) a) (hb : ¬inBuffer (s.buffer cb) a) :
    (splitDestFull s ca cb upper).mem.byteAt a = s.mem.byteAt a := by
  rw [splitDestFull_eq]
  exact byteAt_unspecifyBuffers_outside (by simp [ha, hb])

/-- The distribution keeps every byte outside the destinations. -/
theorem byteAt_of_splitDistribution (h : splitDistribution s ca cb l = .done m) {a : Nat} (ha : ¬inBuffer (s.buffer ca) a)
    (hb : ¬inBuffer (s.buffer cb) a) : m.byteAt a = s.mem.byteAt a := by
  refine (distribute_writes h).byteAt_outside fun g hg => ?_
  rcases hg with rfl | rfl
  · exact ha
  · exact hb

/-- The ends of SPLIT (R148): a fault or a rejection that touches nothing, the fault that leaves the destinations unspecified, or SUCCESS. -/
theorem split_ends (h : exec (.split c ca cb) s = .next t) :
    (∃ code info, t = s.raise code info ∧ code ≠ .splitDestFull) ∨ t = s.reject .splitEmpty ∨
    (SplitChecks s c ca cb ∧
      ((∃ upper, t = splitDestFull s ca cb upper) ∨ ∃ l m p, splitDistribution s ca cb l = .done m ∧ t = splitDone s m p)) := by
  rcases execSplit_cases h with ⟨-, e⟩ | ⟨-, e⟩ | ⟨-, e⟩ | ⟨-, e⟩ | ⟨-, e⟩ | ⟨hchecks, rfl⟩
  iterate 5 exact .inl ⟨_, _, e, nofun⟩
  rcases splitCore_cases c ca cb s with ⟨-, e⟩ | ⟨upper, -, e⟩ | ⟨m, p, -, -, hd, e⟩
  · exact .inr (.inl e)
  · exact .inr (.inr ⟨hchecks, .inl ⟨upper, e⟩⟩)
  · exact .inr (.inr ⟨hchecks, .inr ⟨_, m, p, hd, e⟩⟩)

/-! ### The two halves (R154, R159, R161) -/

/-- The pairs go into CA up to the median index and into CB from it on, one run after the other. -/
theorem splitDistribution_cases (s : State) (ca cb : Nat) (l : List Assoc) :
    (insertAll s.params.maxRounds (s.buffer ca) (l.take (l.length / 2)) s.mem = none ∧ splitDistribution s ca cb l = .destFull false) ∨
    ∃ m1, insertAll s.params.maxRounds (s.buffer ca) (l.take (l.length / 2)) s.mem = some m1 ∧
      ((insertAll s.params.maxRounds (s.buffer cb) (l.drop (l.length / 2)) m1 = none ∧ splitDistribution s ca cb l = .destFull true) ∨
        ∃ m2, insertAll s.params.maxRounds (s.buffer cb) (l.drop (l.length / 2)) m1 = some m2 ∧
          splitDistribution s ca cb l = .done m2) :=
  distribute_cases (i := 0)

/-- The lower half's run leaves CB as it was. -/
theorem allEmpty_upper_of_lower_run {m1 : Memory} {rounds : Nat} (hready : splitReady s c ca cb) (heb : allEmpty (s.buffer cb) s.mem)
    (h : insertAll rounds (s.buffer ca) l s.mem = some m1) : allEmpty (s.buffer cb) m1 := by
  obtain ⟨-, -, -, -, -, -, hapart⟩ := hready
  exact allEmpty_of_writes_apart heb (insertAll_writes h) fun hba => hapart (And.symm hba)

/-- Both halves of a completed distribution into empty destinations end in their destination. -/
theorem liveAssocs_of_splitDistribution (hready : splitReady s c ca cb) (hea : allEmpty (s.buffer ca) s.mem)
    (heb : allEmpty (s.buffer cb) s.mem) (hval : ∀ p ∈ l, p.val ≠ 0) (h : splitDistribution s ca cb l = .done m) :
    (liveAssocs (s.buffer ca) m).Perm (l.take (l.length / 2)) ∧ (liveAssocs (s.buffer cb) m).Perm (l.drop (l.length / 2)) := by
  have ⟨_, _, _, _, _, _, hapart⟩ := hready
  rcases splitDistribution_cases s ca cb l with ⟨-, hd⟩ | ⟨m1, hlow, ⟨-, hd⟩ | ⟨m2, hhigh, hd⟩⟩
  · exact absurd (h.symm.trans hd) nofun
  · exact absurd (h.symm.trans hd) nofun
  obtain rfl := Distribution.done.inj (h.symm.trans hd)
  have heb' := allEmpty_upper_of_lower_run hready heb hlow
  have hca := liveAssocs_insertAll_perm (noZeroValues_of_allEmpty hea) (fun p hp => hval p (List.mem_of_mem_take hp)) hlow
  have hcb := liveAssocs_insertAll_perm (noZeroValues_of_allEmpty heb') (fun p hp => hval p (List.mem_of_mem_drop hp)) hhigh
  rw [liveAssocs_of_allEmpty hea, List.append_nil] at hca
  rw [liveAssocs_of_allEmpty heb', List.append_nil] at hcb
  rw [liveAssocs_of_writes_apart (insertAll_writes hhigh) hapart]
  exact ⟨hca, hcb⟩

end

section
variable {l : List Assoc} {n : Nat} {p q : Assoc}

/-! ### The divider in the ascending list (R153, R159) -/

theorem drop_eq_cons_of_getElem? (hget : l[n]? = some p) : l.drop n = p :: l.drop (n + 1) := by
  obtain ⟨hn, rfl⟩ := List.getElem?_eq_some_iff.mp hget
  exact List.drop_eq_getElem_cons hn

theorem assocLe_of_mem_take (hl : l.Pairwise assocLe) (hget : l[n]? = some p) (hq : q ∈ l.take n) : assocLe q p := by
  rw [← List.take_append_drop n l, drop_eq_cons_of_getElem? hget] at hl
  exact (List.pairwise_append.mp hl).2.2 q hq p (List.mem_cons_self ..)

theorem assocLe_of_mem_drop (hl : l.Pairwise assocLe) (hget : l[n]? = some p) (hq : q ∈ l.drop n) : assocLe p q := by
  rw [← List.take_append_drop n l, drop_eq_cons_of_getElem? hget] at hl
  rw [drop_eq_cons_of_getElem? hget] at hq
  rcases List.mem_cons.mp hq with rfl | hq
  · exact assocLe_refl q
  · exact (List.pairwise_cons.mp (List.pairwise_append.mp hl).2.1).1 q hq

theorem two_le_count_of_mem_take (hget : l[n]? = some p) (hp : p ∈ l.take n) : 2 ≤ l.count p := by
  have hlow := List.count_pos_iff.mpr hp
  rw [← List.take_append_drop n l, drop_eq_cons_of_getElem? hget, List.count_append, List.count_cons_self]
  omega

end

/-! ### The obligations -/

/-- Settles O35: the collection is empty up to order, so its sort is empty too. -/
theorem splitOfNothingIsRejected : Obligations.SplitOfNothingIsRejected := by
  intro s c ca cb hready hnone
  have hsort : sortPairs (collect s c) = [] := sortPairs_collect_eq (hnone ▸ .refl _) .nil
  rw [execSplit_of_ready hready, splitCore, hsort]
  rfl

/-- Settles O36: the list is the sorted collection, and the divider its pair at the median index. -/
theorem splitDividesAtTheMedian : Obligations.SplitDividesAtTheMedian := by
  intro s t c ca cb hready h hr
  obtain ⟨l, m, p, hperm, hsorted, hget, -, rfl⟩ := split_success hready h hr
  exact ⟨l, hperm, hsorted.imp assocLe_iff_toNat.mp, hget, rfl⟩

/-- Settles O37: each run of insertions leaves its half in its destination, and the divider is the first pair of the upper half. -/
theorem splitDistributesTheHalves : Obligations.SplitDistributesTheHalves := by
  intro s t c ca cb hready hea heb hval h hr
  obtain ⟨l, m, p, hperm, hsorted, hget, hd, rfl⟩ := split_success hready h hr
  obtain ⟨hca, hcb⟩ := liveAssocs_of_splitDistribution hready hea heb (fun q hq => hval q (hperm.mem_iff.mp hq)) hd
  obtain ⟨-, -, -, ⟨hmodea, hmodeb⟩, -⟩ := hready
  refine ⟨⟨l, hperm, hsorted, hget, hca, hcb, fun hmem => two_le_count_of_mem_take hget (hca.mem_iff.mp hmem)⟩,
    fun q hq => assocLe_of_mem_take hsorted hget (hca.mem_iff.mp hq), fun q hq => assocLe_of_mem_drop hsorted hget (hcb.mem_iff.mp hq),
    ?_, hmodea, hmodeb, length_collected⟩
  calc (liveAssocs (s.buffer ca) m).length + (liveAssocs (s.buffer cb) m).length
      = (l.take (l.length / 2)).length + (l.drop (l.length / 2)).length := by rw [hca.length_eq, hcb.length_eq]
    _ = l.length := by rw [← List.length_append, List.take_append_drop]
    _ = (collected s c).length := hperm.length_eq

/-- Settles O38: no bucket of table 1 is to hold more than five pairs of a half, so neither run of insertions fails. -/
theorem splitCompletesOnEmptyDestinations : Obligations.SplitCompletesOnEmptyDestinations := by
  intro s c ca cb l hready hea heb hperm hsorted hne hlow hhigh
  have hexec := execSplit_of_ready hready
  rcases splitDistribution_cases s ca cb l with ⟨hnone, -⟩ | ⟨m1, hm1, ⟨hnone, -⟩ | ⟨m2, -, hd⟩⟩
  · obtain ⟨m1, hm1⟩ := insertAll_of_allEmpty s.params.maxRounds hea hlow
    exact absurd (hnone.symm.trans hm1) nofun
  · have heb' := allEmpty_upper_of_lower_run hready heb hm1
    obtain ⟨m2, hm2⟩ := insertAll_of_allEmpty s.params.maxRounds heb' hhigh
    exact absurd (hnone.symm.trans hm2) nofun
  · obtain ⟨p, hget, e⟩ := splitCore_of_done (sortPairs_collect_eq hperm hsorted) hne hd
    exact ⟨_, p, hexec.trans (congrArg _ e), hget, rfl⟩

/-- Settles O39: the distribution stopped at the insertion that returned FULL, and the fault frees the two destinations alone. -/
theorem splitDestinationFullFaults : Obligations.SplitDestinationFullFaults := by
  intro s t c ca cb hready h hcode
  obtain ⟨l, upper, hperm, hsorted, hd, rfl⟩ := split_destFull hready h hcode
  obtain ⟨n, p, m, hget, hfold, hfull, hupper⟩ := distribute_eq_destFull hd
  rw [Nat.zero_add] at hfull hupper
  refine ⟨?_, ⟨l, n, p, m, hperm, hsorted, hget, hfold, hfull, ?_⟩, s.nctx_unspecify [ca, cb], fun d ha hb => splitDestFull_ctx upper ha hb,
    fun a ha hb => splitDestFull_byteAt upper ha hb⟩
  · rw [splitDestFull_eq]
    rfl
  · rw [splitDestFull_eq, hupper]
    by_cases hn : n < l.length / 2
    · simp [faulted, hn, Nat.not_le.mpr hn]
    · simp [faulted, hn, Nat.not_lt.mp hn]

/-- Settles O40: the run of insertions that has eleven colliding pairs fails, the upper one only after the lower one has completed. -/
theorem elevenCollidingPairsOverfillADestination : Obligations.ElevenCollidingPairsOverfillADestination := by
  intro s c ca cb l k hready hea hperm hsorted hval
  have hexec := execSplit_of_ready hready
  have hsort := sortPairs_collect_eq hperm hsorted
  have hend {upper : Bool} (hd : splitDistribution s ca cb l = .destFull upper) :
      exec (.split c ca cb) s = .next (splitDestFull s ca cb upper) := hexec.trans (congrArg _ (splitCore_of_destFull hsort hd))
  constructor
  · intro hk
    have hnone := insertAll_eq_none_of_colliding (rounds := s.params.maxRounds) (noZeroValues_of_allEmpty hea)
      (fun p hp => hval p (List.mem_of_mem_take hp)) hk
    rcases splitDistribution_cases s ca cb l with ⟨-, hd⟩ | ⟨m1, hm1, -⟩
    · exact ⟨_, hend hd, rfl, rfl, rfl⟩
    · exact absurd (hnone.symm.trans hm1) nofun
  · intro hk heb hlow
    obtain ⟨m1, hm1⟩ := insertAll_of_allEmpty s.params.maxRounds hea hlow
    have heb' := allEmpty_upper_of_lower_run hready heb hm1
    have hnone := insertAll_eq_none_of_colliding (rounds := s.params.maxRounds) (noZeroValues_of_allEmpty heb')
      (fun p hp => hval p (List.mem_of_mem_drop hp)) hk
    rcases splitDistribution_cases s ca cb l with ⟨hfail, -⟩ | ⟨m1', hm1', ⟨-, hd⟩ | ⟨m2, hm2, -⟩⟩
    · exact absurd (hfail.symm.trans hm1) nofun
    · exact ⟨_, hend hd, rfl, rfl, rfl⟩
    · obtain rfl := Option.some.inj (hm1.symm.trans hm1')
      exact absurd (hnone.symm.trans hm2) nofun

/-- Settles O42: end by end. -/
theorem splitFrame : Obligations.SplitFrame := by
  intro s t c ca cb h
  rcases split_ends h with ⟨code, info, rfl, hcode⟩ | rfl | ⟨-, ⟨upper, rfl⟩ | ⟨l, m, p, hd, rfl⟩⟩
  · exact ⟨rfl, fun _ => ⟨rfl, rfl⟩, fun _ => ⟨rfl, rfl⟩, fun _ _ => rfl, fun _ _ _ => rfl⟩
  · exact ⟨rfl, fun _ => ⟨rfl, rfl⟩, fun _ => ⟨rfl, rfl⟩, fun _ _ => rfl, fun _ _ _ => rfl⟩
  · have hdiv : (splitDestFull s ca cb upper).divKey = s.divKey ∧ (splitDestFull s ca cb upper).divVal = s.divVal := by
      rw [splitDestFull_eq]
      exact ⟨rfl, rfl⟩
    refine ⟨?_, fun _ => hdiv, fun hcode => absurd rfl hcode, fun _ hcode => absurd rfl hcode, fun a ha hb => splitDestFull_byteAt upper ha hb⟩
    rw [splitDestFull_eq]
    rfl
  · exact ⟨rfl, fun hr => absurd rfl hr, fun _ => ⟨rfl, rfl⟩, fun hr => absurd rfl hr, fun a ha hb => byteAt_of_splitDistribution hd ha hb⟩

/-- Settles O41: only the destinations are written, and past the checks the source is not one of them and does not overlap them. -/
theorem splitLeavesTheSourceUnmodified : Obligations.SplitLeavesTheSourceUnmodified := by
  intro s t c ca cb h
  obtain ⟨-, -, -, -, hkeep⟩ := splitFrame s t c ca cb h
  rcases split_ends h with ⟨code, info, rfl, -⟩ | rfl | ⟨hchecks, hend⟩
  · exact ⟨rfl, fun _ _ _ => rfl⟩
  · exact ⟨rfl, fun _ _ _ => rfl⟩
  obtain ⟨hca, hcb, -⟩ := hchecks.ne
  obtain ⟨hapa, hapb, -⟩ := hchecks.apart
  rw [overlap_eq_false_iff] at hapa hapb
  refine ⟨?_, fun _ a ha => hkeep a (not_inBuffer_of_apart hapa ha) (not_inBuffer_of_apart hapb ha)⟩
  rcases hend with ⟨upper, rfl⟩ | ⟨l, m, p, -, rfl⟩
  · exact splitDestFull_ctx upper hca hcb
  · rfl

end Sys2Proof.Machine
end

section
/-! PROOFS. The priority of the checks (R167, R168): each command ends by the first of its rows of the priority table that fails, or goes on past
all of them. -/

namespace Sys2Proof.Machine

open Sys2Proof.Claims

section
variable {s t : State}

/-- What a command leaves whose checks pass: no fault, and no code but E_SPLIT_EMPTY (R162, R164), or E_SPLIT_DEST_FULL (R158). -/
def EndsPastChecks (s t : State) : Prop :=
  (t.fault = s.fault ∧ (t.errCode = .none ∨ t.errCode = .splitEmpty)) ∨ ∃ u info, t = State.raise u .splitDestFull info

/-- `t` is what a command leaves from `s` that makes the checks `rows` in order: the fault of the first failing one, or an end past the checks. -/
def EndsByChecks (s t : State) : List (Prop × ErrCode × BitVec 8) → Prop
  | [] => EndsPastChecks s t
  | row :: rows => (row.1 ∧ t = faulted s row.2.1 row.2.2) ∨ (¬row.1 ∧ EndsByChecks s t rows)

variable {rows : List (Prop × ErrCode × BitVec 8)}

/-! ### What a list of checks says of the end (R167) -/

theorem EndsByChecks.eq_faulted (h : EndsByChecks s t rows) {n : Nat} {row : Prop × ErrCode × BitVec 8} (hget : rows[n]? = some row)
    (hfails : row.1) (hfirst : ∀ k < n, ∀ r : Prop × ErrCode × BitVec 8, rows[k]? = some r → ¬r.1) : t = faulted s row.2.1 row.2.2 := by
  induction rows generalizing n with
  | nil => cases hget
  | cons r rows ih =>
    cases n with
    | zero =>
      obtain rfl := Option.some.inj hget
      exact h.elim And.right fun hpass => absurd hfails hpass.1
    | succ n =>
      have hpass : ¬r.1 := hfirst 0 n.succ_pos r rfl
      have hrest := (h.resolve_left fun hfail => hpass hfail.1).2
      exact ih hrest hget fun k hk => hfirst (k + 1) (Nat.succ_lt_succ hk)

theorem EndsByChecks.faulted_or_past (h : EndsByChecks s t rows) :
    (∃ row ∈ rows, row.1 ∧ t = faulted s row.2.1 row.2.2) ∨ EndsPastChecks s t := by
  induction rows with
  | nil => exact .inr h
  | cons r rows ih =>
    rcases h with hfail | ⟨-, hrest⟩
    · exact .inl ⟨r, List.mem_cons_self .., hfail⟩
    · exact (ih hrest).imp (fun ⟨row, hrow, hfail⟩ => ⟨row, List.mem_cons_of_mem _ hrow, hfail⟩) id

/-! ### The checks of a meaning, one by one -/

variable {p q : Prop} {code : ErrCode} {info : BitVec 8}

/-- A row that is another command's is passed over. -/
theorem EndsByChecks.skip (hq : ¬q) (h : EndsByChecks s t rows) : EndsByChecks s t ((q, code, info) :: rows) := .inr ⟨hq, h⟩

/-- So are all the rows that are left when none of them fails. -/
theorem EndsByChecks.past (hrows : ∀ row ∈ rows, ¬row.1) (h : EndsPastChecks s t) : EndsByChecks s t rows := by
  induction rows with
  | nil => exact h
  | cons r rows ih =>
    obtain ⟨hr, hrest⟩ := List.forall_mem_cons.mp hrows
    exact .inr ⟨hr, ih hrest⟩

/-- A check of the meaning decides as its row does. -/
theorem EndsByChecks.check [Decidable p] (hpq : p ↔ q) (h : ¬p → EndsByChecks s t rows) :
    EndsByChecks s (if p then s.raise code info else t) ((q, code, info) :: rows) := by
  split
  · exact .inl ⟨hpq.mp ‹_›, rfl⟩
  · exact .inr ⟨hpq.not.mp ‹_›, h ‹_›⟩

theorem splitCore_endsPastChecks (c ca cb : Nat) : EndsPastChecks s (splitCore c ca cb s) := by
  rcases splitCore_cases c ca cb s with ⟨-, e⟩ | ⟨upper, -, e⟩ | ⟨m, p, -, -, -, e⟩ <;> rw [e]
  · exact .inl ⟨rfl, .inr rfl⟩
  · exact .inr ⟨_, _, rfl⟩
  · exact .inl ⟨rfl, .inl rfl⟩

/-- The index check of a command that names one context (row 4). -/
theorem nctx_le_iff_badCtx {i : Instr} {c : Nat} (hi : State.namedBy i = [c]) : s.nctx ≤ c ↔ ∃ d ∈ State.namedBy i, s.nctx ≤ d := by
  simp [hi]

/-- The check that the context is bound (row 6). -/
theorem not_valid_iff_unbound {i : Instr} {c : Nat} (hi : State.namedBy i = [c]) (hne : ∀ d, i ≠ .bind d ∧ i ≠ .unbind d) :
    (!(s.ctx c).valid) = true ↔ (∀ d, i ≠ .bind d ∧ i ≠ .unbind d) ∧ ∃ d ∈ State.namedBy i, (s.ctx d).valid = false := by
  rw [and_iff_right hne]; simp [hi]

theorem valueLegal_eq_false_iff {v : Reg} : valueLegal v = false ↔ v.toNat = 0 ∨ 2 ^ 48 ≤ v.toNat := by
  rw [Bool.eq_false_iff, Ne, valueLegal_iff]; omega

theorem overlap_iff {g h : Buffer} : overlap g h = true ↔ overlapping g h := decide_eq_true_iff

/-! ### The commands, row by row of the priority table (R167) -/

variable {c : Nat}

theorem execBind_endsByChecks (h : exec (.bind c) s = .next t) : EndsByChecks s t (checkTable s (.bind c)) := by
  cases h
  refine .check (nctx_le_iff_badCtx rfl) fun _ => .skip (by simp) <| .skip (by simp) <| .check ?_ fun _ =>
    .past (by simp) (.inl ⟨rfl, .inl rfl⟩)
  simp [baseInRange_eq_false_iff]

theorem execUnbind_endsByChecks (h : exec (.unbind c) s = .next t) : EndsByChecks s t (checkTable s (.unbind c)) := by
  cases h
  exact .check (nctx_le_iff_badCtx rfl) fun _ => .past (by simp) (.inl ⟨rfl, .inl rfl⟩)

theorem execInsert_endsByChecks (h : exec (.insert c) s = .next t) : EndsByChecks s t (checkTable s (.insert c)) := by
  cases h
  refine .check (nctx_le_iff_badCtx rfl) fun _ => .skip (by simp) <| .check (not_valid_iff_unbound rfl (by simp)) fun _ => .skip (by simp) <|
    .check (by simp) fun _ => .check ?_ fun _ => .past (by simp) ?_
  · simp [valueLegal_eq_false_iff]
  · cases insertCore (s.buffer c) s.params.maxRounds s.mem s.operand <;> exact .inl ⟨rfl, .inl rfl⟩

theorem execLookup_endsByChecks (h : exec (.lookup c) s = .next t) : EndsByChecks s t (checkTable s (.lookup c)) := by
  cases h
  exact .check (nctx_le_iff_badCtx rfl) fun _ => .skip (by simp) <| .check (not_valid_iff_unbound rfl (by simp)) fun _ =>
    .past (by simp) (.inl ⟨rfl, .inl rfl⟩)

theorem execRemove_endsByChecks (h : exec (.remove c) s = .next t) : EndsByChecks s t (checkTable s (.remove c)) := by
  cases h
  refine .check (nctx_le_iff_badCtx rfl) fun _ => .skip (by simp) <| .check (not_valid_iff_unbound rfl (by simp)) fun _ => .skip (by simp) <|
    .skip (by simp) <| .check ?_ fun _ => .past (by simp) (.inl ⟨rfl, .inl rfl⟩)
  simp [valueLegal_eq_false_iff]

theorem execSplit_endsByChecks {ca cb : Nat} (h : exec (.split c ca cb) s = .next t) : EndsByChecks s t (checkTable s (.split c ca cb)) := by
  cases h
  refine .check ?_ fun _ => .check ?_ fun _ => .check ?_ fun _ => .skip (by simp) <| .skip (by simp) <| .skip (by simp) <|
    .check ?_ fun _ => .check ?_ fun _ => splitCore_endsPastChecks c ca cb
  · simp [State.namedBy]
  · simp [or_iff_not_imp_left]
  · simp [State.namedBy, or_assoc]
  · simp
  · simp [overlap_iff, or_assoc]

/-- Every command ends by its rows of the priority table. -/
theorem exec_endsByChecks {i : Instr} (h : exec i s = .next t) : EndsByChecks s t (checkTable s i) := by
  cases i with
  | bind c => exact execBind_endsByChecks h
  | unbind c => exact execUnbind_endsByChecks h
  | insert c => exact execInsert_endsByChecks h
  | lookup c => exact execLookup_endsByChecks h
  | remove c => exact execRemove_endsByChecks h
  | split c ca cb => exact execSplit_endsByChecks h

theorem EndsPastChecks.errCode_cases (h : EndsPastChecks s t) : t.errCode = .none ∨ t.errCode = .splitEmpty ∨ t.errCode = .splitDestFull := by
  rcases h with ⟨-, hnone | hempty⟩ | ⟨u, info, rfl⟩
  · exact .inl hnone
  · exact .inr (.inl hempty)
  · exact .inr (.inr rfl)

end

/-- Settles O16: each command ends by its rows of the priority table, in order. -/
theorem firstFailingCheckIsReported : Obligations.FirstFailingCheckIsReported := by
  intro i s
  obtain ⟨t, ht⟩ := exec_next i s
  have hends := exec_endsByChecks ht
  refine ⟨fun n row hget hfails hfirst => ?_, fun hpass => ⟨t, ht, ?_⟩⟩
  · rw [ht, hends.eq_faulted hget hfails hfirst]
  · rcases hends.faulted_or_past with ⟨row, hrow, hfails, -⟩ | hpast
    · exact absurd hfails (hpass row hrow)
    · exact hpast.errCode_cases

end Sys2Proof.Machine
end

section
/-! PROOFS. The fault state (R163, R166, R169, R171): what enters it, the engine's stop after E_BUSY, and what a faulted block still does. -/

namespace Sys2Proof.Machine

open Sys2Proof.Claims

section
variable {s t : State}

/-! ### The engine's stop (R166) -/

theorem State.namedCtxs_subset {i : Instr} (hd : decode s.lcmd = .command i) : s.namedCtxs ⊆ namedBy i := fun _ hc =>
  ((mem_namedCtxs hd).mp hc).1

theorem State.stopEngine_ctx {i : Instr} (hd : decode s.lcmd = .command i) {d : Nat} (h : d ∉ namedBy i) : s.stopEngine.ctx d = s.ctx d :=
  s.ctx_unspecify fun hn => h (namedCtxs_subset hd hn)

theorem State.stopEngine_byteAt {i : Instr} (hd : decode s.lcmd = .command i) {a : Nat} (ha : ¬inNamedSlot s i a) :
    s.stopEngine.mem.byteAt a = s.mem.byteAt a := by
  rw [stopEngine_mem]
  exact byteAt_unspecifyBuffers_of_not_inNamedSlot (namedCtxs_subset hd) ha

/-- An abandoned illegal word names no context, so its stop leaves contexts and memory alone (R88; log 11). -/
theorem State.stopEngine_of_illegal {r : IllegalWord} (hd : decode s.lcmd = .illegal r) :
    s.stopEngine.ctxs = s.ctxs ∧ s.stopEngine.mem = s.mem := by
  rw [stopEngine_ctxs, stopEngine_mem, namedCtxs_illegal hd]
  exact ⟨rfl, rfl⟩

/-! ### Entering the fault state (R163, R171) -/

/-- The code of a fault that the engine raises: E_BUSY is the host's (R166), and the other two are no faults (R164). -/
def EngineFaultCode (code : ErrCode) : Prop := code ≠ .none ∧ code ≠ .splitEmpty ∧ code ≠ .busy

/-- Every row of the priority table has the code of a fault. -/
theorem checkTable_engineFaultCode {i : Instr} : ∀ row ∈ checkTable s i, EngineFaultCode row.2.1 := by
  simp [checkTable, EngineFaultCode]

/-- A command that faults ends by `raise`. -/
theorem exec_eq_raise {i : Instr} (h : exec i s = .next t) (hf : s.fault = false) (hf' : t.fault = true) :
    ∃ u code info, t = State.raise u code info ∧ EngineFaultCode code := by
  rcases (exec_endsByChecks h).faulted_or_past with ⟨row, hrow, -, e⟩ | ⟨e, -⟩ | ⟨u, info, e⟩
  · exact ⟨s, row.2.1, row.2.2, e, checkTable_engineFaultCode row hrow⟩
  · exact absurd (hf.symm.trans (e.symm.trans hf')) nofun
  · exact ⟨u, .splitDestFull, info, e, by simp [EngineFaultCode]⟩

/-- The engine enters the fault state by `raise`, at the end of the command that runs. -/
theorem engineStep_enters_fault (h : engineStep s = .next t) (hf : s.fault = false) (hf' : t.fault = true) :
    s.busy = true ∧ t.errCmd = s.lcmd.extractLsb' 0 32 ∧ ∃ u code info, t = State.raise u code info ∧ EngineFaultCode code := by
  rcases engineStep_cases h with ⟨-, rfl⟩ | ⟨-, hstop, -⟩ | ⟨hb, -, i, -, hi⟩ | ⟨hb, -, -, rfl⟩
  · exact absurd (hf.symm.trans hf') nofun
  · exact absurd (hf.symm.trans hstop) nofun
  · exact ⟨hb, by rw [(exec_frame hi).1], exec_eq_raise hi hf hf'⟩
  · exact ⟨hb, rfl, s, .badOp, 0, rfl, by simp [EngineFaultCode]⟩

/-- Of the host's accesses only a CMD write to a running block enters the fault state, and it raises E_BUSY. -/
theorem hostStep_enters_fault {a : HostAccess} (h : hostStep a s = .next t) (hf : s.fault = false) (hf' : t.fault = true) :
    s.busy = true ∧ ∃ v, a = .writeReg 0 8 v ∧ t = s.abandon v := by
  have hne : t.fault ≠ s.fault := by simp [hf, hf']
  rcases hostStep_cases h with ⟨v, ha, rfl⟩ | ⟨off, v, -, -, k, v', b, rfl⟩ | ⟨e, -⟩ | ⟨wa, w, -, -, -, rfl⟩ | ⟨ba, b, -, -, -, rfl⟩ | ⟨-, rfl⟩
  · rcases hostWriteCmd_cases s v with ⟨hstored, -⟩ | ⟨-, hb, e⟩ | ⟨-, -, e⟩
    · exact absurd (hf.symm.trans hstored) nofun
    · exact ⟨hb, v, ha, e⟩
    · exact absurd (congrArg State.fault e) hne
  · exact absurd rfl hne
  · exact absurd (congrArg State.fault e) hne
  · exact absurd rfl hne
  · exact absurd rfl hne
  · rw [State.hardReset_eq] at hf'
    exact absurd hf' nofun

/-! ### The faulted block (R169, R172) -/

/-- `t` is `s`, a faulted block, after a move that is no reset: FAULT, RESULT, ERR, the results, the divider and the latch are as they were. -/
def FaultKept (s t : State) : Prop :=
  t = { s with
    cmd := t.cmd, key := t.key, val := t.val, base := t.base, busy := t.busy, ctxs := t.ctxs, mem := t.mem
    readData := t.readData, draws := t.draws }

/-- The engine's move on a faulted block is its stop, or nothing. -/
theorem engineStep_of_fault (h : engineStep s = .next t) (hf : s.fault = true) :
    FaultKept s t ∧ (s.busy = false → t = s) := by
  rcases engineStep_cases h with ⟨-, rfl⟩ | ⟨hb, -, rfl⟩ | ⟨-, hrun, -⟩ | ⟨-, hrun, -⟩
  · exact ⟨rfl, fun _ => rfl⟩
  · refine ⟨?_, fun hidle => absurd (hidle.symm.trans hb) nofun⟩
    rw [FaultKept, State.stopEngine_eq]
  · exact absurd (hf.symm.trans hrun) nofun
  · exact absurd (hf.symm.trans hrun) nofun

/-- A host access but reset of a faulted block issues nothing, and changes memory only by a memory write. -/
theorem hostStep_of_fault {a : HostAccess} (h : hostStep a s = .next t) (hf : s.fault = true) (ha : a ≠ .reset) :
    FaultKept s t ∧ t.busy = s.busy ∧ t.ctxs = s.ctxs ∧
      ((∀ wa w, a ≠ .writeWord wa w) → (∀ ba b, a ≠ .writeByte ba b) → t.mem = s.mem) := by
  rcases hostStep_cases h with ⟨v, -, rfl⟩ | ⟨off, v, -, -, k, v', b, rfl⟩ | ⟨e, -⟩ | ⟨wa, w, e, -, -, rfl⟩ | ⟨ba, b, e, -, -, rfl⟩ | ⟨e, -⟩
  · rw [State.hostWriteCmd_of_fault v hf]
    exact ⟨rfl, rfl, rfl, fun _ _ => rfl⟩
  · exact ⟨rfl, rfl, rfl, fun _ _ => rfl⟩
  · rw [e]
    exact ⟨rfl, rfl, rfl, fun _ _ => rfl⟩
  · exact ⟨rfl, rfl, rfl, fun hw _ => absurd e (hw wa w)⟩
  · exact ⟨rfl, rfl, rfl, fun _ hb => absurd e (hb ba b)⟩
  · exact absurd e ha

end

/-! ### The obligations -/

/-- Settles O44: the engine's move is `stopEngine`, which frees the contexts and the slots that the latched command names. -/
theorem engineStopsAfterBusyFault : Obligations.EngineStopsAfterBusyFault := by
  intro s hb hf
  refine ⟨s.stopEngine, engineStep_of_stop hb hf, ?_, s.nctx_unspecify _,
    fun i hd => ⟨fun d => State.stopEngine_ctx hd, fun a => State.stopEngine_byteAt hd⟩, fun r => State.stopEngine_of_illegal⟩
  rw [State.stopEngine_eq]

/-- Settles O45: the engine enters the fault state by the fault of its command, the host by E_BUSY. -/
theorem faultEntryRecordsTheCommand : Obligations.FaultEntryRecordsTheCommand := by
  intro s t hstep hf hf'
  rcases step_cases hstep with ⟨-, he⟩ | ⟨a, rest, hagenda, hh⟩
  · obtain ⟨hb, hcmd, u, code, info, rfl, hnone, hempty, hbusy⟩ := engineStep_enters_fault he hf hf'
    exact ⟨hb, rfl, rfl, hnone, hempty, .inl ⟨hbusy, rfl, hcmd⟩⟩
  · obtain ⟨hb, v, rfl, rfl⟩ := hostStep_enters_fault hh hf hf'
    exact ⟨hb, rfl, rfl, nofun, nofun, .inr ⟨rfl, rfl, rfl, rfl, v, rest, hagenda, rfl⟩⟩

/-- Settles O46: a faulted block's engine only stops, and its host issues nothing. -/
theorem faultStaysUntilReset : Obligations.FaultStaysUntilReset := by
  intro s t hf hstep hreset
  rcases step_cases hstep with ⟨hengine, he⟩ | ⟨a, rest, hagenda, hh⟩
  · obtain ⟨hkept, hidle⟩ := engineStep_of_fault he hf
    refine ⟨hkept, fun h => ?_⟩
    rw [hidle (h.resolve_right fun hn => hn hengine)]
    exact ⟨rfl, rfl, fun _ _ => rfl⟩
  · obtain ⟨hkept, hbusy, hctxs, hmem⟩ := hostStep_of_fault hh hf fun e => hreset rest (e ▸ hagenda)
    refine ⟨hkept, fun _ => ⟨hbusy, hctxs, fun hword hbyte => hmem (fun wa w e => ?_) fun ba b e => ?_⟩⟩
    · exact hword wa w rest (e ▸ hagenda)
    · exact hbyte ba b rest (e ▸ hagenda)

end Sys2Proof.Machine
end

section
/-! PROOFS. RACE (R76 (c), R170): a host access of buffer memory is the guard's answer for its word, which is named exactly when its bytes are. -/

namespace Sys2Proof.Machine

open Sys2Proof.Claims

section
variable {s : State} {ba : Nat}

/-- `a` is an access of the host, of any kind, to the word that has byte `ba`: to the word, or to that byte of it (R60, R65). -/
def AccessesWordOf (a : HostAccess) (ba : Nat) : Prop :=
  (∃ w, a = .writeWord (ba / 4) w) ∨ a = .readWord (ba / 4) ∨ (∃ b, a = .writeByte ba b) ∨ a = .readByte ba

theorem AccessesWordOf.hostStep_eq {a : HostAccess} (h : AccessesWordOf a ba) (s : State) : ∃ k, hostStep a s = s.guardWord (ba / 4) k := by
  rcases h with ⟨w, rfl⟩ | rfl | ⟨b, rfl⟩ | rfl <;> exact ⟨_, rfl⟩

/-- A byte is in a buffer exactly when its word is one of the buffer's. -/
theorem inBuffer_iff_word {g : Buffer} : inBuffer g ba ↔ g.base ≤ ba / 4 ∧ ba / 4 < g.base + 2097152 := by
  unfold inBuffer; omega

/-- The word of a byte is named exactly when the byte is in a named bound buffer (R61). -/
theorem State.namesWord_iff_inNamed {i : Instr} (hd : decode s.lcmd = .command i) : s.namesWord (ba / 4) = true ↔ inNamed s i ba := by
  simp only [namesWord_iff, mem_namedCtxs hd, inNamed, inBuffer_iff_word, buffer_base, and_assoc]

/-- An access of a named word of the port while BUSY is a race. -/
theorem State.guardWord_race {wa : Nat} (hwa : wa < 2 ^ s.params.addrW) (hb : s.busy = true) (hn : s.namesWord wa = true) (k : State) :
    s.guardWord wa k = .fault .race := by simp [guardWord, Nat.not_le.mpr hwa, hb, hn]

end

/-- Settles O47: the guard's three answers inside the port. -/
theorem touchingANamedBufferIsARace : Obligations.TouchingANamedBufferIsARace := by
  intro s i a ba ha hba
  have hwa : ba / 4 < 2 ^ s.params.addrW := by omega
  obtain ⟨k, hk⟩ := AccessesWordOf.hostStep_eq ha s
  have hgo (h : s.busy = true → s.namesWord (ba / 4) = false) : ∃ t, hostStep a s = .next t :=
    ⟨k, hk.trans (State.guardWord_next hwa h k)⟩
  refine ⟨fun hb hd hin => ?_, fun _ hd hout => hgo fun _ => ?_, fun r _ hd => hgo fun _ => ?_, fun hidle => hgo fun hb => ?_⟩
  · rw [hk, State.guardWord_race hwa hb ((State.namesWord_iff_inNamed hd).mpr hin)]
  · rwa [Bool.eq_false_iff, Ne, State.namesWord_iff_inNamed hd]
  · exact State.namesWord_eq_false fun i hi => absurd (hd.symm.trans hi) nofun
  · exact absurd (hidle.symm.trans hb) nofun

end Sys2Proof.Machine
end

section
/-! PROOFS. The reset (R180, R182): what it leaves of registers, contexts and memory, and that the machine after it meets the invariant; and the
decoder on the words of the spec's test vectors (R88, R91). -/

namespace Sys2Proof.Machine

open Sys2Proof.Claims

/-- Every context is as after a reset (R36, R180). -/
theorem State.hardReset_ctxs (s : State) : s.hardReset.ctxs = List.replicate s.nctx Ctx.unbound := by
  rw [hardReset_eq]
  exact List.map_const' ..

/-- A reset of an idle block leaves buffer memory alone (R182). -/
theorem State.hardReset_mem_of_idle {s : State} (hb : s.busy = false) : s.hardReset.mem = s.mem := by
  rw [hardReset_eq]
  exact if_neg (Bool.eq_false_iff.mp hb)

/-- A byte in no slot of a buffer that the latched command names outlives a reset; an illegal word names no buffer (R63, R182; log 11, log 12). -/
theorem State.hardReset_byteAt {s : State} {a : Nat} (ha : ∀ i, decode s.lcmd = .command i → ¬inNamedSlot s i a) :
    s.hardReset.mem.byteAt a = s.mem.byteAt a := by
  cases hb : s.busy with
  | false => rw [hardReset_mem_of_idle hb]
  | true =>
    have hmem : s.hardReset.mem = (s.unspecifyBuffers s.namedCtxs).mem := by rw [hardReset_eq]; exact if_pos hb
    rw [hmem]
    cases hd : decode s.lcmd with
    | command i => exact byteAt_unspecifyBuffers_of_not_inNamedSlot (namedCtxs_subset hd) (ha i hd)
    | illegal r => rw [namedCtxs_illegal hd, unspecifyBuffers_nil]

/-- Settles O48: a reset is `hardReset`, which draws only the slots of the buffers that a running command names. -/
theorem resetClearsTheBlock : Obligations.ResetClearsTheBlock := by
  intro s
  refine ⟨s.hardReset, rfl, ?_, State.hardReset_mem_of_idle, fun a => State.hardReset_byteAt⟩
  have hctxs : List.replicate s.nctx ⟨false, 0, .normal, 0, 0⟩ = s.hardReset.ctxs := s.hardReset_ctxs.symm
  rw [hctxs, State.hardReset_eq]

/-- Settles O57: the reset state is idle with every context unbound, and its memory lists nothing. -/
theorem resetStateMeetsTheInvariant : Obligations.ResetStateMeetsTheInvariant where
  params := by decide
  nctx := by decide
  memWf := by decide
  memIn := nofun
  results := Nat.zero_le _
  stopping := nofun
  running := nofun
  faulted := ⟨nofun, nofun⟩
  ctxs := fun _ x hx => by
    rw [List.eq_of_mem_replicate hx]
    exact Ctx.sound_unbound _

/-- Settles O5: the legal words are the encodings of their commands (R89), and the four others are looked up in the opcode table (R88, R91). -/
theorem specWordsDecodeAsWritten : Obligations.SpecWordsDecodeAsWritten :=
  ⟨decode_encode (i := .bind 1) rfl, decode_encode (i := .unbind 1) rfl, decode_encode (i := .insert 4) rfl,
    decode_encode (i := .lookup 0) rfl, decode_encode (i := .remove 0) rfl, decode_encode (i := .split 0 1 2) rfl,
    by decide, by decide, by decide, by decide⟩

end Sys2Proof.Machine
end
